-- ==== Sys2Proof/Word.lean ====
section
/-! DEFINITION. The two word types of the block: a command word is 16 bits (30_encoding.md R90), a byte 8 bits
(00_scope.md R8, decision D35). -/

namespace Sys2Proof

/-- A command word, bit 15 most significant (30 R90). -/
abbrev Word := BitVec 16

/-- One byte: a storage cell, an operand, an element of a hardware FIFO or of the line (00 R8, D35). -/
abbrev Byte := BitVec 8

end Sys2Proof
end

