-- ==== Sys2Proof/Syntax.lean ====
section
/-! DEFINITION. The operations of the block as syntax: one constructor of `Instr` for each row of
spec/opcode_table.json (30_encoding.md R95), with the names of rings, ports and agents they use. -/

namespace Sys2Proof

/-- The two ring instances (10 R20); in a Format R word bit 8 is 0 for `rx` and 1 for `tx` (30 R92). -/
inductive RingId where
  | rx
  | tx
  deriving DecidableEq, Repr

/-- The four command ports (30 R90). -/
inductive Port where
  /-- Into the block, issued by the application: SUBMIT, TRY_RECEIVE, DRAIN_RECEIVED. -/
  | app
  /-- Into the block, issued by the interrupt dispatcher: ON_TX_READY, ON_RX_READY. -/
  | evt
  /-- Inside the block, driver to ring: PUSH, POP, LEN, IS_EMPTY, IS_FULL. -/
  | ring
  /-- Out of the block: the eight HW_* operations. -/
  | cap
  deriving DecidableEq, Repr

/-- The agents (00 R12). -/
inductive Agent where
  | fg
  | isrTx
  | isrRx
  | sync
  | plat
  deriving DecidableEq, Repr

/-- The rows of the opcode table by name (30 R95). -/
inductive Mnemonic where
  | submit
  | tryReceive
  | drainReceived
  | onTxReady
  | onRxReady
  | push
  | pop
  | len
  | isEmpty
  | isFull
  | hwTxFifoFreeSlots
  | hwTxFifoWrite
  | hwRxFifoOccupancy
  | hwRxFifoRead
  | hwSetTxInterruptEnabled
  | hwClearTxInterruptFlag
  | hwClearRxInterruptFlag
  | hwClearRxOverflowFlag
  | submitPayload
  deriving DecidableEq, Repr

/-- The decoded operations (30 R107: the semantics of every operation are stated on these). -/
inductive Instr where
  /-- `submit(bytes)` (41 R140); as a command a header and one payload word a byte (30 R97). -/
  | submit (bytes : List Byte)
  /-- `try_receive()` (41 R145). -/
  | tryReceive
  /-- `drain_received()` (41 R147). -/
  | drainReceived
  /-- `on_tx_ready_interrupt()` (42 R160). -/
  | onTxReady
  /-- `on_rx_ready_interrupt()` (42 R174). -/
  | onRxReady
  /-- `push(byte)` on a ring (40 R124). -/
  | push (r : RingId) (b : Byte)
  /-- `pop()` on a ring (40 R127). -/
  | pop (r : RingId)
  /-- `len()` of a ring (40 R129). -/
  | len (r : RingId)
  /-- `is_empty()` of a ring (40 R132). -/
  | isEmpty (r : RingId)
  /-- `is_full()` of a ring (40 R133). -/
  | isFull (r : RingId)
  /-- `hw_tx_fifo_free_slots()` (43 R190). -/
  | hwTxFifoFreeSlots
  /-- `hw_tx_fifo_write(byte)` (43 R191). -/
  | hwTxFifoWrite (b : Byte)
  /-- `hw_rx_fifo_occupancy()` (43 R192). -/
  | hwRxFifoOccupancy
  /-- `hw_rx_fifo_read()` (43 R193). -/
  | hwRxFifoRead
  /-- `hw_set_tx_interrupt_enabled(bool)` (43 R194). -/
  | hwSetTxInterruptEnabled (e : Bool)
  /-- `hw_clear_tx_interrupt_flag()` (43 R195). -/
  | hwClearTxInterruptFlag
  /-- `hw_clear_rx_interrupt_flag()` (43 R196). -/
  | hwClearRxInterruptFlag
  /-- `hw_clear_rx_overflow_flag()` (43 R197). -/
  | hwClearRxOverflowFlag
  /-- One payload word of a SUBMIT command (30 R94, R97). -/
  | submitPayload (b : Byte)
  deriving DecidableEq, Repr

/-- The row of the opcode table an operation belongs to. -/
def Instr.mnemonic : Instr → Mnemonic
  | .submit _ => .submit
  | .tryReceive => .tryReceive
  | .drainReceived => .drainReceived
  | .onTxReady => .onTxReady
  | .onRxReady => .onRxReady
  | .push _ _ => .push
  | .pop _ => .pop
  | .len _ => .len
  | .isEmpty _ => .isEmpty
  | .isFull _ => .isFull
  | .hwTxFifoFreeSlots => .hwTxFifoFreeSlots
  | .hwTxFifoWrite _ => .hwTxFifoWrite
  | .hwRxFifoOccupancy => .hwRxFifoOccupancy
  | .hwRxFifoRead => .hwRxFifoRead
  | .hwSetTxInterruptEnabled _ => .hwSetTxInterruptEnabled
  | .hwClearTxInterruptFlag => .hwClearTxInterruptFlag
  | .hwClearRxInterruptFlag => .hwClearRxInterruptFlag
  | .hwClearRxOverflowFlag => .hwClearRxOverflowFlag
  | .submitPayload _ => .submitPayload

/-- The port that carries each row (30 R90, R95). -/
def Mnemonic.port : Mnemonic → Port
  | .submit | .tryReceive | .drainReceived | .submitPayload => .app
  | .onTxReady | .onRxReady => .evt
  | .push | .pop | .len | .isEmpty | .isFull => .ring
  | .hwTxFifoFreeSlots | .hwTxFifoWrite | .hwRxFifoOccupancy | .hwRxFifoRead | .hwSetTxInterruptEnabled
  | .hwClearTxInterruptFlag | .hwClearRxInterruptFlag | .hwClearRxOverflowFlag => .cap

/-- The document's own name of each operation (30 R95, R105). -/
def Mnemonic.documentName : Mnemonic → String
  | .submit => "submit(bytes)"
  | .tryReceive => "try_receive()"
  | .drainReceived => "drain_received()"
  | .onTxReady => "on_tx_ready_interrupt()"
  | .onRxReady => "on_rx_ready_interrupt()"
  | .push => "push(byte)"
  | .pop => "pop()"
  | .len => "len()"
  | .isEmpty => "is_empty()"
  | .isFull => "is_full()"
  | .hwTxFifoFreeSlots => "hw_tx_fifo_free_slots()"
  | .hwTxFifoWrite => "hw_tx_fifo_write(byte)"
  | .hwRxFifoOccupancy => "hw_rx_fifo_occupancy()"
  | .hwRxFifoRead => "hw_rx_fifo_read()"
  | .hwSetTxInterruptEnabled => "hw_set_tx_interrupt_enabled(bool)"
  | .hwClearTxInterruptFlag => "hw_clear_tx_interrupt_flag()"
  | .hwClearRxInterruptFlag => "hw_clear_rx_interrupt_flag()"
  | .hwClearRxOverflowFlag => "hw_clear_rx_overflow_flag()"
  | .submitPayload => "one element of bytes"

end Sys2Proof
end

