-- ==== Sys2Proof/WellFormed.lean ====
section
/-! DEFINITION. Which operations have a command encoding. The one limit is the width of SUBMIT's `imm8`
(30_encoding.md R97, decision D34); every other operand fits its field by its type. -/

namespace Sys2Proof

/-- A SUBMIT command carries at most 255 bytes (30 R97); a longer sequence is issued as several (30 R106). -/
def Instr.wellFormed : Instr → Bool
  | .submit bytes => decide (bytes.length ≤ 255)
  | .tryReceive => true
  | .drainReceived => true
  | .onTxReady => true
  | .onRxReady => true
  | .push _ _ => true
  | .pop _ => true
  | .len _ => true
  | .isEmpty _ => true
  | .isFull _ => true
  | .hwTxFifoFreeSlots => true
  | .hwTxFifoWrite _ => true
  | .hwRxFifoOccupancy => true
  | .hwRxFifoRead => true
  | .hwSetTxInterruptEnabled _ => true
  | .hwClearTxInterruptFlag => true
  | .hwClearRxInterruptFlag => true
  | .hwClearRxOverflowFlag => true
  | .submitPayload _ => true

end Sys2Proof
end

