-- ==== Sys2Proof/Decode.lean ====
section
/-! DEFINITION. The command words (30_encoding.md R90 to R109): the opcode table as rows, the decoder of a port's
words, the decoder of a payload word, the encoder, and the assembler's spelling of an operation. -/

namespace Sys2Proof

/-! ## The opcode table (R95) -/

/-- A row of the table: a word `w` selects it iff `w &&& mask = code` (R95). -/
structure Row where
  op : Mnemonic
  code : Word
  mask : Word
  deriving DecidableEq, Repr

/-- Whether a word selects a row (R95). -/
def Row.selects (q : Row) (w : Word) : Bool := w &&& q.mask == q.code

/-- The rows of ports APP and EVT (Format A, R91). -/
def rowsA : List Row :=
  [⟨.submit, 0x1000, 0xFF00⟩, ⟨.tryReceive, 0x2000, 0xFFFF⟩, ⟨.drainReceived, 0x3000, 0xFFFF⟩,
   ⟨.onTxReady, 0x4000, 0xFFFF⟩, ⟨.onRxReady, 0x5000, 0xFFFF⟩]

/-- The rows of port RING (Format R, R92). -/
def rowsR : List Row :=
  [⟨.push, 0x8000, 0xFE00⟩, ⟨.pop, 0x9000, 0xFEFF⟩, ⟨.len, 0xA000, 0xFEFF⟩,
   ⟨.isEmpty, 0xB000, 0xFEFF⟩, ⟨.isFull, 0xC000, 0xFEFF⟩]

/-- The rows of port CAP (Format H, R93). -/
def rowsH : List Row :=
  [⟨.hwTxFifoFreeSlots, 0xE000, 0xFFFF⟩, ⟨.hwTxFifoWrite, 0xE100, 0xFF00⟩, ⟨.hwRxFifoOccupancy, 0xE200, 0xFFFF⟩,
   ⟨.hwRxFifoRead, 0xE300, 0xFFFF⟩, ⟨.hwSetTxInterruptEnabled, 0xE400, 0xFFFE⟩,
   ⟨.hwClearTxInterruptFlag, 0xE500, 0xFFFF⟩, ⟨.hwClearRxInterruptFlag, 0xE600, 0xFFFF⟩,
   ⟨.hwClearRxOverflowFlag, 0xE700, 0xFFFF⟩]

/-- The eighteen operation rows, the only ones a header is tested against (R96). -/
def operationRows : List Row := rowsA ++ rowsR ++ rowsH

/-- The payload row, "matched only for the `n` words that follow a `SUBMIT` header" (R94, R96). -/
def payloadRow : Row := ⟨.submitPayload, 0x0000, 0xFF00⟩

/-- The operation row a word selects, if any (R96). -/
def findRow (w : Word) : Option Row := operationRows.find? (·.selects w)

/-! ## Fields (R91 to R94, R98, R99) -/

/-- Bits 15:12. -/
def opField (w : Word) : BitVec 4 := w.extractLsb' 12 4

/-- Bits 11:8, the function number of Format H (R93). -/
def fnField (w : Word) : BitVec 4 := w.extractLsb' 8 4

/-- Bits 7:0 (R98). -/
def imm8 (w : Word) : Byte := w.extractLsb' 0 8

/-- Bit 8 of a Format R word names the ring (R99). -/
def ringField (w : Word) : RingId := if w.getLsbD 8 then .tx else .rx

/-- Bit 0 of HW_SET_TX_INTERRUPT_ENABLED is the bool (R93, R98). -/
def enableField (w : Word) : Bool := w.getLsbD 0

/-! ## Decoding (R96, R97, R100, R102, R109) -/

/-- Why the words of a port are not a command. The first group is refused with status ILLEGAL (R97, R100),
`wrongPort` with CONTEXT (R102); the last two say that no command is there yet. -/
inductive DecodeError where
  /-- `op` in 0x0, 0x6, 0x7, 0xD, 0xF (R100). -/
  | reservedOp
  /-- `op = 0xE` with `fn` in 0x8 .. 0xF (R100). -/
  | reservedFunction
  /-- A must-be-zero bit is not zero (R100). -/
  | nonZeroField
  /-- A payload word of a SUBMIT with `n` payload words is not a Format D word (R97). -/
  | badPayload (n : Nat)
  /-- A legal word on a port that does not carry it (R102). -/
  | wrongPort
  /-- No word waits on the port. -/
  | noWord
  /-- A SUBMIT header whose `n` payload words have not all arrived. -/
  | payloadMissing (n : Nat)
  deriving DecidableEq, Repr

/-- Which clause of R100 a word without a row falls under. -/
def illegalReason (w : Word) : DecodeError :=
  if opField w ∈ [0x0#4, 0x6#4, 0x7#4, 0xD#4, 0xF#4] then .reservedOp
  else if opField w = 0xE#4 ∧ 8 ≤ (fnField w).toNat then .reservedFunction
  else .nonZeroField

/-- How many payload words follow a header that selects the row `m`: `imm8` for SUBMIT, none otherwise (R97, R109). -/
def payloadCount (m : Mnemonic) (w : Word) : Nat := if m = .submit then (imm8 w).toNat else 0

/-- The length of a command, known from its first word: `1 + imm8` if `w & 0xFF00 = 0x1000`, else 1 (R109). -/
def commandLength (w : Word) : Nat := if w &&& 0xFF00#16 = 0x1000#16 then 1 + (imm8 w).toNat else 1

/-- One payload word (Format D, R94). -/
def decodePayloadWord (w : Word) : Option Byte := if payloadRow.selects w then some (imm8 w) else none

/-- The payload words of a SUBMIT, all of them or none (R97). -/
def decodePayload : List Word → Option (List Byte)
  | [] => some []
  | w :: ws =>
    match decodePayloadWord w, decodePayload ws with
    | some b, some bs => some (b :: bs)
    | _, _ => none

/-- The operation a header stands for, with its operands (R98, R99) and, for SUBMIT, its payload. -/
def assemble (m : Mnemonic) (w : Word) (payload : List Byte) : Instr :=
  match m with
  | .submit => .submit payload
  | .tryReceive => .tryReceive
  | .drainReceived => .drainReceived
  | .onTxReady => .onTxReady
  | .onRxReady => .onRxReady
  | .push => .push (ringField w) (imm8 w)
  | .pop => .pop (ringField w)
  | .len => .len (ringField w)
  | .isEmpty => .isEmpty (ringField w)
  | .isFull => .isFull (ringField w)
  | .hwTxFifoFreeSlots => .hwTxFifoFreeSlots
  | .hwTxFifoWrite => .hwTxFifoWrite (imm8 w)
  | .hwRxFifoOccupancy => .hwRxFifoOccupancy
  | .hwRxFifoRead => .hwRxFifoRead
  | .hwSetTxInterruptEnabled => .hwSetTxInterruptEnabled (enableField w)
  | .hwClearTxInterruptFlag => .hwClearTxInterruptFlag
  | .hwClearRxInterruptFlag => .hwClearRxInterruptFlag
  | .hwClearRxOverflowFlag => .hwClearRxOverflowFlag
  | .submitPayload => .submitPayload (imm8 w)

/-- The next command of a port and the words after it (R96, R97), total on every list of words: the encoding of the
header is checked first, then its port (60 R227), then the payload. -/
def decodeCommand (p : Port) : List Word → Except DecodeError (Instr × List Word)
  | [] => .error .noWord
  | w :: rest =>
    match findRow w with
    | none => .error (illegalReason w)
    | some q =>
      if q.op.port ≠ p then .error .wrongPort
      else
        let n := payloadCount q.op w
        if rest.length < n then .error (.payloadMissing n)
        else
          match decodePayload (rest.take n) with
          | none => .error (.badPayload n)
          | some bs => .ok (assemble q.op w bs, rest.drop n)

/-- How many words a refused command takes from its port: a malformed SUBMIT all of its `1 + n` (R97), a refused word
itself (log 8). -/
def DecodeError.consumed : DecodeError → Nat
  | .reservedOp => 1
  | .reservedFunction => 1
  | .nonZeroField => 1
  | .badPayload n => 1 + n
  | .wrongPort => 1
  | .noWord => 0
  | .payloadMissing _ => 1

/-! ## Encoding -/

/-- A header: a row's code with the 8 immediate bits (R91 to R94). -/
def headWord (code : Word) (b : Byte) : Word := code ||| b.setWidth 16

/-- A Format R header: bit 8 is the ring (R92). -/
def ringWord (code : Word) (r : RingId) (b : Byte) : Word :=
  headWord (match r with | .rx => code | .tx => code ||| 0x0100#16) b

/-- The words of an operation (R95), for SUBMIT the header and one Format D word a byte (R97). -/
def encode : Instr → List Word
  | .submit bytes => headWord 0x1000 (BitVec.ofNat 8 bytes.length) :: bytes.map (headWord 0x0000)
  | .tryReceive => [0x2000]
  | .drainReceived => [0x3000]
  | .onTxReady => [0x4000]
  | .onRxReady => [0x5000]
  | .push r b => [ringWord 0x8000 r b]
  | .pop r => [ringWord 0x9000 r 0]
  | .len r => [ringWord 0xA000 r 0]
  | .isEmpty r => [ringWord 0xB000 r 0]
  | .isFull r => [ringWord 0xC000 r 0]
  | .hwTxFifoFreeSlots => [0xE000]
  | .hwTxFifoWrite b => [headWord 0xE100 b]
  | .hwRxFifoOccupancy => [0xE200]
  | .hwRxFifoRead => [0xE300]
  | .hwSetTxInterruptEnabled e => [if e then 0xE401 else 0xE400]
  | .hwClearTxInterruptFlag => [0xE500]
  | .hwClearRxInterruptFlag => [0xE600]
  | .hwClearRxOverflowFlag => [0xE700]
  | .submitPayload b => [headWord 0x0000 b]

/-! ## The opcode table's numbering -/

/-- The words of the instruction whose bits are `w`, numbered as spec/opcode_table.json numbers them: bit 0 is the
least significant bit of the first word, a later word's bits count on; bits from `nbits` up are 0. -/
def tableWords (nbits w : Nat) : List Word :=
  let v := w % 2 ^ nbits
  (List.range (commandLength (BitVec.ofNat 16 v))).map fun k => BitVec.ofNat 16 (v / 2 ^ (16 * k))

/-- What the decoder reads from those words: a command of the port that carries its header, or, for a word no header
row selects, a payload word (R96). -/
def decodeTableWord (nbits w : Nat) : Option Instr :=
  match tableWords nbits w with
  | [] => none
  | h :: rest =>
    match findRow h with
    | some q =>
      match decodeCommand q.op.port (h :: rest) with
      | .ok (i, _) => some i
      | .error _ => none
    | none => (decodePayloadWord h).map .submitPayload

/-! ## The assembler's spelling (R104) -/

/-- One hexadecimal digit. -/
def hexDigit (n : Nat) : String := (["0", "1", "2", "3", "4", "5", "6", "7", "8", "9", "A", "B", "C", "D", "E", "F"][n]?).getD "?"

/-- A byte operand, `0xHH` (R104). -/
def asmByte (b : Byte) : String := "0x" ++ hexDigit (b.toNat / 16) ++ hexDigit (b.toNat % 16)

/-- The ring suffix of a mnemonic (R104). -/
def asmRing : RingId → String
  | .rx => ".rx"
  | .tx => ".tx"

/-- One operation as a line of the assembler syntax (R104); a payload byte is written as the operand it is. -/
def Instr.asm : Instr → String
  | .submit bytes => "submit [" ++ String.intercalate ", " (bytes.map asmByte) ++ "]"
  | .tryReceive => "try_receive"
  | .drainReceived => "drain_received"
  | .onTxReady => "on_tx_ready"
  | .onRxReady => "on_rx_ready"
  | .push r b => "push" ++ asmRing r ++ " " ++ asmByte b
  | .pop r => "pop" ++ asmRing r
  | .len r => "len" ++ asmRing r
  | .isEmpty r => "is_empty" ++ asmRing r
  | .isFull r => "is_full" ++ asmRing r
  | .hwTxFifoFreeSlots => "hw_tx_fifo_free_slots"
  | .hwTxFifoWrite b => "hw_tx_fifo_write " ++ asmByte b
  | .hwRxFifoOccupancy => "hw_rx_fifo_occupancy"
  | .hwRxFifoRead => "hw_rx_fifo_read"
  | .hwSetTxInterruptEnabled e => "hw_set_tx_interrupt_enabled " ++ (if e then "1" else "0")
  | .hwClearTxInterruptFlag => "hw_clear_tx_interrupt_flag"
  | .hwClearRxInterruptFlag => "hw_clear_rx_interrupt_flag"
  | .hwClearRxOverflowFlag => "hw_clear_rx_overflow_flag"
  | .submitPayload b => asmByte b

end Sys2Proof
end

