-- ==== Sys2Proof/Config.lean ====
section
/-! DEFINITION. What is fixed at construction (00_scope.md R7 to R9, 10_state.md R40), and the block's free values. -/

namespace Sys2Proof

/-- The construction-time arguments. `State` holds one, so that every statement holds for all of them. -/
structure Config where
  /-- `RX_CAP` (00 R7). -/
  rxCap : Nat
  /-- `TX_CAP` (00 R7). -/
  txCap : Nat
  /-- `SYNC_LAG` (00 R9): the other side's index is seen through a lagging synchroniser. -/
  syncLag : Bool
  /-- `CNTW`, the width of `rx_overrun_count` (00 R9). -/
  cntw : Nat
  /-- `FIFO_TX_CAP` of the reference platform (00 R9). -/
  fifoTxCap : Nat
  /-- `FIFO_RX_CAP` of the reference platform (00 R9). -/
  fifoRxCap : Nat
  /-- `TX_LEVEL` (00 R9): the transmit-ready threshold. -/
  txLevel : Nat
  /-- `RX_LEVEL` (00 R9): the receive-ready threshold. -/
  rxLevel : Nat
  deriving DecidableEq, Repr

/-- The ranges of the parameters (00 R7, R9; 43 R205). -/
abbrev Config.Valid (c : Config) : Prop :=
  (2 ≤ c.rxCap ∧ c.rxCap ≤ 65536) ∧ (2 ≤ c.txCap ∧ c.txCap ≤ 65536) ∧ 1 ≤ c.cntw ∧
    1 ≤ c.fifoTxCap ∧ 1 ≤ c.fifoRxCap ∧ c.txLevel < c.fifoTxCap ∧ 1 ≤ c.rxLevel ∧ c.rxLevel ≤ c.fifoRxCap

/-- The parameters `State.reset` is built with. DESIGN CHOICE (log 1): the document's example capacities 8 and 4
(00 R7), CNTW's default 32 (00 R9), SYNC_LAG = false as in the vectors (00 R9), FIFOs of 16 with the lowest levels. -/
def Config.default : Config where
  rxCap := 4
  txCap := 8
  syncLag := false
  cntw := 32
  fifoTxCap := 16
  fifoRxCap := 16
  txLevel := 0
  rxLevel := 1

/-- The index width `IDXW = ceil(log2 CAP)` (00 R8). -/
def Config.indexWidth (cap : Nat) : Nat := Nat.clog 2 cap

/-- The greatest value of `rx_overrun_count`, `2^CNTW - 1` (10 R35). -/
def Config.overrunMax (c : Config) : Nat := 2 ^ c.cntw - 1

/-- FREE VALUE (log 2, log 3): the `n`-th byte the spec leaves open. It is what a read of a cell that nothing has
written returns ("an unspecified byte", 20 R63) and what `hw_rx_fifo_read` returns on an empty FIFO ("any byte",
43 R193, D22). It has no body, so no proof can know a value of it. -/
opaque Config.freeByte : Nat → Byte

end Sys2Proof
end

