-- ==== Sys2Proof/Machine/State.lean ====
section
/-! DEFINITION. The state of the machine as plain data (10_state.md), its reset (10 R45, 70_reset_and_hazards.md R261),
the reasons a step can stop, and the named updates of its fields. -/

namespace Sys2Proof.Machine

/-! ## Ring storage and index registers (10 R20 to R27, R32) -/

/-- The storage of one ring (10 R25, R26): the cells that hold a value, as (cell number, byte) pairs, cell numbers
strictly rising. A cell that is not listed holds no value (70 R263). -/
abbrev Memory := List Host.Cell

/-- The registers and the storage of one ring. -/
structure Ring where
  /-- The cell the next successful `pop` reads (10 R20). -/
  readIndex : Nat
  /-- The cell the next accepted `push` writes (10 R20). -/
  writeIndex : Nat
  /-- The producer side's copy of `readIndex` (10 R32). -/
  rdSeen : Nat
  /-- The consumer side's copy of `writeIndex` (10 R32). -/
  wrSeen : Nat
  storage : Memory
  deriving DecidableEq, Repr

/-! ## Sequencers and their locals (10 R36, R37) -/

/-- `PUSH`'s locals after P1. -/
structure PushLocals where
  wi : Nat
  ri : Nat
  nx : Nat
  deriving DecidableEq, Repr

/-- The micro-step a `PUSH` takes next (40 R124). -/
inductive PushStage where
  | p1
  | p2 (l : PushLocals)
  | p3 (l : PushLocals)
  deriving DecidableEq, Repr

/-- `POP`'s locals after C1. -/
structure PopLocals where
  ri : Nat
  wi : Nat
  deriving DecidableEq, Repr

/-- The micro-step a `POP` takes next (40 R127). -/
inductive PopStage where
  | c1
  | c2 (l : PopLocals)
  | c3 (l : PopLocals) (b : Byte)
  deriving DecidableEq, Repr

/-- The label of `SUBMIT` (41 R140): in a push of S1, or at S2. -/
inductive SubmitStage where
  | s1 (p : PushStage)
  | s2
  deriving DecidableEq, Repr

/-- The label of `ON_TX_READY` (42 R160); `x3w` is the write that ends step X3. X2 tests locals only and is folded into
X1 (70 R286). -/
inductive TxStage where
  | x0
  | x1
  | x3 (p : PopStage)
  | x3w (b : Byte)
  | x4
  | x5
  deriving DecidableEq, Repr

/-- The label of `ON_RX_READY` (42 R174); Y1 tests locals only and is folded into its neighbours (70 R286). -/
inductive RxStage where
  | y0
  | y2
  | y3 (b : Byte) (p : PushStage)
  | y4
  | y5
  | y6
  deriving DecidableEq, Repr

/-- An operation in progress: the operation, its label and its locals (10 R36, R37). Operations of one micro-step
(LEN, IS_EMPTY, IS_FULL, HW_*) are never in progress between two steps. -/
inductive Task where
  | submit (bytes : List Byte) (k : Nat) (stage : SubmitStage)
  | tryReceive (stage : PopStage)
  | drainReceived (out : List Byte) (stage : PopStage)
  | push (r : RingId) (b : Byte) (stage : PushStage)
  | pop (r : RingId) (stage : PopStage)
  | onTxReady (free sent : Nat) (stage : TxStage)
  | onRxReady (n i : Nat) (stage : RxStage)
  deriving DecidableEq, Repr

/-- A sequencer (10 R36). -/
inductive Seq where
  | idle
  | busy (t : Task)
  deriving DecidableEq, Repr

/-- The two sequencers: `fg_seq`, and `isr_seq`, "one for both interrupt agents" (10 R36). -/
inductive Side where
  | fg
  | isr
  deriving DecidableEq, Repr

/-! ## Results and the capability trace -/

/-- The statuses (60 R221). -/
inductive Status where
  | ok
  | overflow
  | empty
  /-- Internal: counted by `rx_overrun_count`, "never returned to anyone". -/
  | rxOverrun
  | illegal
  | context
  deriving DecidableEq, Repr

/-- The value a result carries (30 R103). -/
inductive Value where
  | none
  | nat (n : Nat)
  | byte (b : Byte)
  | bit (v : Bool)
  | bytes (l : List Byte)
  deriving DecidableEq, Repr

/-- A result, and the agent it is returned to (30 R103). -/
structure Returned where
  agent : Agent
  status : Status
  value : Value
  deriving DecidableEq, Repr

/-- One capability call with its argument and its result (43 R200). -/
inductive CapCall where
  | freeSlots (n : Nat)
  | write (b : Byte)
  | occupancy (n : Nat)
  | read (b : Byte)
  | setEnabled (e : Bool)
  | clearTxFlag
  | clearRxFlag
  | clearRxOvf
  deriving DecidableEq, Repr

/-! ## The reference platform (10 R38, R39; 43 R204) -/

/-- The platform's state, less its enable bit, which is `tx_armed` (10 R28). -/
structure Platform where
  txFifo : List Byte
  rxFifo : List Byte
  txFlag : Bool
  rxFlag : Bool
  rxOvfFlag : Bool
  /-- The bytes sent, oldest first (10 R39). -/
  lineOut : List Byte
  /-- The bytes still to arrive (10 R39). -/
  lineIn : List Byte
  /-- Input (log 10): what the next calls of `hw_tx_fifo_free_slots` report; empty means the truth (43 R198). -/
  freeReports : List Nat
  /-- Input (log 10): what the next calls of `hw_rx_fifo_occupancy` report; empty means the truth (43 R198). -/
  occReports : List Nat
  deriving DecidableEq, Repr

/-! ## The command ports and the schedule (the model's own fields) -/

/-- A SUBMIT command whose payload words are arriving one at a time (30 R97): the agent that issued its header, how many
words are still to come, the bytes so far, and whether a malformed word was among them. -/
structure Assembly where
  agent : Agent
  left : Nat
  got : List Byte
  bad : Bool
  deriving DecidableEq, Repr

/-- The words waiting on the four ports (30 R90), and APP's unfinished SUBMIT. -/
structure Ports where
  app : List Word
  evt : List Word
  ring : List Word
  cap : List Word
  assembly : Option Assembly
  deriving DecidableEq, Repr

/-- How much of a command one step runs: `whole`, all its micro-steps with no other agent between them; `micro`, it is
only entered into its sequencer, and later turns take its micro-steps one at a time (log 5). -/
inductive Grain where
  | whole
  | micro
  deriving DecidableEq, Repr

/-- The command being issued: on which port, by which agent (60 R242), at which grain. -/
structure Issue where
  port : Port
  agent : Agent
  grain : Grain
  deriving DecidableEq, Repr

/-- The two interrupt sources (60 R228). -/
inductive Source where
  | txReady
  | rxReady
  deriving DecidableEq, Repr

/-- The synchroniser's steps (20 R73). -/
inductive SyncStep where
  | txw
  | txr
  | rxw
  | rxr
  deriving DecidableEq, Repr

/-- The platform's peripheral steps (43 R206 to R209). -/
inductive PlatStep where
  | txShift
  | txFlag
  | rxArrive
  | rxFlag
  deriving DecidableEq, Repr

/-- One entry of the schedule: whose step comes next (60 R234). -/
inductive Turn where
  /-- The agent issues the next command of the port. -/
  | command (p : Port) (a : Agent) (g : Grain)
  /-- One micro-step of the operation in that sequencer. -/
  | micro (d : Side)
  /-- The dispatcher starts a handler (60 R230, R231). -/
  | dispatch (src : Source)
  | sync (x : SyncStep)
  | plat (x : PlatStep)
  /-- The outside world puts command words on a port (30 R90). -/
  | post (p : Port) (ws : List Word)
  /-- The outside world puts bytes on the line (43 R208). -/
  | feed (bytes : List Byte)
  /-- No agent steps. -/
  | idle
  deriving DecidableEq, Repr

/-! ## The state -/

/-- The machine's state. -/
structure State where
  /-- The construction-time arguments (10 R40); no step changes them. -/
  cfg : Config
  rx : Ring
  tx : Ring
  /-- The TX interrupt armed flag, and the platform's enable bit (10 R28). -/
  txArmed : Bool
  /-- An arm request not yet delivered (10 R33). -/
  txArmReq : Bool
  /-- `rx_overrun_count` (10 R35). -/
  overrun : Nat
  fgSeq : Seq
  isrSeq : Seq
  plat : Platform
  /-- The capability calls so far, oldest first (43 R200). -/
  trace : List CapCall
  /-- The results returned so far, oldest first (30 R103). -/
  results : List Returned
  ports : Ports
  issue : Issue
  /-- The schedule (10 R40), next turn first. -/
  turns : List Turn
  /-- The index of the next free value (log 3). -/
  freeCount : Nat
  deriving DecidableEq, Repr

/-- Why the machine stops with a fault. -/
inductive Fault where
  /-- `MemRead` or `MemWrite` of cell `i` of ring `r` with `i` outside `0 .. CAP_r - 1`, which does not exist (20 R62,
  R63). Raised by micro-steps P2 and C2; no run from reset reaches it (10 R41). Safe (log 14). -/
  | noSuchCell (r : RingId) (i : Nat)
  deriving DecidableEq, Repr

/-- Why there is no next state. -/
inductive Refusal where
  /-- Raised by `exec` for an instruction that has no meaning yet (no arm does). Safe. -/
  | notModelled (mnemonic : String)
  /-- Raised by `construct` for parameters outside their ranges (93 U10). Safe. -/
  | illegalParameters (c : Config)
  deriving DecidableEq, Repr

/-! ## Reset (10 R45, 70 R261) -/

/-- An empty ring, no cell with a value (10 R45, 70 R263). -/
def Ring.reset : Ring where
  readIndex := 0
  writeIndex := 0
  rdSeen := 0
  wrSeen := 0
  storage := []

/-- The reference platform at reset (10 R45, 70 R265). -/
def Platform.reset : Platform where
  txFifo := []
  rxFifo := []
  txFlag := false
  rxFlag := false
  rxOvfFlag := false
  lineOut := []
  lineIn := []
  freeReports := []
  occReports := []

/-- No command waits (log 7). -/
def Ports.reset : Ports where
  app := []
  evt := []
  ring := []
  cap := []
  assembly := none

/-- The state after construction with the parameters `c` (10 R45, 70 R261). -/
def State.resetWith (c : Config) : State where
  cfg := c
  rx := Ring.reset
  tx := Ring.reset
  txArmed := false
  txArmReq := false
  overrun := 0
  fgSeq := .idle
  isrSeq := .idle
  plat := Platform.reset
  trace := []
  results := []
  ports := Ports.reset
  issue := ⟨.app, .fg, .whole⟩
  turns := []
  freeCount := 0

/-- The state after reset with the default parameters (log 1). -/
def State.reset : State := State.resetWith Config.default

/-! ## Named reads and updates -/

/-- A ring of the state. -/
def State.ring (s : State) : RingId → Ring
  | .rx => s.rx
  | .tx => s.tx

/-- The capacity of a ring, `CAP_r` (00 R7). -/
def State.cap (s : State) : RingId → Nat
  | .rx => s.cfg.rxCap
  | .tx => s.cfg.txCap

/-- A sequencer of the state. -/
def State.seq (s : State) : Side → Seq
  | .fg => s.fgSeq
  | .isr => s.isrSeq

def State.setRing (s : State) (r : RingId) (x : Ring) : State :=
  match r with
  | .rx => { s with rx := x }
  | .tx => { s with tx := x }

def State.setSeq (s : State) (d : Side) (q : Seq) : State :=
  match d with
  | .fg => { s with fgSeq := q }
  | .isr => { s with isrSeq := q }

def State.setArmed (s : State) (v : Bool) : State := { s with txArmed := v }

def State.setArmReq (s : State) (v : Bool) : State := { s with txArmReq := v }

def State.setOverrun (s : State) (n : Nat) : State := { s with overrun := n }

def State.setPlat (s : State) (p : Platform) : State := { s with plat := p }

def State.setPorts (s : State) (p : Ports) : State := { s with ports := p }

def State.setIssue (s : State) (x : Issue) : State := { s with issue := x }

def State.setTurns (s : State) (l : List Turn) : State := { s with turns := l }

def State.setFreeCount (s : State) (n : Nat) : State := { s with freeCount := n }

/-- A capability call joins the trace (43 R200). -/
def State.emit (s : State) (c : CapCall) : State := { s with trace := s.trace ++ [c] }

/-- An operation returns its result to an agent (30 R103). -/
def State.ret (s : State) (a : Agent) (st : Status) (v : Value) : State :=
  { s with results := s.results ++ [⟨a, st, v⟩] }

/-- The words waiting on a port. -/
def Ports.queue (p : Ports) : Port → List Word
  | .app => p.app
  | .evt => p.evt
  | .ring => p.ring
  | .cap => p.cap

def Ports.setQueue (p : Ports) (x : Port) (ws : List Word) : Ports :=
  match x with
  | .app => { p with app := ws }
  | .evt => { p with evt := ws }
  | .ring => { p with ring := ws }
  | .cap => { p with cap := ws }

end Sys2Proof.Machine
end

