-- ==== Sys2Proof/Machine/Ops.lean ====
section
/-! DEFINITION. The shared operations: index arithmetic (40_ring_ops.md R120 to R123), storage access (20_memory.md
R60 to R63), the index registers' writes (40 R125, R128), entering and leaving a handler (60_exceptions.md R236 to
R239), construction (70 R260). -/

namespace Sys2Proof.Machine

/-! ## Index arithmetic (40 R120 to R123): natural numbers, so every intermediate is exact (40 R121) -/

/-- `inc(i) = (i + 1) mod CAP` (40 R120). -/
def inc (cap i : Nat) : Nat := (i + 1) % cap

/-- `dist(a, b) = (a + CAP - b) mod CAP` (40 R120). -/
def dist (cap a b : Nat) : Nat := (a + cap - b) % cap

/-- `dec(i) = (i + CAP - 1) mod CAP`, the roll-back arithmetic (40 R123). -/
def dec (cap i : Nat) : Nat := (i + cap - 1) % cap

/-! ## Storage (20 R60 to R63) -/

/-- The value of a cell, `none` where nothing has been written (70 R263). -/
def Memory.read : Memory → Nat → Option Byte
  | [], _ => none
  | (j, b) :: m, i => if j = i then some b else if i < j then none else Memory.read m i

/-- A cell write; the cell numbers stay strictly rising. -/
def Memory.write : Memory → Nat → Byte → Memory
  | [], i, b => [(i, b)]
  | (j, c) :: m, i, b =>
    if i < j then (i, b) :: (j, c) :: m else if i = j then (i, b) :: m else (j, c) :: Memory.write m i b

/-- The canonical form: cell numbers strictly rising. (No listed cell can equal an unlisted one, which has no value.) -/
def Memory.wf : Memory → Bool
  | [] => true
  | [_] => true
  | (i, _) :: (j, b) :: m => decide (i < j) && Memory.wf ((j, b) :: m)

/-- The value of cell `i` of ring `r`. -/
def State.cell (s : State) (r : RingId) (i : Nat) : Option Byte := (s.ring r).storage.read i

/-- `MemWrite(r, i, 1, b)`, "defined only for `0 ≤ i < CAP_r`" (20 R62). -/
def memWrite (r : RingId) (i : Nat) (b : Byte) (s : State) : Except Fault State :=
  if i < s.cap r then .ok (s.setRing r { s.ring r with storage := (s.ring r).storage.write i b })
  else .error (.noSuchCell r i)

/-- `MemRead(r, i, 1)` (20 R63): no state change but for the index of the next free value, when the cell was never
written and the byte is unspecified (log 2). -/
def memRead (r : RingId) (i : Nat) (s : State) : Except Fault (Byte × State) :=
  if i < s.cap r then
    match s.cell r i with
    | some b => .ok (b, s)
    | none => .ok (Config.freeByte s.freeCount, s.setFreeCount (s.freeCount + 1))
  else .error (.noSuchCell r i)

/-! ## The index registers' writes -/

/-- Micro-step P3's write; without lag it writes the view copy too (40 R125, 20 R75). -/
def setWriteIndex (r : RingId) (v : Nat) (s : State) : State :=
  let x := s.ring r
  s.setRing r { x with writeIndex := v, wrSeen := if s.cfg.syncLag then x.wrSeen else v }

/-- Micro-step C3's write; without lag it writes the view copy too (40 R128, 20 R75). -/
def setReadIndex (r : RingId) (v : Nat) (s : State) : State :=
  let x := s.ring r
  s.setRing r { x with readIndex := v, rdSeen := if s.cfg.syncLag then x.rdSeen else v }

/-! ## Entering and leaving a handler (the block's only control transfer, 60 R236) -/

/-- The entry of the fixed dispatch table (60 R233), at the handler's first label. DESIGN CHOICE (log 25): the handler's
locals are 0 until X0 or Y0 assigns them, where the spec gives them no value (10 R37); no step reads them before. -/
def handlerTask : Source → Task
  | .txReady => .onTxReady 0 0 .x0
  | .rxReady => .onRxReady 0 0 .y0

/-- Taking an interrupt: "only `isr_seq`" changes (60 R238); nothing is saved (60 R236). -/
def enterHandler (src : Source) (s : State) : State := s.setSeq .isr (.busy (handlerTask src))

/-- Returning from an interrupt: `isr_seq <- IDLE`; nothing is restored (60 R239). -/
def leaveHandler (s : State) : State := s.setSeq .isr .idle

/-! ## Construction (70 R260) -/

/-- Construction refuses parameters outside their ranges (93 U10, D5). -/
def construct (c : Config) : Host.Outcome State Fault Refusal :=
  if c.Valid then .next (State.resetWith c) else .refused (.illegalParameters c)

end Sys2Proof.Machine
end

