-- ==== Sys2Proof/Machine/Operands.lean ====
section
/-! DEFINITION. Operand forms: which side of a ring an agent is on and what it sees from there (10_state.md R22,
40_ring_ops.md R129), which agent may issue which operation on which port (30_encoding.md R90, R102,
60_exceptions.md R242), and whether it may start one now (20_memory.md R82, 60 R234). -/

namespace Sys2Proof.Machine

/-! ## Sides and views -/

/-- The one agent that advances `write_index` (10 R22). -/
def producer : RingId → Agent
  | .tx => .fg
  | .rx => .isrRx

/-- The one agent that advances `read_index` (10 R22). -/
def consumer : RingId → Agent
  | .tx => .isrTx
  | .rx => .fg

/-- The producer's length, from its own index and its view of the other (40 R129). -/
def producerLen (r : RingId) (s : State) : Nat := dist (s.cap r) (s.ring r).writeIndex (s.ring r).rdSeen

/-- The consumer's length (40 R129). -/
def consumerLen (r : RingId) (s : State) : Nat := dist (s.cap r) (s.ring r).wrSeen (s.ring r).readIndex

/-- `true_len(r)` (10 R30). -/
def trueLen (r : RingId) (s : State) : Nat := dist (s.cap r) (s.ring r).writeIndex (s.ring r).readIndex

/-- `LEN r` as the calling agent gets it (40 R129, L1). -/
def callerLen (r : RingId) (a : Agent) (s : State) : Nat := if a = producer r then producerLen r s else consumerLen r s

/-- The abstract queue of a ring: its live cells, oldest first (10 R43). -/
def liveCells (r : RingId) (s : State) : List (Option Byte) :=
  (List.range (trueLen r s)).map fun j => s.cell r (((s.ring r).readIndex + j) % s.cap r)

/-! ## Contexts -/

/-- The table of 60 R242, with the dispatcher as the issuer of the interrupt operations (30 R90) and SYNC as the caller
of the arm under lag (43 R194) (log 13). A payload word goes with its SUBMIT. -/
def mayIssue (lag : Bool) (a : Agent) : Instr → Bool
  | .submit _ => a == .fg
  | .tryReceive => a == .fg
  | .drainReceived => a == .fg
  | .onTxReady => a == .plat || a == .isrTx
  | .onRxReady => a == .plat || a == .isrRx
  | .push r _ => a == producer r
  | .pop r => a == consumer r
  | .len r => a == producer r || a == consumer r
  | .isEmpty r => a == producer r || a == consumer r
  | .isFull r => a == producer r || a == consumer r
  | .hwTxFifoFreeSlots => a == .isrTx
  | .hwTxFifoWrite _ => a == .isrTx
  | .hwRxFifoOccupancy => a == .isrRx
  | .hwRxFifoRead => a == .isrRx
  | .hwSetTxInterruptEnabled e => if e then a == .fg || (a == .sync && lag) else a == .isrTx
  | .hwClearTxInterruptFlag => a == .isrTx
  | .hwClearRxInterruptFlag => a == .isrRx
  | .hwClearRxOverflowFlag => a == .isrRx
  | .submitPayload _ => a == .fg

/-- A command passes the port and context check (30 R102, 60 R243). -/
def permitted (i : Instr) (s : State) : Bool :=
  i.mnemonic.port == s.issue.port && mayIssue s.cfg.syncLag s.issue.agent i

/-- An agent may start an operation now: its sequencer is idle (20 R82, D32; 60 R234 item 3), and FG steps only while
no handler runs (60 R234 item 1). SYNC has no sequencer and is never blocked (60 R234 item 5), but has steps only under
lag (00 R12). -/
def ready (a : Agent) (s : State) : Bool :=
  match a with
  | .fg => s.fgSeq == .idle && s.isrSeq == .idle
  | .isrTx => s.isrSeq == .idle
  | .isrRx => s.isrSeq == .idle
  | .plat => s.isrSeq == .idle
  | .sync => s.cfg.syncLag

/-- The agent that runs an operation in progress (60 R242). -/
def taskAgent : Task → Agent
  | .submit _ _ _ => .fg
  | .tryReceive _ => .fg
  | .drainReceived _ _ => .fg
  | .push r _ _ => producer r
  | .pop r _ => consumer r
  | .onTxReady _ _ _ => .isrTx
  | .onRxReady _ _ _ => .isrRx

/-- The sequencer an operation runs in (10 R36). -/
def taskSide (t : Task) : Side := if taskAgent t = .fg then .fg else .isr

end Sys2Proof.Machine
end

