-- ==== Sys2Proof/Machine/Flags.lean ====
section
/-! DEFINITION. Every flag and the counter: the arm/disarm FSM of `tx_armed` (42_interrupt_ops.md R170 to R173), the
platform's three flags and the interrupt requests (43_capability_ops.md R207 to R211), `rx_overrun_count`
(42 R175), and the status codes (60_exceptions.md R221). -/

namespace Sys2Proof.Machine

/-- The status codes (60 R221). -/
def statusCode : Status → Nat
  | .ok => 0
  | .overflow => 1
  | .empty => 2
  | .rxOverrun => 3
  | .illegal => 4
  | .context => 5

/-! ## tx_armed -/

/-- `hw_set_tx_interrupt_enabled(e)`: the flag write and the call are one micro-step (43 R194, 10 R28). -/
def setTxInterrupt (e : Bool) (s : State) : State := (s.setArmed e).emit (.setEnabled e)

/-- `ARM_TX` (42 R170): a blind set; under lag a request that SY_TXW delivers. -/
def armTx (s : State) : State := if s.cfg.syncLag then s.setArmReq true else setTxInterrupt true s

/-- The interrupt side sees the TX ring empty (42 R171). -/
def txSeenEmpty (s : State) : Bool := s.tx.wrSeen == s.tx.readIndex

/-- `DISARM_TX` (42 R171): the test and the clear are one micro-step. -/
def disarmTx (s : State) : State := if txSeenEmpty s then setTxInterrupt false s else s

/-! ## The platform's flags -/

/-- The transmit-ready condition, a level (43 R207). -/
def txCondition (s : State) : Bool := decide (s.plat.txFifo.length ≤ s.cfg.txLevel)

/-- The receive-ready condition, a level (43 R209). -/
def rxCondition (s : State) : Bool := decide (s.cfg.rxLevel ≤ s.plat.rxFifo.length)

/-- The platform requests a handler (43 R211, 60 R229, R232): TX-ready is masked by `tx_armed`, RX-ready never. -/
def requested (src : Source) (s : State) : Bool :=
  match src with
  | .txReady => s.plat.txFlag && s.txArmed
  | .rxReady => s.plat.rxFlag

/-! ## rx_overrun_count -/

/-- `sat_inc` (42 R175). -/
def satInc (c : Config) (n : Nat) : Nat := if n < c.overrunMax then n + 1 else n

/-- One dropped byte is counted (42 R175, 60 R224). -/
def countOverrun (s : State) : State := s.setOverrun (satInc s.cfg s.overrun)

end Sys2Proof.Machine
end

