-- ==== Sys2Proof/Machine/Capability.lean ====
section
/-! DEFINITION. The eight capability operations as the reference platform executes them (43_capability_ops.md R190 to
R197), each one micro-step that joins the trace (43 R200). -/

namespace Sys2Proof.Machine

/-- What `hw_tx_fifo_free_slots` answers: `FIFO_TX_CAP - |tx_fifo|` (43 R190), or what an untruthful platform reports
(43 R198). -/
def freeAnswer (s : State) : Nat :=
  match s.plat.freeReports with
  | [] => s.cfg.fifoTxCap - s.plat.txFifo.length
  | n :: _ => n

/-- `hw_tx_fifo_free_slots` (43 R190): the answer is `freeAnswer`. -/
def callFreeSlots (s : State) : State :=
  (s.setPlat { s.plat with freeReports := s.plat.freeReports.tail }).emit (.freeSlots (freeAnswer s))

/-- `hw_tx_fifo_write(b)` (43 R191): a full FIFO loses the byte (D23). -/
def callTxWrite (b : Byte) (s : State) : State :=
  (if s.plat.txFifo.length < s.cfg.fifoTxCap then s.setPlat { s.plat with txFifo := s.plat.txFifo ++ [b] } else s).emit
    (.write b)

/-- What `hw_rx_fifo_occupancy` answers: `|rx_fifo|` (43 R192), or what an untruthful platform reports (43 R198). -/
def occAnswer (s : State) : Nat :=
  match s.plat.occReports with
  | [] => s.plat.rxFifo.length
  | n :: _ => n

/-- `hw_rx_fifo_occupancy` (43 R192): the answer is `occAnswer`. -/
def callOccupancy (s : State) : State :=
  (s.setPlat { s.plat with occReports := s.plat.occReports.tail }).emit (.occupancy (occAnswer s))

/-- What `hw_rx_fifo_read` answers: the oldest byte, or any byte if there is none (43 R193, D22; a free value, log 3). -/
def readAnswer (s : State) : Byte :=
  match s.plat.rxFifo with
  | [] => Config.freeByte s.freeCount
  | b :: _ => b

/-- `hw_rx_fifo_read` (43 R193): the answer is `readAnswer`; the byte is consumed. -/
def callRxRead (s : State) : State :=
  (match s.plat.rxFifo with
    | [] => s.setFreeCount (s.freeCount + 1)
    | _ :: t => s.setPlat { s.plat with rxFifo := t }).emit (.read (readAnswer s))

/-- `hw_clear_tx_interrupt_flag` (43 R195). -/
def callClearTxFlag (s : State) : State := (s.setPlat { s.plat with txFlag := false }).emit .clearTxFlag

/-- `hw_clear_rx_interrupt_flag` (43 R196). -/
def callClearRxFlag (s : State) : State := (s.setPlat { s.plat with rxFlag := false }).emit .clearRxFlag

/-- `hw_clear_rx_overflow_flag` (43 R197). -/
def callClearRxOvf (s : State) : State := (s.setPlat { s.plat with rxOvfFlag := false }).emit .clearRxOvf

end Sys2Proof.Machine
end

