-- ==== Sys2Proof/Machine/Micro.lean ====
section
/-! DEFINITION. The micro-steps: one atomic step of each operation in progress, as the pseudocode of 40_ring_ops.md,
41_foreground_ops.md and 42_interrupt_ops.md lists them, and a run of one sequencer's micro-steps. -/

namespace Sys2Proof.Machine

/-! ## PUSH and POP (40 R124, R127) -/

/-- What a micro-step of `PUSH` leads to. -/
inductive PushNext where
  | more (p : PushStage)
  | overflow
  | accepted
  deriving DecidableEq, Repr

/-- One micro-step of `PUSH r, b` (40 R124). -/
def pushStep (r : RingId) (b : Byte) (p : PushStage) (s : State) : Except Fault (PushNext × State) :=
  match p with
  | .p1 =>
    let x := s.ring r
    let nx := inc (s.cap r) x.writeIndex
    if nx = x.rdSeen then .ok (.overflow, s) else .ok (.more (.p2 ⟨x.writeIndex, x.rdSeen, nx⟩), s)
  | .p2 l =>
    match memWrite r l.wi b s with
    | .ok t => .ok (.more (.p3 l), t)
    | .error e => .error e
  | .p3 l => .ok (.accepted, setWriteIndex r l.nx s)

/-- What a micro-step of `POP` leads to. -/
inductive PopNext where
  | more (p : PopStage)
  | empty
  | took (b : Byte)
  deriving DecidableEq, Repr

/-- One micro-step of `POP r` (40 R127). -/
def popStep (r : RingId) (p : PopStage) (s : State) : Except Fault (PopNext × State) :=
  match p with
  | .c1 =>
    let x := s.ring r
    if x.wrSeen = x.readIndex then .ok (.empty, s) else .ok (.more (.c2 ⟨x.readIndex, x.wrSeen⟩), s)
  | .c2 l =>
    match memRead r l.ri s with
    | .ok (b, t) => .ok (.more (.c3 l b), t)
    | .error e => .error e
  | .c3 l b => .ok (.took b, setReadIndex r (inc (s.cap r) l.ri) s)

/-! ## The driver's operations -/

/-- Where S1 goes with `k` bytes accepted: on to the next push, or to S2 (41 R140). -/
def submitRound (bytes : List Byte) (k : Nat) : Task :=
  .submit bytes k (if k < bytes.length then .s1 .p1 else .s2)

/-- One micro-step of `SUBMIT` (41 R140, R141). -/
def submitStep (bytes : List Byte) (k : Nat) (stage : SubmitStage) (s : State) : Except Fault (Seq × State) :=
  match stage with
  | .s1 p =>
    match bytes[k]? with
    | none => .ok (.busy (.submit bytes k .s2), s)
    | some b =>
      match pushStep .tx b p s with
      | .error e => .error e
      | .ok (.more p', t) => .ok (.busy (.submit bytes k (.s1 p')), t)
      | .ok (.overflow, t) => .ok (.busy (.submit bytes k .s2), t)
      | .ok (.accepted, t) => .ok (.busy (submitRound bytes (k + 1)), t)
  | .s2 => .ok (.idle, (if 1 ≤ k then armTx s else s).ret .fg .ok (.nat k))

/-- One micro-step of `TRY_RECEIVE` (41 R145). -/
def tryReceiveStep (stage : PopStage) (s : State) : Except Fault (Seq × State) :=
  match popStep .rx stage s with
  | .error e => .error e
  | .ok (.more p, t) => .ok (.busy (.tryReceive p), t)
  | .ok (.empty, t) => .ok (.idle, t.ret .fg .empty .none)
  | .ok (.took b, t) => .ok (.idle, t.ret .fg .ok (.byte b))

/-- One micro-step of `DRAIN_RECEIVED` (41 R147). -/
def drainReceivedStep (out : List Byte) (stage : PopStage) (s : State) : Except Fault (Seq × State) :=
  match popStep .rx stage s with
  | .error e => .error e
  | .ok (.more p, t) => .ok (.busy (.drainReceived out p), t)
  | .ok (.empty, t) => .ok (.idle, t.ret .fg .ok (.bytes out))
  | .ok (.took b, t) => .ok (.busy (.drainReceived (out ++ [b]) .c1), t)

/-- One micro-step of a `PUSH` issued on the RING port (40 R124). -/
def directPushStep (r : RingId) (b : Byte) (stage : PushStage) (s : State) : Except Fault (Seq × State) :=
  match pushStep r b stage s with
  | .error e => .error e
  | .ok (.more p, t) => .ok (.busy (.push r b p), t)
  | .ok (.overflow, t) => .ok (.idle, t.ret (producer r) .overflow .none)
  | .ok (.accepted, t) => .ok (.idle, t.ret (producer r) .ok .none)

/-- One micro-step of a `POP` issued on the RING port (40 R127). -/
def directPopStep (r : RingId) (stage : PopStage) (s : State) : Except Fault (Seq × State) :=
  match popStep r stage s with
  | .error e => .error e
  | .ok (.more p, t) => .ok (.busy (.pop r p), t)
  | .ok (.empty, t) => .ok (.idle, t.ret (consumer r) .empty .none)
  | .ok (.took b, t) => .ok (.idle, t.ret (consumer r) .ok (.byte b))

/-- One micro-step of `ON_TX_READY` (42 R160): the budget is read once, at X0 (R161); emptiness is tested before the
budget (R162); the acknowledge comes last, on both exit paths (R164). -/
def onTxReadyStep (free sent : Nat) (stage : TxStage) (s : State) : Except Fault (Seq × State) :=
  match stage with
  | .x0 => .ok (.busy (.onTxReady (freeAnswer s) 0 .x1), callFreeSlots s)
  | .x1 =>
    if txSeenEmpty s then .ok (.busy (.onTxReady free sent .x4), disarmTx s)
    else if sent = free then .ok (.busy (.onTxReady free sent .x4), s)
    else .ok (.busy (.onTxReady free sent (.x3 .c1)), s)
  | .x3 p =>
    match popStep .tx p s with
    | .error e => .error e
    | .ok (.more p', t) => .ok (.busy (.onTxReady free sent (.x3 p')), t)
    | .ok (.empty, t) => .ok (.busy (.onTxReady free sent .x1), t)
    | .ok (.took b, t) => .ok (.busy (.onTxReady free sent (.x3w b)), t)
  | .x3w b => .ok (.busy (.onTxReady free (sent + 1) .x1), callTxWrite b s)
  | .x4 => .ok (.busy (.onTxReady free sent .x5), callClearTxFlag s)
  | .x5 => .ok (.idle, leaveHandler (s.ret .isrTx .ok .none))

/-- Y1 with `i` bytes done: on to the next read, or to Y4 (42 R174). -/
def rxRound (n i : Nat) : Task := .onRxReady n i (if i = n then .y4 else .y2)

/-- One micro-step of `ON_RX_READY` (42 R174): the occupancy is read once, at Y0 (R176); a rejected push is counted in
the micro-step that rejects it (R175); the two acknowledges come last, in this order (R177). -/
def onRxReadyStep (n i : Nat) (stage : RxStage) (s : State) : Except Fault (Seq × State) :=
  match stage with
  | .y0 => .ok (.busy (rxRound (occAnswer s) 0), callOccupancy s)
  | .y2 => .ok (.busy (.onRxReady n i (.y3 (readAnswer s) .p1)), callRxRead s)
  | .y3 b p =>
    match pushStep .rx b p s with
    | .error e => .error e
    | .ok (.more p', t) => .ok (.busy (.onRxReady n i (.y3 b p')), t)
    | .ok (.overflow, t) => .ok (.busy (rxRound n (i + 1)), countOverrun t)
    | .ok (.accepted, t) => .ok (.busy (rxRound n (i + 1)), t)
  | .y4 => .ok (.busy (.onRxReady n i .y5), callClearRxOvf s)
  | .y5 => .ok (.busy (.onRxReady n i .y6), callClearRxFlag s)
  | .y6 => .ok (.idle, leaveHandler (s.ret .isrRx .ok .none))

/-! ## The sequencers (10 R36) -/

/-- One micro-step of an operation in progress: the sequencer's new content and the state. -/
def taskStep (t : Task) (s : State) : Except Fault (Seq × State) :=
  match t with
  | .submit bytes k stage => submitStep bytes k stage s
  | .tryReceive stage => tryReceiveStep stage s
  | .drainReceived out stage => drainReceivedStep out stage s
  | .push r b stage => directPushStep r b stage s
  | .pop r stage => directPopStep r stage s
  | .onTxReady free sent stage => onTxReadyStep free sent stage s
  | .onRxReady n i stage => onRxReadyStep n i stage s

/-- One micro-step of a sequencer; an idle one has none. -/
def microStep (d : Side) (s : State) : Except Fault State :=
  match s.seq d with
  | .idle => .ok s
  | .busy t =>
    match taskStep t s with
    | .ok (q, u) => .ok (u.setSeq d q)
    | .error e => .error e

/-- At most `n` micro-steps of one sequencer, with no other agent between them, until it is idle. -/
def runSeq (d : Side) : Nat → State → Except Fault State
  | 0, s => .ok s
  | n + 1, s =>
    match s.seq d with
    | .idle => .ok s
    | .busy _ =>
      match microStep d s with
      | .ok t => runSeq d n t
      | .error e => .error e

/-! ## Starting an operation -/

/-- A micro-step's answer as an outcome of the machine. -/
def outcome : Except Fault State → Host.Outcome State Fault Refusal
  | .ok s => .next s
  | .error e => .fault e

/-- Enters an operation into its sequencer and, at the grain `whole`, runs it: `fuel` bounds its micro-steps (70 R286).
Should they not suffice, the operation is still in progress in the next state. -/
def launch (t : Task) (fuel : Nat) (s : State) : Host.Outcome State Fault Refusal :=
  let s' := s.setSeq (taskSide t) (.busy t)
  match s.issue.grain with
  | .micro => .next s'
  | .whole => outcome (runSeq (taskSide t) fuel s')

/-- The port and context check (30 R102: "refused with status `CONTEXT` and no state change"), then, if the issuing agent
may not start an operation yet, nothing happens and the command waits (20 R82, log 11), else it runs. -/
def guarded (i : Instr) (s : State) (run : State → Host.Outcome State Fault Refusal) :
    Host.Outcome State Fault Refusal :=
  if permitted i s then
    if ready s.issue.agent s then run s else .next s
  else .next (s.ret s.issue.agent .context .none)

/-- A result returned to the issuing agent. -/
def answer (st : Status) (v : Value) (s : State) : Host.Outcome State Fault Refusal :=
  .next (s.ret s.issue.agent st v)

end Sys2Proof.Machine
end

