-- ==== Sys2Proof/Machine/Foreground.lean ====
section
/-! DEFINITION. The meanings of the foreground operations (41_foreground_ops.md), and of SUBMIT's payload word
(30_encoding.md R94, R97). -/

namespace Sys2Proof.Machine

/-- `SUBMIT bytes` (41 R140): pushes until the first rejection (R141), arms once if a byte was accepted (R142), returns
the count. At most `3n + 1` micro-steps (70 R286). -/
def execSubmit (bytes : List Byte) (s : State) : Host.Outcome State Fault Refusal :=
  guarded (.submit bytes) s (launch (submitRound bytes 0) (3 * bytes.length + 1))

/-- `TRY_RECEIVE` (41 R145): `POP rx`, its result unchanged. -/
def execTryReceive (s : State) : Host.Outcome State Fault Refusal :=
  guarded .tryReceive s (launch (.tryReceive .c1) 3)

/-- `DRAIN_RECEIVED` (41 R147): `POP rx` until EMPTY. A ring of `RX_CAP` cells gives at most `RX_CAP - 1` bytes to a run
with no other agent in it, so `3 * RX_CAP + 1` micro-steps suffice (70 R286). -/
def execDrainReceived (s : State) : Host.Outcome State Fault Refusal :=
  guarded .drainReceived s (launch (.drainReceived [] .c1) (3 * s.cfg.rxCap + 1))

/-- The last payload word of a SUBMIT has arrived: the command is complete. It is refused as a whole with ILLEGAL if a word
of it was malformed (30 R97); else it is the SUBMIT of its bytes, with that operation's context check (60 R227). -/
def finishAssembly (a : Assembly) (s : State) : Host.Outcome State Fault Refusal :=
  let s' := s.setPorts { s.ports with assembly := none }
  if a.bad then answer .illegal .none s'
  else execSubmit a.got s'

/-- One payload word, good (`some b`) or malformed (`none`), joins the unfinished SUBMIT. -/
def joinAssembly (a : Assembly) (w : Option Byte) (s : State) : Host.Outcome State Fault Refusal :=
  let a' : Assembly :=
    match w with
    | some b => { a with left := a.left - 1, got := a.got ++ [b] }
    | none => { a with left := a.left - 1, bad := true }
  if a'.left = 0 then finishAssembly a' s else .next (s.setPorts { s.ports with assembly := some a' })

/-- A payload word (30 R94): one element of the `bytes` of the SUBMIT whose header came before it on APP, which starts with
the last of them (30 R97). Anywhere else it is an illegal header, refused with ILLEGAL (30 R94, R100). DESIGN CHOICE
(log 26): the words of one command come from one agent, so another agent's payload word, like one whose agent may not
start an operation yet (log 11), waits and nothing happens. -/
def execSubmitPayload (b : Byte) (s : State) : Host.Outcome State Fault Refusal :=
  match s.ports.assembly with
  | none => answer .illegal .none s
  | some a =>
    if s.issue.port ≠ .app then answer .illegal .none s
    else if s.issue.agent = a.agent ∧ ready a.agent s = true then joinAssembly a (some b) s
    else .next s

end Sys2Proof.Machine
end

