-- ==== Sys2Proof/Machine/Hardware.lean ====
section
/-! DEFINITION. The meanings of the capability operations (43_capability_ops.md R190 to R197) issued on the CAP port,
each one micro-step. -/

namespace Sys2Proof.Machine

/-- `HW_TX_FIFO_FREE_SLOTS` (43 R190). -/
def execHwTxFifoFreeSlots (s : State) : Host.Outcome State Fault Refusal :=
  guarded .hwTxFifoFreeSlots s fun t => answer .ok (.nat (freeAnswer t)) (callFreeSlots t)

/-- `HW_TX_FIFO_WRITE b` (43 R191). -/
def execHwTxFifoWrite (b : Byte) (s : State) : Host.Outcome State Fault Refusal :=
  guarded (.hwTxFifoWrite b) s fun t => answer .ok .none (callTxWrite b t)

/-- `HW_RX_FIFO_OCCUPANCY` (43 R192). -/
def execHwRxFifoOccupancy (s : State) : Host.Outcome State Fault Refusal :=
  guarded .hwRxFifoOccupancy s fun t => answer .ok (.nat (occAnswer t)) (callOccupancy t)

/-- `HW_RX_FIFO_READ` (43 R193). -/
def execHwRxFifoRead (s : State) : Host.Outcome State Fault Refusal :=
  guarded .hwRxFifoRead s fun t => answer .ok (.byte (readAnswer t)) (callRxRead t)

/-- `HW_SET_TX_INTERRUPT_ENABLED e` (43 R194). -/
def execHwSetTxInterruptEnabled (e : Bool) (s : State) : Host.Outcome State Fault Refusal :=
  guarded (.hwSetTxInterruptEnabled e) s fun t => answer .ok .none (setTxInterrupt e t)

/-- `HW_CLEAR_TX_INTERRUPT_FLAG` (43 R195). -/
def execHwClearTxInterruptFlag (s : State) : Host.Outcome State Fault Refusal :=
  guarded .hwClearTxInterruptFlag s fun t => answer .ok .none (callClearTxFlag t)

/-- `HW_CLEAR_RX_INTERRUPT_FLAG` (43 R196). -/
def execHwClearRxInterruptFlag (s : State) : Host.Outcome State Fault Refusal :=
  guarded .hwClearRxInterruptFlag s fun t => answer .ok .none (callClearRxFlag t)

/-- `HW_CLEAR_RX_OVERFLOW_FLAG` (43 R197). -/
def execHwClearRxOverflowFlag (s : State) : Host.Outcome State Fault Refusal :=
  guarded .hwClearRxOverflowFlag s fun t => answer .ok .none (callClearRxOvf t)

end Sys2Proof.Machine
end

