-- ==== Sys2Proof/Machine/Interrupt.lean ====
section
/-! DEFINITION. The meanings of the interrupt operations (42_interrupt_ops.md) issued on the EVT port, by the
dispatcher or directly. Both are total, whatever the flags say (42 section 0, R166). -/

namespace Sys2Proof.Machine

/-- `ON_TX_READY` (42 R160): drains the TX ring into the hardware FIFO up to the slot budget, disarms if it sees the ring
empty, acknowledges. A run with no other agent in it sends at most `TX_CAP - 1` bytes, so `5 * TX_CAP + 4` micro-steps
suffice (70 R286). -/
def execOnTxReady (s : State) : Host.Outcome State Fault Refusal :=
  guarded .onTxReady s (launch (handlerTask .txReady) (5 * s.cfg.txCap + 4))

/-- `ON_RX_READY` (42 R174): reads the reported number of bytes from the hardware FIFO, stores what fits, drops and
counts the rest, acknowledges: `1 + 4n + 3` micro-steps at most (70 R286). -/
def execOnRxReady (s : State) : Host.Outcome State Fault Refusal :=
  guarded .onRxReady s (launch (handlerTask .rxReady) (4 * occAnswer s + 4))

end Sys2Proof.Machine
end

