-- ==== Sys2Proof/Machine/RingOps.lean ====
section
/-! DEFINITION. The meanings of the ring operations (40_ring_ops.md) issued on the RING port. -/

namespace Sys2Proof.Machine

/-- `PUSH r, b` (40 R124): OVERFLOW and nothing written if the producer sees the ring full, else cell, then index. -/
def execPush (r : RingId) (b : Byte) (s : State) : Host.Outcome State Fault Refusal :=
  guarded (.push r b) s (launch (.push r b .p1) 3)

/-- `POP r` (40 R127): EMPTY if the consumer sees the ring empty, else the oldest byte. -/
def execPop (r : RingId) (s : State) : Host.Outcome State Fault Refusal :=
  guarded (.pop r) s (launch (.pop r .c1) 3)

/-- `LEN r` (40 R129), one micro-step: the length as the calling side sees it. -/
def execLen (r : RingId) (s : State) : Host.Outcome State Fault Refusal :=
  guarded (.len r) s (answer .ok (.nat (callerLen r s.issue.agent s)))

/-- `IS_EMPTY r` (40 R132), one micro-step, on the same view. -/
def execIsEmpty (r : RingId) (s : State) : Host.Outcome State Fault Refusal :=
  guarded (.isEmpty r) s (answer .ok (.bit (callerLen r s.issue.agent s == 0)))

/-- `IS_FULL r` (40 R133), one micro-step, on the same view: full is `CAP - 1` bytes. -/
def execIsFull (r : RingId) (s : State) : Host.Outcome State Fault Refusal :=
  guarded (.isFull r) s (answer .ok (.bit (callerLen r s.issue.agent s == s.cap r - 1)))

end Sys2Proof.Machine
end

