-- ==== Sys2Proof/Machine/Dispatch.lean ====
section
/-! DEFINITION. The meaning of every operation: one arm per constructor of `Instr`. -/

namespace Sys2Proof.Machine

def exec (i : Instr) (s : State) : Host.Outcome State Fault Refusal :=
  match i with
  | .submit bytes => Sys2Proof.Machine.execSubmit bytes s
  | .tryReceive => Sys2Proof.Machine.execTryReceive s
  | .drainReceived => Sys2Proof.Machine.execDrainReceived s
  | .onTxReady => Sys2Proof.Machine.execOnTxReady s
  | .onRxReady => Sys2Proof.Machine.execOnRxReady s
  | .push r b => Sys2Proof.Machine.execPush r b s
  | .pop r => Sys2Proof.Machine.execPop r s
  | .len r => Sys2Proof.Machine.execLen r s
  | .isEmpty r => Sys2Proof.Machine.execIsEmpty r s
  | .isFull r => Sys2Proof.Machine.execIsFull r s
  | .hwTxFifoFreeSlots => Sys2Proof.Machine.execHwTxFifoFreeSlots s
  | .hwTxFifoWrite b => Sys2Proof.Machine.execHwTxFifoWrite b s
  | .hwRxFifoOccupancy => Sys2Proof.Machine.execHwRxFifoOccupancy s
  | .hwRxFifoRead => Sys2Proof.Machine.execHwRxFifoRead s
  | .hwSetTxInterruptEnabled e => Sys2Proof.Machine.execHwSetTxInterruptEnabled e s
  | .hwClearTxInterruptFlag => Sys2Proof.Machine.execHwClearTxInterruptFlag s
  | .hwClearRxInterruptFlag => Sys2Proof.Machine.execHwClearRxInterruptFlag s
  | .hwClearRxOverflowFlag => Sys2Proof.Machine.execHwClearRxOverflowFlag s
  | .submitPayload b => Sys2Proof.Machine.execSubmitPayload b s

end Sys2Proof.Machine
end

