-- ==== Sys2Proof/Machine/Schedule.lean ====
section
/-! DEFINITION. The turns of the schedule (60_exceptions.md R230 to R235): issuing a port's next command
(30_encoding.md R96, R97), a micro-step, a dispatch, a synchroniser step (20_memory.md R73, R74), a platform step
(43_capability_ops.md R206 to R210). -/

namespace Sys2Proof.Machine

/-! ## Issuing a command -/

/-- Takes `n` words from a port. -/
def takeWords (p : Port) (n : Nat) (s : State) : State :=
  s.setPorts (s.ports.setQueue p ((s.ports.queue p).drop n))

/-- What a port does with words that are not a command (30 R97, R100, R102): a refusal is a result and no other change. A
SUBMIT header whose payload has not all arrived opens the command for the agent that issued it, whoever that is: its
words are all taken and their encoding checked before its context is (30 R97, 60 R227). -/
def rejectCommand (p : Port) (e : DecodeError) (s : State) : Host.Outcome State Fault Refusal :=
  let t := takeWords p e.consumed s
  match e with
  | .noWord => .next s
  | .payloadMissing n => .next (t.setPorts { t.ports with assembly := some ⟨s.issue.agent, n, [], false⟩ })
  | .wrongPort => answer .context .none t
  | .reservedOp => answer .illegal .none t
  | .reservedFunction => answer .illegal .none t
  | .nonZeroField => answer .illegal .none t
  | .badPayload _ => answer .illegal .none t

/-- APP's next word while a SUBMIT's payload is arriving: it is decoded as a payload word, and one that is malformed counts
as a word of the command all the same (30 R96, R97). -/
def payloadCommand (a : Assembly) (s : State) : Host.Outcome State Fault Refusal :=
  match s.ports.app with
  | [] => .next s
  | w :: _ =>
    let t := takeWords .app 1 s
    match decodePayloadWord w with
    | some b => exec (.submitPayload b) t
    | none => joinAssembly a none t

/-- An agent may issue the next command of a port: it may start an operation now (20 R82, 60 R234), and on APP no other
agent's SUBMIT is unfinished. DESIGN CHOICE (log 11, log 26): until then the words wait on the port, whatever they are. -/
def commandEnabled (p : Port) (a : Agent) (s : State) : Bool :=
  ready a s &&
    match p, s.ports.assembly with
    | .app, some asm => a == asm.agent
    | _, _ => true

/-- The agent issues the port's next command: the next word of its unfinished SUBMIT, or what the port's words decode to.
A command the agent is forbidden is taken whole, its payload with it, and refused by its own check (30 R97, 60 R243). -/
def runCommand (p : Port) (a : Agent) (g : Grain) (s : State) : Host.Outcome State Fault Refusal :=
  if commandEnabled p a s then
    let t := s.setIssue ⟨p, a, g⟩
    match p, s.ports.assembly with
    | .app, some asm => payloadCommand asm t
    | _, _ =>
      match decodeCommand p (s.ports.queue p) with
      | .ok (i, rest) => exec i (t.setPorts (t.ports.setQueue p rest))
      | .error e => rejectCommand p e t
  else .next s

/-! ## The synchroniser (20 R73 to R76) -/

/-- When a synchroniser step is enabled (20 R73); without lag there is none (20 R75). -/
def syncEnabled (x : SyncStep) (s : State) : Bool :=
  s.cfg.syncLag &&
    match x with
    | .txw => s.tx.wrSeen != s.tx.writeIndex || s.txArmReq
    | .txr => s.tx.rdSeen != s.tx.readIndex
    | .rxw => s.rx.wrSeen != s.rx.writeIndex
    | .rxr => s.rx.rdSeen != s.rx.readIndex

/-- A synchroniser step copies the whole current index (20 R73); SY_TXW also delivers the arm request (20 R74). -/
def syncStep (x : SyncStep) (s : State) : State :=
  match x with
  | .txw =>
    let t := s.setRing .tx { s.tx with wrSeen := s.tx.writeIndex }
    if t.txArmReq then (setTxInterrupt true t).setArmReq false else t
  | .txr => s.setRing .tx { s.tx with rdSeen := s.tx.readIndex }
  | .rxw => s.setRing .rx { s.rx with wrSeen := s.rx.writeIndex }
  | .rxr => s.setRing .rx { s.rx with rdSeen := s.rx.readIndex }

/-! ## The platform (43 R206 to R210) -/

/-- When a platform step is enabled. -/
def platEnabled (x : PlatStep) (s : State) : Bool :=
  match x with
  | .txShift => s.plat.txFifo != []
  | .txFlag => txCondition s && !s.plat.txFlag
  | .rxArrive => s.plat.lineIn != []
  | .rxFlag => rxCondition s && !s.plat.rxFlag

/-- A platform step. -/
def platStep (x : PlatStep) (s : State) : State :=
  let p := s.plat
  match x with
  | .txShift =>
    match p.txFifo with
    | [] => s
    | h :: t => s.setPlat { p with txFifo := t, lineOut := p.lineOut ++ [h] }
  | .txFlag => s.setPlat { p with txFlag := true }
  | .rxArrive =>
    match p.lineIn with
    | [] => s
    | h :: t =>
      if p.rxFifo.length < s.cfg.fifoRxCap then s.setPlat { p with lineIn := t, rxFifo := p.rxFifo ++ [h] }
      else s.setPlat { p with lineIn := t, rxOvfFlag := true }
  | .rxFlag => s.setPlat { p with rxFlag := true }

/-! ## Turns (60 R234) -/

/-- When a handler may be dispatched: it is requested and no handler runs (60 R230, R231). -/
def dispatchEnabled (src : Source) (s : State) : Bool := requested src s && s.isrSeq == .idle

/-- When a sequencer may take a micro-step: it is busy, and FG only while no handler runs (60 R234 item 1). -/
def microEnabled (d : Side) (s : State) : Bool :=
  match d with
  | .fg => s.fgSeq != .idle && s.isrSeq == .idle
  | .isr => s.isrSeq != .idle

/-- The outside world puts command words behind those that wait on a port (30 R90). -/
def postWords (p : Port) (ws : List Word) (s : State) : State :=
  s.setPorts (s.ports.setQueue p (s.ports.queue p ++ ws))

/-- The outside world puts bytes behind those still to arrive (10 R39, 43 R208). -/
def feedLine (bytes : List Byte) (s : State) : State := s.setPlat { s.plat with lineIn := s.plat.lineIn ++ bytes }

/-- One turn; a turn that is not enabled is no step of the machine, and nothing happens (log 4). -/
def runTurn (t : Turn) (s : State) : Host.Outcome State Fault Refusal :=
  match t with
  | .command p a g => runCommand p a g s
  | .micro d => if microEnabled d s then outcome (microStep d s) else .next s
  | .dispatch src => .next (if dispatchEnabled src s then enterHandler src s else s)
  | .sync x => .next (if syncEnabled x s then syncStep x s else s)
  | .plat x => .next (if platEnabled x s then platStep x s else s)
  | .post p ws => .next (postWords p ws s)
  | .feed bytes => .next (feedLine bytes s)
  | .idle => .next s

/-- The turn taken when the schedule has no entry left (log 4): what is in progress goes on, a handler first; else the
next inbound command is issued as a whole, APP's first, by FG or by the agent whose SUBMIT is unfinished there; else the
block is idle (70 R262). -/
def defaultTurn (s : State) : Turn :=
  if s.isrSeq ≠ .idle then .micro .isr
  else if s.fgSeq ≠ .idle then .micro .fg
  else if s.ports.app ≠ [] then .command .app ((s.ports.assembly.map Assembly.agent).getD .fg) .whole
  else if s.ports.evt ≠ [] then .command .evt .plat .whole
  else .idle

/-- The schedule's next turn, taken off it. -/
def nextTurn (s : State) : Turn × State :=
  match s.turns with
  | [] => (defaultTurn s, s)
  | t :: ts => (t, s.setTurns ts)

end Sys2Proof.Machine
end

