-- ==== Sys2Proof/Machine/Fetch.lean ====
section
/-! DEFINITION. Placing a command where the next step issues it (log 6). -/

namespace Sys2Proof.Machine

/-- An agent that 60_exceptions.md R242 lets issue the command whose header is `w`, on the port that carries it; a word
that no header row selects goes to APP as a payload word. -/
def issueOf (w : Word) : Port × Agent :=
  match findRow w with
  | none => (.app, .fg)
  | some q =>
    (q.op.port,
      match q.op with
      | .submit => .fg
      | .tryReceive => .fg
      | .drainReceived => .fg
      | .onTxReady => .plat
      | .onRxReady => .plat
      | .push => producer (ringField w)
      | .pop => consumer (ringField w)
      | .len => .fg
      | .isEmpty => .fg
      | .isFull => .fg
      | .hwTxFifoFreeSlots => .isrTx
      | .hwTxFifoWrite => .isrTx
      | .hwRxFifoOccupancy => .isrRx
      | .hwRxFifoRead => .isrRx
      | .hwSetTxInterruptEnabled => if enableField w then .fg else .isrTx
      | .hwClearTxInterruptFlag => .isrTx
      | .hwClearRxInterruptFlag => .isrRx
      | .hwClearRxOverflowFlag => .isrRx
      | .submitPayload => .fg)

/-- The command's words at the head of its port, the sequencers idle, APP waiting for one payload word exactly if the
first word is one, and the turn that issues the command as a whole at the head of the schedule. -/
def placeCommand (ws : List Word) (s : State) : State :=
  let w := ws.headD 0
  let x := issueOf w
  let asm : Option Assembly := if (findRow w).isNone then some ⟨.fg, 1, [], false⟩ else none
  let p := { s.ports with assembly := asm }
  let t := (((s.setSeq .fg .idle).setSeq .isr .idle).setPorts (p.setQueue x.1 (ws ++ p.queue x.1)))
  t.setTurns (.command x.1 x.2 .whole :: s.turns)

end Sys2Proof.Machine
end

