-- ==== Sys2Proof/Machine/Step.lean ====
section
/-! DEFINITION. One step of the machine: the schedule's next turn (00_scope.md R12, 60_exceptions.md R234). -/

namespace Sys2Proof.Machine

/-- One step: the next turn of the schedule is taken. -/
def step (s : State) : Host.Outcome State Fault Refusal :=
  let n := nextTurn s
  runTurn n.1 n.2

/-- The state with the instruction whose bits are `w` (numbered as spec/opcode_table.json numbers them, the bits from
`nbits` up zero) placed where the next step issues its command (log 6). -/
def State.withFetchWord (s : State) (nbits w : Nat) : State := placeCommand (tableWords nbits w) s

end Sys2Proof.Machine
end

