-- ==== Sys2Proof/Machine/Pseudo.lean ====
section
/-! DEFINITION. The pseudo-operations (30_encoding.md R106): names for sequences of operations, no rows of the table. -/

namespace Sys2Proof.Machine

/-- The pseudo-operations (30 R106). -/
inductive Pseudo where
  | arm
  | disarm
  | submitLong (bytes : List Byte)
  | ackTx
  | ackRx
  deriving DecidableEq, Repr

/-- `bytes` cut into pieces of at most `n`, in order; `fuel` bounds the pieces. -/
def chunks (n : Nat) : Nat → List Byte → List (List Byte)
  | 0, _ => []
  | _ + 1, [] => []
  | fuel + 1, b :: bs => (b :: bs).take n :: chunks n fuel ((b :: bs).drop n)

/-- The expansion (30 R106). -/
def Pseudo.expand : Pseudo → List Instr
  | .arm => [.hwSetTxInterruptEnabled true]
  | .disarm => [.hwSetTxInterruptEnabled false]
  | .submitLong bytes => (chunks 255 bytes.length bytes).map .submit
  | .ackTx => [.hwClearTxInterruptFlag]
  | .ackRx => [.hwClearRxOverflowFlag, .hwClearRxInterruptFlag]

/-- The count a SUBMIT has returned, if it has: the one result that `t` holds and `s` does not. -/
def returnedCount (s t : State) : Option Nat :=
  match t.results.drop s.results.length with
  | [⟨_, .ok, .nat k⟩] => some k
  | _ => none

/-- Consecutive SUBMITs, "stopping after the first one that returns less than its `n`"; the sum of the results beside
the state (30 R106). `none`: a SUBMIT has not returned its count (it was only entered, or it waits, or it was refused),
and the next one is not issued. -/
def submitChunks : List (List Byte) → Nat → State → Except Fault (Option Nat × State)
  | [], sum, s => .ok (some sum, s)
  | c :: cs, sum, s =>
    match exec (.submit c) s with
    | .next t =>
      match returnedCount s t with
      | some k => if k < c.length then .ok (some (sum + k), t) else submitChunks cs (sum + k) t
      | none => .ok (none, t)
    | .fault e => .error e
    | .refused _ => .ok (none, s)

/-- A SUBMIT of any length as a sequence of commands (30 R106, 41 R143). -/
def submitLong (bytes : List Byte) (s : State) : Except Fault (Option Nat × State) :=
  submitChunks (chunks 255 bytes.length bytes) 0 s

end Sys2Proof.Machine
end

