-- ==== Sys2Proof/Safety.lean ====
section
/-! DEFINITION. What counts as a safe run, in the terms the statements use: the state invariants (10_state.md R34, R41
to R44), what a sequencer's locals mean, the data on its way out, quiescence (70_reset_and_hazards.md R285), and weak
fairness (20_memory.md R76, 43_capability_ops.md R212, 60_exceptions.md R234, R235). -/

namespace Sys2Proof.Machine

/-! ## Rings (10 R34, R41, R43) -/

/-- Every index below the capacity (10 R41). -/
abbrev Ring.InRange (cap : Nat) (x : Ring) : Prop :=
  x.readIndex < cap ∧ x.writeIndex < cap ∧ x.rdSeen < cap ∧ x.wrSeen < cap

/-- The ring distance from `rd_seen` through `read_index` and `wr_seen` to `write_index` (10 R34). -/
def Ring.span (cap : Nat) (x : Ring) : Nat :=
  dist cap x.readIndex x.rdSeen + dist cap x.wrSeen x.readIndex + dist cap x.writeIndex x.wrSeen

/-- The view invariant (10 R34). -/
abbrev Ring.Ordered (cap : Nat) (x : Ring) : Prop := x.span cap ≤ cap - 1

/-- Every live cell holds a value: a `pop` never reads a cell that was never written (70 R263). -/
abbrev Ring.LiveWritten (cap : Nat) (x : Ring) : Prop :=
  ∀ j < dist cap x.writeIndex x.readIndex, (x.storage.read ((x.readIndex + j) % cap)).isSome = true

/-- The storage keeps its canonical form and lists only cells that exist. -/
abbrev Ring.StorageOk (cap : Nat) (x : Ring) : Prop := x.storage.wf = true ∧ ∀ c ∈ x.storage, c.1 < cap

/-- A ring of capacity `cap` in order. -/
structure Ring.Ok (cap : Nat) (x : Ring) : Prop where
  inRange : x.InRange cap
  ordered : x.Ordered cap
  live : x.LiveWritten cap
  storage : x.StorageOk cap

/-! ## Sequencer locals (10 R37) -/

/-- What `PUSH`'s locals mean after P1 (40 R124: "`wi` cannot change between P1 and P3"): there is room for one byte, and
after P2 the cell holds it. -/
def PushStage.Ok (cap : Nat) (x : Ring) (b : Byte) : PushStage → Prop
  | .p1 => True
  | .p2 l => l.wi = x.writeIndex ∧ l.nx = inc cap l.wi ∧ x.span cap < cap - 1
  | .p3 l => l.wi = x.writeIndex ∧ l.nx = inc cap l.wi ∧ x.span cap < cap - 1 ∧ x.storage.read l.wi = some b

/-- What `POP`'s locals mean after C1 (40 R127): the consumer sees a byte, and after C2 `b` is it. -/
def PopStage.Ok (x : Ring) : PopStage → Prop
  | .c1 => True
  | .c2 l => l.ri = x.readIndex ∧ x.wrSeen ≠ x.readIndex
  | .c3 l b => l.ri = x.readIndex ∧ x.wrSeen ≠ x.readIndex ∧ x.storage.read l.ri = some b

/-- The label and locals of `SUBMIT`. -/
def SubmitStage.Ok (bytes : List Byte) (k : Nat) (s : State) : SubmitStage → Prop
  | .s1 p => k < bytes.length ∧ ∃ b, bytes[k]? = some b ∧ p.Ok s.cfg.txCap s.tx b
  | .s2 => k ≤ bytes.length

/-- The label and locals of `ON_TX_READY`; at X3 the ring is not empty, so `POP` "cannot be EMPTY" (42 R160). -/
def TxStage.Ok (free sent : Nat) (s : State) : TxStage → Prop
  | .x0 => True
  | .x1 => sent ≤ free
  | .x3 p => sent < free ∧ s.tx.wrSeen ≠ s.tx.readIndex ∧ p.Ok s.tx
  | .x3w _ => sent < free
  | .x4 => sent ≤ free
  | .x5 => sent ≤ free

/-- The label and locals of `ON_RX_READY`. -/
def RxStage.Ok (n i : Nat) (s : State) : RxStage → Prop
  | .y0 => True
  | .y2 => i < n
  | .y3 b p => i < n ∧ p.Ok s.cfg.rxCap s.rx b
  | .y4 => i = n
  | .y5 => i = n
  | .y6 => i = n

/-- An operation in progress in sequencer `d` is one that its context may run (60 R242), with locals in order. -/
def Task.Ok (d : Side) (s : State) : Task → Prop
  | .submit bytes k stage => d = .fg ∧ stage.Ok bytes k s
  | .tryReceive stage => d = .fg ∧ stage.Ok s.rx
  | .drainReceived _ stage => d = .fg ∧ stage.Ok s.rx
  | .push r b stage => taskSide (.push r b stage) = d ∧ stage.Ok (s.cap r) (s.ring r) b
  | .pop r stage => taskSide (.pop r stage) = d ∧ stage.Ok (s.ring r)
  | .onTxReady free sent stage => d = .isr ∧ stage.Ok free sent s
  | .onRxReady n i stage => d = .isr ∧ stage.Ok n i s

/-- A sequencer in order. -/
def SeqOk (d : Side) (s : State) : Prop :=
  match s.seq d with
  | .idle => True
  | .busy t => t.Ok d s

/-! ## The invariant -/

/-- Without lag every view is the true index and no arm request waits (20 R75). -/
def ViewsExact (s : State) : Prop :=
  s.rx.rdSeen = s.rx.readIndex ∧ s.rx.wrSeen = s.rx.writeIndex ∧ s.tx.rdSeen = s.tx.readIndex ∧
    s.tx.wrSeen = s.tx.writeIndex ∧ s.txArmReq = false

/-- The state invariant: 10 R34, R41, R42, 20 R75, 10 R35, 43 R204, and the sequencers in order. -/
structure StateInv (s : State) : Prop where
  cfg : s.cfg.Valid
  rx : s.rx.Ok s.cfg.rxCap
  tx : s.tx.Ok s.cfg.txCap
  views : s.cfg.syncLag = false → ViewsExact s
  overrun : s.overrun ≤ s.cfg.overrunMax
  txFifo : s.plat.txFifo.length ≤ s.cfg.fifoTxCap
  rxFifo : s.plat.rxFifo.length ≤ s.cfg.fifoRxCap
  fg : SeqOk .fg s
  isr : SeqOk .isr s

/-! ## The armed flag (10 R44, 42 R172) -/

/-- A SUBMIT is between its first accepted PUSH and its ARM_TX step (10 R44). -/
def inArmWindow (s : State) : Bool :=
  match s.fgSeq with
  | .busy (.submit _ k _) => decide (1 ≤ k)
  | _ => false

/-- The arm invariant as 10 R44 states it. -/
def ArmInvariant (s : State) : Prop :=
  inArmWindow s = false → s.txArmReq = false → 0 < trueLen .tx s → s.txArmed = true

/-- A PUSH into the TX ring that no SUBMIT drives is in progress: the RING port used from outside the driver. -/
def directTxPush (s : State) : Bool :=
  match s.fgSeq with
  | .busy (.push .tx _ _) => true
  | _ => false

/-- The arm invariant in the form every step of the driver keeps: outside the window, with no request waiting, the
interrupt side sees the whole ring, and it is armed unless the ring is empty. -/
def ArmKept (s : State) : Prop :=
  directTxPush s = false ∧
    (inArmWindow s = false → s.txArmReq = false →
      s.tx.wrSeen = s.tx.writeIndex ∧ (s.tx.writeIndex ≠ s.tx.readIndex → s.txArmed = true))

/-- A turn that uses the RING or CAP port from outside the block's own driver (30 R90: those ports are issued by "the
driver's sequencers"). -/
def directTurn : Turn → Bool
  | .command .ring _ _ => true
  | .command .cap _ _ => true
  | _ => false

/-! ## The data on its way out -/

/-- The byte `ON_TX_READY` has popped and not yet written to the hardware FIFO. -/
def inFlight (s : State) : List (Option Byte) :=
  match s.isrSeq with
  | .busy (.onTxReady _ _ (.x3w b)) => [some b]
  | _ => []

/-- Everything accepted by the TX ring and not lost, oldest first: sent, in the hardware FIFO, in flight, in the ring. -/
def txStream (s : State) : List (Option Byte) :=
  (s.plat.lineOut ++ s.plat.txFifo).map some ++ inFlight s ++ liveCells .tx s

/-- The slots the running `ON_TX_READY` may still fill are free (43 R191: "with a truthful platform the FIFO is never full
when it is called"), no POP of the TX ring runs outside it, and the platform reports the truth. -/
def TxBudget (s : State) : Prop :=
  s.plat.freeReports = [] ∧
    match s.isrSeq with
    | .busy (.onTxReady _ _ .x0) => True
    | .busy (.onTxReady free sent _) => free - sent + s.plat.txFifo.length ≤ s.cfg.fifoTxCap
    | .busy (.pop _ _) => False
    | _ => True

/-- A turn in which FG may step. -/
def foregroundTurn : Turn → Bool
  | .command .app _ _ => true
  | .micro .fg => true
  | _ => false

/-! ## Quiescence (70 R285) -/

/-- No operation in progress, no SYNC step enabled, no interrupt requested, `tx_fifo` empty, and no PLAT step other than
PL_RX_ARRIVE enabled (70 R285). -/
def Quiescent (s : State) : Prop :=
  s.fgSeq = .idle ∧ s.isrSeq = .idle ∧ (∀ x, syncEnabled x s = false) ∧ (∀ src, requested src s = false) ∧
    s.plat.txFifo = [] ∧ platEnabled .txShift s = false ∧ platEnabled .txFlag s = false ∧ platEnabled .rxFlag s = false

/-! ## Infinite runs and weak fairness (20 R76, 43 R212) -/

/-- When a turn is a step of the machine. -/
def turnEnabled (t : Turn) (s : State) : Bool :=
  match t with
  | .command p a _ => commandEnabled p a s && s.ports.queue p != []
  | .micro d => microEnabled d s
  | .dispatch src => dispatchEnabled src s
  | .sync x => syncEnabled x s
  | .plat x => platEnabled x s
  | .post _ _ => true
  | .feed _ => true
  | .idle => true

/-- The turns under weak fairness: those of SYNC (20 R76), and PL_TX_SHIFT, PL_TX_FLAG, PL_RX_FLAG and dispatch (43 R212).
"Liveness rests on weak fairness of `PLAT` and `SYNC` alone" (70 R287): PL_RX_ARRIVE is not among them, nor any step of FG
or of a handler. -/
def fairTurns : List Turn :=
  [.sync .txw, .sync .txr, .sync .rxw, .sync .rxr, .plat .txShift, .plat .txFlag, .plat .rxFlag,
   .dispatch .txReady, .dispatch .rxReady]

/-- The states an infinite schedule leads through; a fault stops it. -/
def trajectory (sch : Nat → Turn) (s : State) : Nat → State
  | 0 => s
  | n + 1 =>
    match runTurn (sch n) (trajectory sch s n) with
    | .next t => t
    | .fault _ => trajectory sch s n
    | .refused _ => trajectory sch s n

/-- Weak fairness: "if one stays enabled it eventually happens" (43 R212). -/
def WeaklyFair (sch : Nat → Turn) (s : State) : Prop :=
  ∀ t ∈ fairTurns, ∀ n, (∀ m, n ≤ m → turnEnabled t (trajectory sch s m) = true) → ∃ m, n ≤ m ∧ sch m = t

/-- "A handler, once dispatched, runs to completion" (60 R234 item 2). -/
def HandlersComplete (sch : Nat → Turn) (s : State) : Prop :=
  ∀ n, ∃ m, n ≤ m ∧ (trajectory sch s m).isrSeq = .idle

/-- A run of the driver: no turn uses the RING or CAP port from outside it, and handlers complete. -/
structure DriverRun (sch : Nat → Turn) (s : State) : Prop where
  driver : ∀ n, directTurn (sch n) = false
  complete : HandlersComplete sch s

/-- From some turn on the outside world adds nothing to `line_in`, which is a finite list (10 R39; "the line may stay
silent", 43 R212), the platform reports the true occupancy, and a handler starts by a dispatch alone (60 R233). -/
def LineFallsSilent (sch : Nat → Turn) (s : State) : Prop :=
  ∃ k, (trajectory sch s k).plat.occReports = [] ∧
    ∀ n, k ≤ n → (∀ l, sch n ≠ .feed l) ∧ ∀ a g, sch n ≠ .command .evt a g

/-- A request that waits when a handler returns is dispatched after the return, unless it is withdrawn: the other source
"stays requested and is dispatched after the first returns" (60 R235, R240) (log 18). -/
def PendingIsDispatched (sch : Nat → Turn) (s : State) : Prop :=
  ∀ src n, (trajectory sch s n).isrSeq ≠ .idle → (trajectory sch s (n + 1)).isrSeq = .idle →
    ∃ m, n < m ∧ (requested src (trajectory sch s m) = false ∨
      (sch m = .dispatch src ∧ dispatchEnabled src (trajectory sch s m) = true))

/-! ## When a command runs, and what a run of ring operations leaves -/

/-- The command passes the port and context check and its agent may start an operation. -/
def MayRun (i : Instr) (s : State) : Prop := permitted i s = true ∧ ready s.issue.agent s = true

/-- ... and it is run as a whole, with no other agent between its micro-steps (log 5). -/
def MayRunWhole (i : Instr) (s : State) : Prop := MayRun i s ∧ s.issue.grain = .whole

/-- `n` cells of a ring from `read_index` on, oldest first. -/
def cellsFromRead (r : RingId) (n : Nat) (s : State) : List (Option Byte) :=
  (List.range n).map fun j => s.cell r (((s.ring r).readIndex + j) % s.cap r)

/-- The storage after writing a list of bytes at `i` and on, circularly. -/
def writeRun (cap : Nat) : Nat → List Byte → Memory → Memory
  | _, [], m => m
  | i, b :: bs, m => writeRun cap (inc cap i) bs (m.write i b)

/-- A ring after `bs` has been stored from `write_index` on, and published. -/
def ringStored (cap : Nat) (lag : Bool) (bs : List Byte) (x : Ring) : Ring :=
  let w := (x.writeIndex + bs.length) % cap
  { x with
    storage := writeRun cap x.writeIndex bs x.storage
    writeIndex := w
    wrSeen := if lag = true ∨ bs = [] then x.wrSeen else w }

/-- A ring after `n` bytes have been consumed. -/
def ringConsumed (cap : Nat) (lag : Bool) (n : Nat) (x : Ring) : Ring :=
  let v := (x.readIndex + n) % cap
  { x with readIndex := v, rdSeen := if lag = true ∨ n = 0 then x.rdSeen else v }

/-- The room the producer of a ring sees. -/
def roomSeen (r : RingId) (s : State) : Nat := s.cap r - 1 - producerLen r s

/-- The bytes `n` reads of the hardware receive FIFO return: those it holds, then free values (43 R193, D22; log 3). -/
def readBytes (n : Nat) (s : State) : List Byte :=
  s.plat.rxFifo.take n ++ (List.range (n - s.plat.rxFifo.length)).map fun j => Config.freeByte (s.freeCount + j)

end Sys2Proof.Machine
end

