-- ==== Sys2Proof/Certificates/Slice0/Obligations.lean ====
section
/-! DEFINITION. The statements for the provers. Each docstring names the rule of spec/ it formalises; where a clause rests
on a decision of the spec (D<n>) or on a choice of the model (log <n>), the docstring says so. -/

namespace Sys2Proof.Machine

/-! ## Words the statements share -/

/-- TRY_RECEIVE again and again until it returns EMPTY, collecting the bytes; `none` if `fuel` calls do not reach one. -/
def tryUntilEmpty : Nat → State → Option (List Byte × State)
  | 0, _ => none
  | fuel + 1, s =>
    match exec .tryReceive s with
    | .next t =>
      match t.results.getLast? with
      | some ⟨_, .ok, .byte b⟩ => (tryUntilEmpty fuel t).map fun x => (b :: x.1, x.2)
      | some ⟨_, .empty, _⟩ => some ([], t)
      | _ => none
    | _ => none

/-- The words arrive at APP one at a time, FG issuing after each. -/
def arriveOneByOne : List Word → State → Host.Outcome State Fault Refusal
  | [], s => .next s
  | w :: ws, s =>
    match runCommand .app .fg .whole (postWords .app [w] s) with
    | .next t => arriveOneByOne ws t
    | .fault e => .fault e
    | .refused e => .refused e

/-- `n` micro-step turns of one sequencer. -/
def microTurns (d : Side) : Nat → State → Host.Outcome State Fault Refusal
  | 0, s => .next s
  | n + 1, s =>
    match runTurn (.micro d) s with
    | .next t => microTurns d n t
    | .fault e => .fault e
    | .refused e => .refused e

/-- An outcome with one ring of its next state replaced. -/
def withRing (r : RingId) (x : Ring) : Host.Outcome State Fault Refusal → Host.Outcome State Fault Refusal
  | .next t => .next (t.setRing r x)
  | .fault e => .fault e
  | .refused e => .refused e

end Sys2Proof.Machine

open Sys2Proof Sys2Proof.Machine

/-! ## The ring operations -/

/-- PUSH (40 R124; the test before the write is D6): OVERFLOW and no other change if the producer sees the ring full;
else the byte goes to cell `write_index`, the index advances modulo the capacity, and, without lag, its view copy. The
cells that exist are 0 to `CAP - 1` (20 R62); a push beyond them, which no run reaches (10 R41), faults (log 14). -/
def Obligations.PushStoresOrOverflows : Prop :=
  ∀ (r : RingId) (b : Byte) (s : State), MayRunWhole (.push r b) s →
    let full := inc (s.cap r) (s.ring r).writeIndex = (s.ring r).rdSeen
    (full → exec (.push r b) s = .next (s.ret (producer r) .overflow .none)) ∧
    (¬ full → (s.ring r).writeIndex < s.cap r → exec (.push r b) s =
      .next ((s.setRing r (ringStored (s.cap r) s.cfg.syncLag [b] (s.ring r))).ret (producer r) .ok .none)) ∧
    (¬ full → s.cap r ≤ (s.ring r).writeIndex →
      exec (.push r b) s = .fault (.noSuchCell r (s.ring r).writeIndex))

/-- POP (40 R127): EMPTY and no other change if the consumer sees the ring empty; else the byte of cell `read_index`, and
the index advances. A cell that was never written gives a free value (20 R63; log 2); a cell outside 0 to `CAP - 1`,
which no run reaches (10 R41), faults (log 14). -/
def Obligations.PopTakesOldestOrEmpty : Prop :=
  ∀ (r : RingId) (s : State), MayRunWhole (.pop r) s →
    let empty := (s.ring r).wrSeen = (s.ring r).readIndex
    let t := s.setRing r (ringConsumed (s.cap r) s.cfg.syncLag 1 (s.ring r))
    (empty → exec (.pop r) s = .next (s.ret (consumer r) .empty .none)) ∧
    (¬ empty → (s.ring r).readIndex < s.cap r →
      (∀ b, s.cell r (s.ring r).readIndex = some b → exec (.pop r) s = .next (t.ret (consumer r) .ok (.byte b))) ∧
      (s.cell r (s.ring r).readIndex = none →
        exec (.pop r) s =
          .next ((t.setFreeCount (s.freeCount + 1)).ret (consumer r) .ok (.byte (Config.freeByte s.freeCount))))) ∧
    (¬ empty → s.cap r ≤ (s.ring r).readIndex → exec (.pop r) s = .fault (.noSuchCell r (s.ring r).readIndex))

/-- LEN, IS_EMPTY, IS_FULL (40 R129, R132, R133; the views are D24): each answers from the caller's own index and its
view of the other, and writes nothing. -/
def Obligations.LengthQueriesAnswerCallersView : Prop :=
  ∀ (r : RingId) (s : State),
    let n := if s.issue.agent = producer r
      then ((s.ring r).writeIndex + s.cap r - (s.ring r).rdSeen) % s.cap r
      else ((s.ring r).wrSeen + s.cap r - (s.ring r).readIndex) % s.cap r
    (MayRun (.len r) s → exec (.len r) s = .next (s.ret s.issue.agent .ok (.nat n))) ∧
    (MayRun (.isEmpty r) s → exec (.isEmpty r) s = .next (s.ret s.issue.agent .ok (.bit (decide (n = 0))))) ∧
    (MayRun (.isFull r) s → exec (.isFull r) s = .next (s.ret s.issue.agent .ok (.bit (decide (n = s.cap r - 1)))))

/-- 40 R133: for the producer IS_FULL is 1 exactly when PUSH would raise Overflow; 40 R132: for the consumer IS_EMPTY is
1 exactly when POP would raise Empty. -/
def Obligations.QueriesForetellRejection : Prop :=
  ∀ (r : RingId) (b : Byte) (s : State), StateInv s →
    (MayRunWhole (.push r b) s →
      (producerLen r s = s.cap r - 1 ↔ exec (.push r b) s = .next (s.ret (producer r) .overflow .none))) ∧
    (MayRunWhole (.pop r) s →
      (consumerLen r s = 0 ↔ exec (.pop r) s = .next (s.ret (consumer r) .empty .none)))

/-- 10 R43: an accepted PUSH appends its byte to the ring's abstract queue, a successful POP removes and returns its
head. -/
def Obligations.PushAppendsPopRemovesHead : Prop :=
  ∀ (r : RingId) (b : Byte) (s t : State), StateInv s →
    (MayRunWhole (.push r b) s → exec (.push r b) s = .next t → producerLen r s ≠ s.cap r - 1 →
      liveCells r t = liveCells r s ++ [some b]) ∧
    (MayRunWhole (.pop r) s → exec (.pop r) s = .next t → consumerLen r s ≠ 0 →
      ∃ c, t.results = s.results ++ [⟨consumer r, .ok, .byte c⟩] ∧ liveCells r s = some c :: liveCells r t)

/-! ## The foreground operations -/

/-- SUBMIT (41 R140, with the prefix rule R141 and the one arm after the last push R142, decisions D7 and D8): with
`f` the room the producer sees, the first `min n f` bytes are stored, TX is armed if there is one, and the result is
their number. -/
def Obligations.SubmitAcceptsFittingPrefixAndArms : Prop :=
  ∀ (bytes : List Byte) (s : State), StateInv s → MayRunWhole (.submit bytes) s →
    let bs := bytes.take (roomSeen .tx s)
    let t := s.setRing .tx (ringStored s.cfg.txCap s.cfg.syncLag bs s.tx)
    exec (.submit bytes) s = .next ((if bs = [] then t else armTx t).ret .fg .ok (.nat bs.length))

/-- TRY_RECEIVE (41 R145): EMPTY with no other change if FG sees the RX ring empty; else its oldest byte, and
`rx.read_index` advances. It makes no capability call and does not touch the overrun counter. -/
def Obligations.TryReceiveTakesOldestOrEmpty : Prop :=
  ∀ s : State, StateInv s → MayRunWhole .tryReceive s →
    (s.rx.wrSeen = s.rx.readIndex → exec .tryReceive s = .next (s.ret .fg .empty .none)) ∧
    (s.rx.wrSeen ≠ s.rx.readIndex → ∃ b, s.cell .rx s.rx.readIndex = some b ∧
      exec .tryReceive s =
        .next ((s.setRing .rx (ringConsumed s.cfg.rxCap s.cfg.syncLag 1 s.rx)).ret .fg .ok (.byte b)))

/-- DRAIN_RECEIVED (41 R147, D14): all the bytes FG sees, in order; `(OK, [])` from a ring it sees empty. -/
def Obligations.DrainReturnsAllSeenBytes : Prop :=
  ∀ s : State, StateInv s → MayRunWhole .drainReceived s →
    ∃ bs : List Byte, bs.map some = cellsFromRead .rx (consumerLen .rx s) s ∧
      exec .drainReceived s =
        .next ((s.setRing .rx (ringConsumed s.cfg.rxCap s.cfg.syncLag bs.length s.rx)).ret .fg .ok (.bytes bs))

/-- 41 R148: DRAIN_RECEIVED returns the same list, and leaves the same state (less the results returned on the way), as
TRY_RECEIVE repeated until it returns EMPTY. -/
def Obligations.DrainEqualsRepeatedTryReceive : Prop :=
  ∀ s : State, StateInv s → permitted .tryReceive s = true → MayRunWhole .drainReceived s →
    ∃ (bs : List Byte) (t u : State), exec .drainReceived s = .next t ∧
      t.results = s.results ++ [⟨.fg, .ok, .bytes bs⟩] ∧
      tryUntilEmpty s.cfg.rxCap s = some (bs, u) ∧ { u with results := t.results } = t

/-- 41 R143: SUBMIT a, then, if it returned `|a|`, SUBMIT b, leaves what SUBMIT (a ++ b) leaves, and the results add up; the
one difference is that the trace holds one more arm call at its end exactly if both armed at once (without lag, each
having accepted a byte). -/
def Obligations.SplitSubmitEqualsLongSubmit : Prop :=
  ∀ (a b : List Byte) (s t u v : State), StateInv s → MayRunWhole (.submit a) s →
    exec (.submit a) s = .next t → t.results = s.results ++ [⟨.fg, .ok, .nat a.length⟩] →
    exec (.submit b) t = .next u → exec (.submit (a ++ b)) s = .next v →
    { u with results := v.results, trace := v.trace } = v ∧
      ∃ k, u.results = t.results ++ [⟨.fg, .ok, .nat k⟩] ∧ v.results = s.results ++ [⟨.fg, .ok, .nat (a.length + k)⟩] ∧
        u.trace = v.trace ++ (if s.cfg.syncLag = false ∧ a ≠ [] ∧ 1 ≤ k then [.setEnabled true] else [])

/-! ## The interrupt operations -/

/-- ON_TX_READY (42 R160, R161, R164, R165; the test order is R162, D10): with `N` bytes seen and `f` free slots reported,
whatever `f` is and whatever the flags say (R166, R167), `min N f` bytes go to the hardware FIFO in ring order (a full
FIFO loses bytes, 43 R191); it disarms exactly if `N ≤ f`; the flag is cleared last, on both exit paths. -/
def Obligations.TxHandlerThrottlesAndAcknowledges : Prop :=
  ∀ s : State, StateInv s → MayRunWhole .onTxReady s →
    let f := freeAnswer s
    let N := consumerLen .tx s
    ∃ bs : List Byte, bs.map some = cellsFromRead .tx (min N f) s ∧
      exec .onTxReady s = .next
        { s with
          tx := ringConsumed s.cfg.txCap s.cfg.syncLag bs.length s.tx
          txArmed := if N ≤ f then false else s.txArmed
          plat := { s.plat with
            freeReports := s.plat.freeReports.tail
            txFifo := s.plat.txFifo ++ bs.take (s.cfg.fifoTxCap - s.plat.txFifo.length)
            txFlag := false }
          trace := s.trace ++ [.freeSlots f] ++ bs.map .write ++ (if N ≤ f then [.setEnabled false] else []) ++
            [.clearTxFlag]
          results := s.results ++ [⟨.isrTx, .ok, .none⟩] }

/-- 42 R163: on a TX ring the handler sees empty, ON_TX_READY disarms and acknowledges, and the capability calls are exactly
these three: zero hardware writes. -/
def Obligations.EmptyTxHandlerMakesZeroWrites : Prop :=
  ∀ s : State, MayRunWhole .onTxReady s → s.tx.wrSeen = s.tx.readIndex →
    ∃ t, exec .onTxReady s = .next t ∧ t.txArmed = false ∧
      t.trace = s.trace ++ [.freeSlots (freeAnswer s), .setEnabled false, .clearTxFlag] ∧
      t.tx = s.tx ∧ t.plat.txFifo = s.plat.txFifo ∧ t.plat.txFlag = false

/-- ON_RX_READY (42 R174 to R178; the acknowledge order is D12, the counter D13): exactly the reported number `n` of
bytes is read; those that fit are stored in order, the rest dropped and counted, saturating; then the overflow flag and the
interrupt flag are cleared, whether or not a byte was dropped. -/
def Obligations.RxHandlerStoresFittingDropsNewest : Prop :=
  ∀ s : State, StateInv s → MayRunWhole .onRxReady s →
    let n := occAnswer s
    let f := roomSeen .rx s
    let bs := readBytes n s
    exec .onRxReady s = .next
      { s with
        rx := ringStored s.cfg.rxCap s.cfg.syncLag (bs.take f) s.rx
        overrun := min (s.overrun + (n - f)) s.cfg.overrunMax
        plat := { s.plat with
          occReports := s.plat.occReports.tail
          rxFifo := s.plat.rxFifo.drop n
          rxOvfFlag := false
          rxFlag := false }
        trace := s.trace ++ [.occupancy n] ++ bs.map .read ++ [.clearRxOvf, .clearRxFlag]
        results := s.results ++ [⟨.isrRx, .ok, .none⟩]
        freeCount := s.freeCount + (n - s.plat.rxFifo.length) }

/-! ## The capability operations -/

/-- HW_TX_FIFO_FREE_SLOTS and HW_RX_FIFO_OCCUPANCY (43 R190, R192) on a truthful platform: `FIFO_TX_CAP - |tx_fifo|` and
`|rx_fifo|`, with no side effect but the trace (43 R200). -/
def Obligations.FifoCountsAreReported : Prop :=
  ∀ s : State,
    (MayRun .hwTxFifoFreeSlots s → s.plat.freeReports = [] →
      exec .hwTxFifoFreeSlots s =
        .next ((s.emit (.freeSlots (s.cfg.fifoTxCap - s.plat.txFifo.length))).ret s.issue.agent .ok
          (.nat (s.cfg.fifoTxCap - s.plat.txFifo.length)))) ∧
    (MayRun .hwRxFifoOccupancy s → s.plat.occReports = [] →
      exec .hwRxFifoOccupancy s =
        .next ((s.emit (.occupancy s.plat.rxFifo.length)).ret s.issue.agent .ok (.nat s.plat.rxFifo.length)))

/-- 43 R198 (D29): an untruthful platform's count is taken as it is, whatever number it is; reports are the model's
inputs, one used up a call (log 10). -/
def Obligations.UntruthfulCountsAreTakenAsTheyAre : Prop :=
  ∀ (s : State) (n : Nat) (l : List Nat),
    (MayRun .hwTxFifoFreeSlots s → s.plat.freeReports = n :: l →
      exec .hwTxFifoFreeSlots s =
        .next (((s.setPlat { s.plat with freeReports := l }).emit (.freeSlots n)).ret s.issue.agent .ok (.nat n))) ∧
    (MayRun .hwRxFifoOccupancy s → s.plat.occReports = n :: l →
      exec .hwRxFifoOccupancy s =
        .next (((s.setPlat { s.plat with occReports := l }).emit (.occupancy n)).ret s.issue.agent .ok (.nat n)))

/-- HW_TX_FIFO_WRITE (43 R191): the byte joins the hardware FIFO's end; a full FIFO loses it (D23). -/
def Obligations.FifoWriteAppendsOrLoses : Prop :=
  ∀ (b : Byte) (s : State), MayRun (.hwTxFifoWrite b) s →
    exec (.hwTxFifoWrite b) s =
      .next (((s.setPlat { s.plat with
        txFifo := if s.plat.txFifo.length < s.cfg.fifoTxCap then s.plat.txFifo ++ [b] else s.plat.txFifo }).emit
          (.write b)).ret s.issue.agent .ok .none)

/-- HW_RX_FIFO_READ (43 R193): the oldest byte is removed and returned; an empty FIFO returns any byte (D22), a free
value (log 3), and loses nothing. -/
def Obligations.FifoReadConsumesOldest : Prop :=
  ∀ s : State, MayRun .hwRxFifoRead s →
    (∀ h l, s.plat.rxFifo = h :: l →
      exec .hwRxFifoRead s =
        .next (((s.setPlat { s.plat with rxFifo := l }).emit (.read h)).ret s.issue.agent .ok (.byte h))) ∧
    (s.plat.rxFifo = [] → ∃ b : Byte, b = Config.freeByte s.freeCount ∧
      exec .hwRxFifoRead s =
        .next (((s.setFreeCount (s.freeCount + 1)).emit (.read b)).ret s.issue.agent .ok (.byte b)))

/-- HW_SET_TX_INTERRUPT_ENABLED (43 R194): `tx_armed <- e`, one atomic write that touches nothing else but the trace. -/
def Obligations.SetEnabledWritesArmedFlag : Prop :=
  ∀ (e : Bool) (s : State), MayRun (.hwSetTxInterruptEnabled e) s →
    exec (.hwSetTxInterruptEnabled e) s =
      .next { s with
        txArmed := e
        trace := s.trace ++ [.setEnabled e]
        results := s.results ++ [⟨s.issue.agent, .ok, .none⟩] }

/-- The three clears (43 R195 to R197): each clears its own flag and nothing else, also when it is 0 already. -/
def Obligations.ClearsClearTheirOwnFlag : Prop :=
  ∀ s : State,
    (MayRun .hwClearTxInterruptFlag s → exec .hwClearTxInterruptFlag s =
      .next { s with
        plat := { s.plat with txFlag := false }
        trace := s.trace ++ [.clearTxFlag]
        results := s.results ++ [⟨s.issue.agent, .ok, .none⟩] }) ∧
    (MayRun .hwClearRxInterruptFlag s → exec .hwClearRxInterruptFlag s =
      .next { s with
        plat := { s.plat with rxFlag := false }
        trace := s.trace ++ [.clearRxFlag]
        results := s.results ++ [⟨s.issue.agent, .ok, .none⟩] }) ∧
    (MayRun .hwClearRxOverflowFlag s → exec .hwClearRxOverflowFlag s =
      .next { s with
        plat := { s.plat with rxOvfFlag := false }
        trace := s.trace ++ [.clearRxOvf]
        results := s.results ++ [⟨s.issue.agent, .ok, .none⟩] })

/-! ## The payload word, and commands as words -/

/-- A payload word (30 R94, R97, D15; the one-at-a-time assembly is the model's, log 7). With no SUBMIT header before it, or
on another port than APP, it is an illegal header (R94, R100). Issued by the header's agent, before the last word of its
command it is kept; the last one is the SUBMIT of all the payload bytes, or, if one was malformed, the whole command is
refused and no byte is pushed. By another agent, or while that agent may not start an operation, it waits (the model's
choice, log 11, log 26). -/
def Obligations.PayloadWordJoinsItsSubmit : Prop :=
  ∀ (b : Byte) (s : State),
    (s.ports.assembly = none ∨ s.issue.port ≠ .app →
      exec (.submitPayload b) s = .next (s.ret s.issue.agent .illegal .none)) ∧
    ∀ a : Assembly, s.ports.assembly = some a → s.issue.port = .app →
      (s.issue.agent ≠ a.agent ∨ ready a.agent s = false → exec (.submitPayload b) s = .next s) ∧
      (s.issue.agent = a.agent → ready a.agent s = true →
        let t := s.setPorts { s.ports with assembly := none }
        (2 ≤ a.left → exec (.submitPayload b) s =
          .next (s.setPorts { s.ports with assembly := some ⟨a.agent, a.left - 1, a.got ++ [b], a.bad⟩ })) ∧
        (a.left ≤ 1 → a.bad = true → exec (.submitPayload b) s = .next (t.ret s.issue.agent .illegal .none)) ∧
        (a.left ≤ 1 → a.bad = false → exec (.submitPayload b) s = exec (.submit (a.got ++ [b])) t) ∧
        (a.left ≤ 1 → a.bad = false → a.agent = .fg → StateInv s → s.issue.grain = .whole →
          ∃ u, exec (.submitPayload b) s = .next u))

/-- 30 R107 (D15): invoking SUBMIT directly and issuing its words on APP are the same operation, whether all the words
wait there or they arrive one at a time (log 7). -/
def Obligations.SubmitWordsAreDirectInvocation : Prop :=
  ∀ (bytes : List Byte) (rest : List Word) (s : State), bytes.length ≤ 255 → ready .fg s = true →
    s.ports.assembly = none →
    let direct := s.setIssue ⟨.app, .fg, .whole⟩
    (s.ports.app = encode (.submit bytes) ++ rest →
      runCommand .app .fg .whole s = exec (.submit bytes) (direct.setPorts { s.ports with app := rest })) ∧
    (s.ports.app = [] → arriveOneByOne (encode (.submit bytes)) s = exec (.submit bytes) direct)

/-- One step runs the decoded command: when the schedule's next turn lets an agent that may start issue the port's next
command, and the port's words decode to `i`, the step is `exec i` with the turn and the command's words taken off and the
issue noted. While a SUBMIT's payload is arriving, APP's next word, if it is a Format D word, is run as a payload word on a
turn of the agent that issued the header; another agent's turn on APP only leaves the schedule (log 26). -/
def Obligations.StepRunsDecodedCommand : Prop :=
  (∀ (s : State) (p : Port) (a : Agent) (g : Grain) (ts : List Turn) (i : Instr) (rest : List Word),
    s.turns = .command p a g :: ts → ready a s = true → (p = .app → s.ports.assembly = none) →
    decodeCommand p (s.ports.queue p) = .ok (i, rest) →
    step s = exec i (((s.setTurns ts).setIssue ⟨p, a, g⟩).setPorts (s.ports.setQueue p rest))) ∧
  ∀ (s : State) (a : Agent) (g : Grain) (ts : List Turn) (asm : Assembly) (w : Word) (ws : List Word),
    s.turns = .command .app a g :: ts → s.ports.assembly = some asm → s.ports.app = w :: ws →
    (∀ b, asm.agent = a → ready a s = true → decodePayloadWord w = some b →
      step s = exec (.submitPayload b) (((s.setTurns ts).setIssue ⟨.app, a, g⟩).setPorts { s.ports with app := ws })) ∧
    (asm.agent ≠ a → step s = .next (s.setTurns ts))

/-- 30 R100, 60 R226 (D16): an illegal word is refused: the port's word is taken, ILLEGAL is returned, and nothing else
changes (the issue record is the model's, log 7). -/
def Obligations.IllegalWordIsRefused : Prop :=
  ∀ (p : Port) (a : Agent) (g : Grain) (w : Word) (ws : List Word) (s : State), ready a s = true →
    (p = .app → s.ports.assembly = none) → s.ports.queue p = w :: ws → findRow w = none →
    runCommand p a g s =
      .next (((s.setIssue ⟨p, a, g⟩).setPorts (s.ports.setQueue p ws)).ret a .illegal .none)

/-- 30 R102 (D17): a legal word on a port that does not carry it is refused with CONTEXT and no other change. -/
def Obligations.WrongPortIsRefused : Prop :=
  ∀ (p : Port) (a : Agent) (g : Grain) (w : Word) (ws : List Word) (q : Row) (s : State), ready a s = true →
    (p = .app → s.ports.assembly = none) → s.ports.queue p = w :: ws → findRow w = some q → q.op.port ≠ p →
    runCommand p a g s =
      .next (((s.setIssue ⟨p, a, g⟩).setPorts (s.ports.setQueue p ws)).ret a .context .none)

/-- 30 R97: if one of the `n` payload words is not a Format D word the whole command is refused with ILLEGAL, all of its
`1 + n` words are taken, and no byte is pushed, whoever issued it (60 R227: the encoding comes before the context). Where
the words arrive one at a time (the model's form, log 7), such a word marks the unfinished command, or, as the last one,
has it refused. -/
def Obligations.MalformedSubmitIsRefusedWhole : Prop :=
  (∀ (h : Word) (pay rest : List Word) (a : Agent) (g : Grain) (s : State), ready a s = true →
    s.ports.assembly = none → s.ports.app = h :: (pay ++ rest) → h &&& 0xFF00#16 = 0x1000#16 →
    pay.length = (imm8 h).toNat → (∃ w ∈ pay, w &&& 0xFF00#16 ≠ 0#16) →
    runCommand .app a g s =
      .next (((s.setIssue ⟨.app, a, g⟩).setPorts { s.ports with app := rest }).ret a .illegal .none)) ∧
  ∀ (w : Word) (ws : List Word) (m : Assembly) (g : Grain) (s : State), ready m.agent s = true →
    s.ports.assembly = some m → s.ports.app = w :: ws → w &&& 0xFF00#16 ≠ 0#16 →
    let t := s.setIssue ⟨.app, m.agent, g⟩
    (2 ≤ m.left → runCommand .app m.agent g s =
      .next (t.setPorts { s.ports with app := ws, assembly := some ⟨m.agent, m.left - 1, m.got, true⟩ })) ∧
    (m.left ≤ 1 → runCommand .app m.agent g s =
      .next ((t.setPorts { s.ports with app := ws, assembly := none }).ret m.agent .illegal .none))

/-- 60 R243 (D17): a forbidden combination of 60 R242 is refused with CONTEXT and no state change; every operation, whatever
its operands. A SUBMIT that a forbidden agent issues word by word is refused so with its last payload word, once its
encoding is known to be legal (60 R227); a payload word without a header is illegal (PayloadWordJoinsItsSubmit). -/
def Obligations.ForbiddenIssueIsRefused : Prop :=
  ∀ (i : Instr) (s : State), permitted i s = false →
    ((∀ b, i ≠ .submitPayload b) → exec i s = .next (s.ret s.issue.agent .context .none)) ∧
    ∀ (b : Byte) (a : Assembly), i = .submitPayload b → s.ports.assembly = some a → s.issue.port = .app →
      s.issue.agent = a.agent → ready a.agent s = true → a.left ≤ 1 → a.bad = false →
      exec i s = .next ((s.setPorts { s.ports with assembly := none }).ret s.issue.agent .context .none)

/-- 60 R242: the table, row by row, with the ports of 30 R90. The dispatcher issues the interrupt operations as well as
their own contexts, and SYNC calls the arm under lag (43 R194) (log 13). -/
def Obligations.ContextTableIsAsListed : Prop :=
  ∀ (a : Agent) (lag : Bool) (b : Byte) (bs : List Byte),
    (mayIssue lag a (.submit bs) = true ↔ a = .fg) ∧ (mayIssue lag a .tryReceive = true ↔ a = .fg) ∧
    (mayIssue lag a .drainReceived = true ↔ a = .fg) ∧
    (mayIssue lag a .onTxReady = true ↔ a = .isrTx ∨ a = .plat) ∧
    (mayIssue lag a .onRxReady = true ↔ a = .isrRx ∨ a = .plat) ∧
    (mayIssue lag a (.push .tx b) = true ↔ a = .fg) ∧ (mayIssue lag a (.pop .tx) = true ↔ a = .isrTx) ∧
    (mayIssue lag a (.push .rx b) = true ↔ a = .isrRx) ∧ (mayIssue lag a (.pop .rx) = true ↔ a = .fg) ∧
    (mayIssue lag a (.len .tx) = true ↔ a = .fg ∨ a = .isrTx) ∧
    (mayIssue lag a (.len .rx) = true ↔ a = .fg ∨ a = .isrRx) ∧
    (mayIssue lag a (.isEmpty .tx) = true ↔ a = .fg ∨ a = .isrTx) ∧
    (mayIssue lag a (.isEmpty .rx) = true ↔ a = .fg ∨ a = .isrRx) ∧
    (mayIssue lag a (.isFull .tx) = true ↔ a = .fg ∨ a = .isrTx) ∧
    (mayIssue lag a (.isFull .rx) = true ↔ a = .fg ∨ a = .isrRx) ∧
    (mayIssue lag a (.hwSetTxInterruptEnabled true) = true ↔ a = .fg ∨ (a = .sync ∧ lag = true)) ∧
    (mayIssue lag a (.hwSetTxInterruptEnabled false) = true ↔ a = .isrTx) ∧
    (mayIssue lag a .hwTxFifoFreeSlots = true ↔ a = .isrTx) ∧
    (mayIssue lag a (.hwTxFifoWrite b) = true ↔ a = .isrTx) ∧
    (mayIssue lag a .hwClearTxInterruptFlag = true ↔ a = .isrTx) ∧
    (mayIssue lag a .hwRxFifoOccupancy = true ↔ a = .isrRx) ∧ (mayIssue lag a .hwRxFifoRead = true ↔ a = .isrRx) ∧
    (mayIssue lag a .hwClearRxInterruptFlag = true ↔ a = .isrRx) ∧
    (mayIssue lag a .hwClearRxOverflowFlag = true ↔ a = .isrRx)

/-- 20 R82, 60 R234 (D2, D32): an agent that has an operation in progress, or FG while a handler runs, starts nothing: the
command, or the payload word, waits and the state does not change (log 11, log 26). -/
def Obligations.BusyAgentStartsNothing : Prop :=
  ∀ (i : Instr) (s : State), permitted i s = true → ready s.issue.agent s = false →
    ((∃ b, i = .submitPayload b) → s.ports.assembly ≠ none) → exec i s = .next s

/-- 10 R36, log 5: at the grain `micro` a command of several micro-steps is only entered into its sequencer, at its
first label; a handler's locals are 0 there, which is the model's choice (log 25). -/
def Obligations.MicroGrainOnlyEnters : Prop :=
  ∀ s : State, s.issue.grain = .micro →
    (∀ bytes, MayRun (.submit bytes) s → exec (.submit bytes) s = .next (s.setSeq .fg (.busy (submitRound bytes 0)))) ∧
    (MayRun .tryReceive s → exec .tryReceive s = .next (s.setSeq .fg (.busy (.tryReceive .c1)))) ∧
    (MayRun .drainReceived s → exec .drainReceived s = .next (s.setSeq .fg (.busy (.drainReceived [] .c1)))) ∧
    (∀ b, MayRun (.push .tx b) s → exec (.push .tx b) s = .next (s.setSeq .fg (.busy (.push .tx b .p1)))) ∧
    (∀ b, MayRun (.push .rx b) s → exec (.push .rx b) s = .next (s.setSeq .isr (.busy (.push .rx b .p1)))) ∧
    (MayRun (.pop .rx) s → exec (.pop .rx) s = .next (s.setSeq .fg (.busy (.pop .rx .c1)))) ∧
    (MayRun (.pop .tx) s → exec (.pop .tx) s = .next (s.setSeq .isr (.busy (.pop .tx .c1)))) ∧
    (MayRun .onTxReady s → exec .onTxReady s = .next (enterHandler .txReady s)) ∧
    (MayRun .onRxReady s → exec .onRxReady s = .next (enterHandler .rxReady s))

/-- A command run as a whole is the same as entering it and then giving its sequencer as many micro-step turns as 70 R286
counts (returns included; turns of an idle sequencer change nothing): the two grains are one semantics (log 5, log 22). -/
def Obligations.WholeRunIsItsMicroSteps : Prop :=
  ∀ s : State, s.issue.grain = .whole →
    (∀ bytes, MayRun (.submit bytes) s → exec (.submit bytes) s =
      microTurns .fg (3 * bytes.length + 1) (s.setSeq .fg (.busy (submitRound bytes 0)))) ∧
    (∀ r b, MayRun (.push r b) s → exec (.push r b) s =
      microTurns (taskSide (.push r b .p1)) 3 (s.setSeq (taskSide (.push r b .p1)) (.busy (.push r b .p1)))) ∧
    (∀ r, MayRun (.pop r) s → exec (.pop r) s =
      microTurns (taskSide (.pop r .c1)) 3 (s.setSeq (taskSide (.pop r .c1)) (.busy (.pop r .c1)))) ∧
    (MayRun .tryReceive s → exec .tryReceive s = microTurns .fg 3 (s.setSeq .fg (.busy (.tryReceive .c1)))) ∧
    (MayRun .drainReceived s → exec .drainReceived s =
      microTurns .fg (3 * s.cfg.rxCap + 1) (s.setSeq .fg (.busy (.drainReceived [] .c1)))) ∧
    (MayRun .onTxReady s → exec .onTxReady s = microTurns .isr (5 * s.cfg.txCap + 4) (enterHandler .txReady s)) ∧
    (MayRun .onRxReady s → exec .onRxReady s = microTurns .isr (4 * occAnswer s + 4) (enterHandler .rxReady s))

/-! ## Encoding -/

/-- 30 R95, R97: decoding the encoding of a well-formed operation on the port that carries it gives it back, with every
operand, and the words after it. -/
def Obligations.DecodeOfEncodeIsIdentity : Prop :=
  ∀ (i : Instr) (rest : List Word), i.wellFormed = true →
    ((∀ b, i ≠ .submitPayload b) → decodeCommand i.mnemonic.port (encode i ++ rest) = .ok (i, rest)) ∧
    ∀ b, i = .submitPayload b → (encode i).map decodePayloadWord = [some b]

/-- The other direction: a command that decodes is the encoding of what it decodes to, on the port of its row, and is
well formed: every word has one meaning (30 R96, R100). -/
def Obligations.EncodeOfDecodeIsIdentity : Prop :=
  ∀ (p : Port) (ws rest : List Word) (i : Instr), decodeCommand p ws = .ok (i, rest) →
    ws = encode i ++ rest ∧ i.wellFormed = true ∧ i.mnemonic.port = p

/-- 30 R96: the rows are disjoint, at most one operation row matches a word, and none matches a payload word. -/
def Obligations.OpcodeRowsAreDisjoint : Prop :=
  (∀ (w : Word) (q q' : Row), q ∈ operationRows → q' ∈ operationRows → q.selects w = true → q'.selects w = true →
    q = q') ∧
  ∀ (w : Word) (q : Row), q ∈ operationRows → q.selects w = true → payloadRow.selects w = false

/-- 30 R100: the words no row selects are exactly these: a reserved `op`; `op = 0xE` with `fn` in 0x8 .. 0xF; a
must-be-zero field that is not zero. -/
def Obligations.IllegalWordsAreThoseListed : Prop :=
  ∀ w : Word, findRow w = none ↔
    (opField w ∈ [0x0#4, 0x6#4, 0x7#4, 0xD#4, 0xF#4] ∨
      (opField w = 0xE#4 ∧ 8 ≤ (fnField w).toNat) ∨
      (opField w = 0x1#4 ∧ fnField w ≠ 0) ∨
      (opField w ∈ [0x2#4, 0x3#4, 0x4#4, 0x5#4] ∧ (fnField w ≠ 0 ∨ imm8 w ≠ 0)) ∨
      (opField w = 0x8#4 ∧ 2 ≤ (fnField w).toNat) ∨
      (opField w ∈ [0x9#4, 0xA#4, 0xB#4, 0xC#4] ∧ (2 ≤ (fnField w).toNat ∨ imm8 w ≠ 0)) ∨
      (opField w = 0xE#4 ∧ fnField w ∈ [0x0#4, 0x2#4, 0x3#4, 0x5#4, 0x6#4, 0x7#4] ∧ imm8 w ≠ 0) ∨
      (opField w = 0xE#4 ∧ fnField w = 0x4#4 ∧ 2 ≤ (imm8 w).toNat))

/-- 30 R109: a decoder tells the length of a command from its first word. -/
def Obligations.LengthIsKnownFromFirstWord : Prop :=
  ∀ (p : Port) (w : Word) (ws rest : List Word) (i : Instr), decodeCommand p (w :: ws) = .ok (i, rest) →
    (w :: ws).length = commandLength w + rest.length ∧
      commandLength w = if w &&& 0xFF00#16 = 0x1000#16 then 1 + (imm8 w).toNat else 1

/-- Words written out from 30 R95's encodings decode to their operations. -/
def Obligations.SampleWordsDecode : Prop :=
  decodeCommand .app [0b0001000000000010, 0b0000000001000001, 0b0000000011111111] =
    .ok (.submit [0x41, 0xFF], []) ∧
  decodeCommand .app [0b0010000000000000] = .ok (.tryReceive, []) ∧
  decodeCommand .evt [0b0100000000000000] = .ok (.onTxReady, []) ∧
  decodeCommand .ring [0b1000000101000001] = .ok (.push .tx 0x41, []) ∧
  decodeCommand .ring [0b1001000000000000] = .ok (.pop .rx, []) ∧
  decodeCommand .cap [0b1110000101000001] = .ok (.hwTxFifoWrite 0x41, []) ∧
  decodeCommand .cap [0b1110010000000001] = .ok (.hwSetTxInterruptEnabled true, [])

/-! ## Reset and the invariants -/

/-- 10 R45, 70 R261 (D19): what construction leaves, for all parameters in range; out of range it is refused (93 U10). -/
def Obligations.ConstructionLeavesResetState : Prop :=
  ∀ c : Config,
    (c.Valid → ∃ s, construct c = .next s ∧ s.cfg = c ∧
      (∀ r, (s.ring r).readIndex = 0 ∧ (s.ring r).writeIndex = 0 ∧ (s.ring r).rdSeen = 0 ∧ (s.ring r).wrSeen = 0 ∧
        ∀ i, s.cell r i = none) ∧
      s.txArmed = false ∧ s.txArmReq = false ∧ s.overrun = 0 ∧ s.fgSeq = .idle ∧ s.isrSeq = .idle ∧
      s.plat.txFifo = [] ∧ s.plat.rxFifo = [] ∧ s.plat.txFlag = false ∧ s.plat.rxFlag = false ∧
      s.plat.rxOvfFlag = false ∧ s.plat.lineOut = [] ∧ s.trace = [] ∧
      ∀ r a, callerLen r a s = 0) ∧
    (¬ c.Valid → construct c = .refused (.illegalParameters c))

/-- The invariants hold after reset, for all parameters in range. -/
def Obligations.ResetMeetsInvariants : Prop :=
  State.reset = State.resetWith Config.default ∧ Config.default.Valid ∧
    ∀ c : Config, c.Valid → StateInv (State.resetWith c) ∧ ArmKept (State.resetWith c) ∧ TxBudget (State.resetWith c)

/-- From every state that meets the invariant, whatever the schedule says next, a step answers a next state, and it meets the
invariant: indices in range (10 R41), views in order (10 R34), occupancy bounded (10 R42), live cells written
(70 R263), storage canonical, the counter in its width (10 R35), the hardware FIFOs within their capacities (43 R204), and
the sequencers' locals in order. So no run faults ("never a crash", 60 R222). -/
def Obligations.EveryStepKeepsInvariant : Prop :=
  ∀ s : State, StateInv s → ∃ t, step s = .next t ∧ StateInv t

/-- 40 R130: the consumer's length is at most the true one, the true one at most the producer's, and that below the
capacity; without lag all three are equal. -/
def Obligations.ViewsErrOnTheSafeSide : Prop :=
  ∀ (s : State) (r : RingId), StateInv s →
    consumerLen r s ≤ trueLen r s ∧ trueLen r s ≤ producerLen r s ∧ producerLen r s ≤ s.cap r - 1 ∧
      (s.cfg.syncLag = false → consumerLen r s = trueLen r s ∧ producerLen r s = trueLen r s)

/-- 00 R8, 10 R21: an index always fits `ceil(log2 CAP)` bits, and is below its capacity. -/
def Obligations.IndicesFitTheirWidth : Prop :=
  ∀ (s : State) (r : RingId), StateInv s →
    let n := 2 ^ Config.indexWidth (s.cap r)
    ((s.ring r).readIndex < s.cap r ∧ (s.ring r).writeIndex < s.cap r ∧ (s.ring r).rdSeen < s.cap r ∧
      (s.ring r).wrSeen < s.cap r) ∧
    (s.ring r).readIndex < n ∧ (s.ring r).writeIndex < n ∧ (s.ring r).rdSeen < n ∧ (s.ring r).wrSeen < n

/-- The driver's steps keep the arm invariant: from a state that meets both, any step that does not use the RING or CAP port
from outside the driver gives a state that meets it (10 R44, 42 R172: no wakeup is lost). -/
def Obligations.DriverStepsKeepArmInvariant : Prop :=
  ∀ s t : State, StateInv s → ArmKept s → directTurn (nextTurn s).1 = false → step s = .next t → ArmKept t

/-- 10 R44 in its own words, from the kept form: outside a SUBMIT's window and with no request waiting, data in the TX ring
implies that the interrupt is armed. -/
def Obligations.DataInTxRingIsArmed : Prop :=
  ∀ s : State, StateInv s → ArmKept s → ArmInvariant s

/-- No byte accepted for transmission is lost, duplicated or reordered (20 R71, 10 R43, on a truthful platform: 43 R191):
any step of the driver only appends to the stream of bytes sent, in the hardware FIFO, in flight and in the ring, and only
FG's steps append. -/
def Obligations.TransmitStreamOnlyGrows : Prop :=
  ∀ s t : State, StateInv s → TxBudget s → directTurn (nextTurn s).1 = false → step s = .next t →
    TxBudget t ∧ ∃ bs : List Byte, txStream t = txStream s ++ bs.map some ∧
      (foregroundTurn (nextTurn s).1 = false → bs = [])

/-- 43 R212 (D20): "every byte accepted by `SUBMIT` eventually appears in `line_out`". On a truthful platform (43 R191), at
every moment of a run of the driver at which no SUBMIT is before its arm: everything accepted and not lost so far, as
`txStream` lists it, is on the line some time later, in order. The fairness is that of 70 R287, weak fairness of PLAT and
SYNC alone; handlers complete (60 R234 item 2). No more is asked where the line falls silent, since `line_in` is a finite
list (10 R39); where it is fed for ever, so that ON_RX_READY may be dispatched for ever, the other request is served as 60
R235 and R240 say (log 18). -/
def Obligations.AcceptedBytesAreEventuallySent : Prop :=
  ∀ (sch : Nat → Turn) (s : State), StateInv s → ArmKept s → TxBudget s → DriverRun sch s → WeaklyFair sch s →
    LineFallsSilent sch s ∨ PendingIsDispatched sch s →
    ∀ n, inArmWindow (trajectory sch s n) = false →
      ∃ m, n ≤ m ∧ txStream (trajectory sch s n) <+: (trajectory sch s m).plat.lineOut.map some

/-- 70 R285 (D26): in a quiescent state the TX ring is empty and disarmed, and all that was accepted has been sent. -/
def Obligations.QuiescentMeansAllSent : Prop :=
  ∀ s : State, StateInv s → ArmKept s → Quiescent s →
    trueLen .tx s = 0 ∧ s.txArmed = false ∧ s.plat.txFlag = true ∧ txStream s = s.plat.lineOut.map some

/-- 10 R22, 60 R245: the single-writer rule over all steps. A turn of neither FG nor SYNC leaves `tx.write_index`, the TX
storage, `rx.read_index` and `fg_seq` as they are; a turn that is neither a handler's, nor a command of the interrupt side,
nor a dispatch leaves `tx.read_index`, `rx.write_index`, the RX storage, `rx_overrun_count` and `isr_seq`. -/
def Obligations.EachFieldHasOneWriter : Prop :=
  ∀ (s t : State), StateInv s → step s = .next t →
    ((∀ p a g, (nextTurn s).1 = .command p a g → a ≠ .fg) → (nextTurn s).1 ≠ .micro .fg →
      t.tx.writeIndex = s.tx.writeIndex ∧ t.tx.storage = s.tx.storage ∧ t.rx.readIndex = s.rx.readIndex ∧
        t.fgSeq = s.fgSeq) ∧
    ((∀ p a g, (nextTurn s).1 = .command p a g → a = .fg ∨ a = .sync) → (nextTurn s).1 ≠ .micro .isr →
      (∀ src, (nextTurn s).1 ≠ .dispatch src) →
      t.tx.readIndex = s.tx.readIndex ∧ t.rx.writeIndex = s.rx.writeIndex ∧ t.rx.storage = s.rx.storage ∧
        t.overrun = s.overrun ∧ t.isrSeq = s.isrSeq)

/-- 10 R27: no step changes a capacity or any other construction-time argument. -/
def Obligations.ParametersNeverChange : Prop :=
  ∀ s t : State, step s = .next t → t.cfg = s.cfg

/-- 20 R81: no operation of one ring reads or writes state of the other. Replacing the TX ring by any other changes nothing
in what an operation on the RX ring does, and it leaves that ring as it finds it; and the other way round. -/
def Obligations.RingsAreIndependent : Prop :=
  ∀ (s : State) (x : Ring),
    (∀ i, i ∈ [Instr.tryReceive, .drainReceived, .onRxReady, .pop .rx, .len .rx, .isEmpty .rx, .isFull .rx] ∨
        (∃ b, i = .push .rx b) →
      exec i (s.setRing .tx x) = withRing .tx x (exec i s)) ∧
    (∀ i, i ∈ [Instr.onTxReady, .pop .tx, .len .tx, .isEmpty .tx, .isFull .tx] ∨
        (∃ b, i = .push .tx b) ∨ (∃ bytes, i = .submit bytes) →
      exec i (s.setRing .rx x) = withRing .rx x (exec i s))

/-! ## Turns: the handlers' entry and return, the synchroniser, the platform -/

/-- 60 R230, R231, R238 (D2, D20): a dispatch turn starts the handler exactly if its source is requested (43 R211) and
no handler runs, and changes only `isr_seq`; otherwise nothing happens. That the handler's locals are 0 until X0 or Y0
assigns them is the model's choice, no rule's (log 25; 10 R37 gives them no value there). -/
def Obligations.DispatchEntersRequestedHandler : Prop :=
  ∀ s : State,
    runTurn (.dispatch .txReady) s =
      .next (if s.plat.txFlag = true ∧ s.txArmed = true ∧ s.isrSeq = .idle
        then { s with isrSeq := .busy (.onTxReady 0 0 .x0) } else s) ∧
    runTurn (.dispatch .rxReady) s =
      .next (if s.plat.rxFlag = true ∧ s.isrSeq = .idle
        then { s with isrSeq := .busy (.onRxReady 0 0 .y0) } else s)

/-- 60 R239: a handler returns at its last micro-step, X5 or Y6: `isr_seq <- IDLE`, and nothing is restored. -/
def Obligations.HandlerReturnSetsIdle : Prop :=
  ∀ s : State,
    (∀ free sent, s.isrSeq = .busy (.onTxReady free sent .x5) → runTurn (.micro .isr) s =
      .next { s with isrSeq := .idle, results := s.results ++ [⟨.isrTx, .ok, .none⟩] }) ∧
    (∀ n i, s.isrSeq = .busy (.onRxReady n i .y6) → runTurn (.micro .isr) s =
      .next { s with isrSeq := .idle, results := s.results ++ [⟨.isrRx, .ok, .none⟩] })

/-- 60 R234 items 1 and 3, 20 R82: while a handler runs, FG takes no micro-step and starts no command, no interrupt context
starts a command, and no handler is dispatched. That FG does not step beside a handler is the reading the model takes (log
19); that the turn then changes nothing, and a command waits on its port, is the model's choice (log 4, log 11). -/
def Obligations.RunningHandlerExcludesOthers : Prop :=
  ∀ s : State, s.isrSeq ≠ .idle →
    runTurn (.micro .fg) s = .next s ∧
    (∀ p a g, a ≠ .sync → runTurn (.command p a g) s = .next s) ∧
    ∀ src, runTurn (.dispatch src) s = .next s

/-- 20 R73, R74, R75 (D3): the synchroniser's four steps, each enabled as listed; without lag SYNC has no step. -/
def Obligations.SynchroniserCopiesWholeIndex : Prop :=
  ∀ s : State,
    (s.cfg.syncLag = false → ∀ x, runTurn (.sync x) s = .next s) ∧
    (s.cfg.syncLag = true →
      runTurn (.sync .txr) s = .next { s with tx := { s.tx with rdSeen := s.tx.readIndex } } ∧
      runTurn (.sync .rxw) s = .next { s with rx := { s.rx with wrSeen := s.rx.writeIndex } } ∧
      runTurn (.sync .rxr) s = .next { s with rx := { s.rx with rdSeen := s.rx.readIndex } } ∧
      (s.txArmReq = false →
        runTurn (.sync .txw) s = .next { s with tx := { s.tx with wrSeen := s.tx.writeIndex } }) ∧
      (s.txArmReq = true →
        runTurn (.sync .txw) s = .next { s with
          tx := { s.tx with wrSeen := s.tx.writeIndex }
          txArmed := true
          txArmReq := false
          trace := s.trace ++ [.setEnabled true] }))

/-- 42 R170, R171 (D8, D10): ARM_TX is a blind set, under lag only a request; DISARM_TX clears exactly if the interrupt side
sees the TX ring empty, in the same micro-step. -/
def Obligations.ArmIsBlindDisarmTestsEmptiness : Prop :=
  ∀ s : State,
    (s.cfg.syncLag = false → armTx s = { s with txArmed := true, trace := s.trace ++ [.setEnabled true] }) ∧
    (s.cfg.syncLag = true → armTx s = { s with txArmReq := true }) ∧
    (s.tx.wrSeen = s.tx.readIndex →
      disarmTx s = { s with txArmed := false, trace := s.trace ++ [.setEnabled false] }) ∧
    (s.tx.wrSeen ≠ s.tx.readIndex → disarmTx s = s) ∧
    ∀ free sent, s.isrSeq = .busy (.onTxReady free sent .x1) → s.tx.wrSeen = s.tx.readIndex →
      runTurn (.micro .isr) s = .next { s with
        txArmed := false
        trace := s.trace ++ [.setEnabled false]
        isrSeq := .busy (.onTxReady free sent .x4) }

/-- 43 R206 to R210 (D20): the reference platform's steps. The flags are levels; a byte that arrives at a full FIFO is lost
and sets the overflow flag. -/
def Obligations.PlatformStepsAreAsListed : Prop :=
  ∀ (s : State) (h : Byte) (l : List Byte),
    (s.plat.txFifo = h :: l → runTurn (.plat .txShift) s =
      .next (s.setPlat { s.plat with txFifo := l, lineOut := s.plat.lineOut ++ [h] })) ∧
    (s.plat.txFifo = [] → runTurn (.plat .txShift) s = .next s) ∧
    runTurn (.plat .txFlag) s =
      .next (s.setPlat { s.plat with
        txFlag := s.plat.txFlag || decide (s.plat.txFifo.length ≤ s.cfg.txLevel) }) ∧
    runTurn (.plat .rxFlag) s =
      .next (s.setPlat { s.plat with
        rxFlag := s.plat.rxFlag || decide (s.cfg.rxLevel ≤ s.plat.rxFifo.length) }) ∧
    (s.plat.lineIn = h :: l → s.plat.rxFifo.length < s.cfg.fifoRxCap → runTurn (.plat .rxArrive) s =
      .next (s.setPlat { s.plat with lineIn := l, rxFifo := s.plat.rxFifo ++ [h] })) ∧
    (s.plat.lineIn = h :: l → s.cfg.fifoRxCap ≤ s.plat.rxFifo.length → runTurn (.plat .rxArrive) s =
      .next (s.setPlat { s.plat with lineIn := l, rxOvfFlag := true })) ∧
    (s.plat.lineIn = [] → runTurn (.plat .rxArrive) s = .next s)

/-! ## Arithmetic -/

/-- 40 R120: the increment and the difference, in their two forms; the difference is the mathematical `(a - b) mod CAP`;
for a capacity that is a power of two `mod CAP` is masking with `CAP - 1`. (And 40 R123: `dec` undoes `inc`.) -/
def Obligations.CircularIndexArithmetic : Prop :=
  ∀ cap i j : Nat, i < cap → j < cap →
    inc cap i = (i + 1) % cap ∧ (i < cap - 1 → inc cap i = i + 1) ∧ (i = cap - 1 → inc cap i = 0) ∧
    Machine.dist cap i j = (i + cap - j) % cap ∧ (j ≤ i → Machine.dist cap i j = i - j) ∧
    (i < j → Machine.dist cap i j = i + cap - j) ∧ ((Machine.dist cap i j : Nat) : Int) = ((i : Int) - (j : Int)) % (cap : Int) ∧
    dec cap (inc cap i) = i ∧ inc cap (dec cap i) = i ∧
    ∀ k, cap = 2 ^ k → ∀ n, n % cap = n &&& (cap - 1)

/-! ## Frames -/

/-- What PUSH and POP on a ring leave alone at the grain `whole`: the other ring; of its own ring the other side's index and
view; every flag, the counter, both sequencers, the platform, the trace (40 R124, R127: "Flags written: none"; 43 R199:
no capability call), the ports, the schedule. POP stores to no cell; PUSH at most to cell `write_index`. -/
def Obligations.PushAndPopFrame : Prop :=
  ∀ (i : Instr) (r : RingId) (s t : State), (i = .pop r ∨ ∃ b, i = .push r b) → s.issue.grain = .whole →
    exec i s = .next t →
    (∀ q, q ≠ r → t.ring q = s.ring q) ∧
    t.txArmed = s.txArmed ∧ t.txArmReq = s.txArmReq ∧ t.overrun = s.overrun ∧ t.fgSeq = s.fgSeq ∧
    t.isrSeq = s.isrSeq ∧ t.plat = s.plat ∧ t.trace = s.trace ∧ t.ports = s.ports ∧ t.turns = s.turns ∧
    t.issue = s.issue ∧ t.cfg = s.cfg ∧
    (i = .pop r → (t.ring r).writeIndex = (s.ring r).writeIndex ∧ (t.ring r).wrSeen = (s.ring r).wrSeen ∧
      ∀ q a, t.cell q a = s.cell q a) ∧
    ((∃ b, i = .push r b) → (t.ring r).readIndex = (s.ring r).readIndex ∧ (t.ring r).rdSeen = (s.ring r).rdSeen ∧
      t.freeCount = s.freeCount ∧ ∀ q a, ¬ (q = r ∧ a = (s.ring r).writeIndex) → t.cell q a = s.cell q a)

/-- What the length queries and the capability operations leave alone: both rings and so every cell, the request bit, the
counter, both sequencers, the ports and the schedule. Only HW_SET_TX_INTERRUPT_ENABLED writes `tx_armed`; the
queries make no capability call and leave the platform alone (40 R129; 43 R190 to R197, R199). -/
def Obligations.QueryAndCapabilityFrame : Prop :=
  ∀ (i : Instr) (s t : State),
    ((∃ r, i = .len r ∨ i = .isEmpty r ∨ i = .isFull r) ∨ i.mnemonic.port = .cap) → exec i s = .next t →
    t.rx = s.rx ∧ t.tx = s.tx ∧ (∀ q a, t.cell q a = s.cell q a) ∧ t.txArmReq = s.txArmReq ∧ t.overrun = s.overrun ∧
    t.fgSeq = s.fgSeq ∧ t.isrSeq = s.isrSeq ∧ t.ports = s.ports ∧ t.turns = s.turns ∧ t.issue = s.issue ∧
    t.cfg = s.cfg ∧ t.plat.lineOut = s.plat.lineOut ∧ t.plat.lineIn = s.plat.lineIn ∧
    ((∀ e, i ≠ .hwSetTxInterruptEnabled e) → t.txArmed = s.txArmed) ∧
    (i ≠ .hwClearTxInterruptFlag → t.plat.txFlag = s.plat.txFlag) ∧
    (i ≠ .hwClearRxInterruptFlag → t.plat.rxFlag = s.plat.rxFlag) ∧
    (i ≠ .hwClearRxOverflowFlag → t.plat.rxOvfFlag = s.plat.rxOvfFlag) ∧
    ((∀ b, i ≠ .hwTxFifoWrite b) → t.plat.txFifo = s.plat.txFifo) ∧
    (i ≠ .hwRxFifoRead → t.plat.rxFifo = s.plat.rxFifo ∧ t.freeCount = s.freeCount) ∧
    (i.mnemonic.port ≠ .cap → t.plat = s.plat ∧ t.trace = s.trace)

/-- What the foreground operations leave alone at the grain `whole` (41 R140, R145, R147: "State written"; 60 R245): the
interrupt side's indices and sequencer, the counter, the platform's FIFOs and flags; SUBMIT leaves the RX ring alone and
stores only to the cells from `tx.write_index` on, as many as the room it sees; the receiving operations leave the TX
ring, the armed flag, every cell and the trace alone (43 R199). -/
def Obligations.ForegroundFrame : Prop :=
  ∀ (i : Instr) (s t : State), (i = .tryReceive ∨ i = .drainReceived ∨ ∃ bytes, i = .submit bytes) → StateInv s →
    s.issue.grain = .whole → exec i s = .next t →
    t.tx.readIndex = s.tx.readIndex ∧ t.tx.rdSeen = s.tx.rdSeen ∧ t.rx.writeIndex = s.rx.writeIndex ∧
    t.rx.wrSeen = s.rx.wrSeen ∧ t.overrun = s.overrun ∧ t.fgSeq = s.fgSeq ∧ t.isrSeq = s.isrSeq ∧ t.plat = s.plat ∧
    t.ports = s.ports ∧ t.turns = s.turns ∧ t.issue = s.issue ∧ t.cfg = s.cfg ∧ t.freeCount = s.freeCount ∧
    (i = .tryReceive ∨ i = .drainReceived → t.tx = s.tx ∧ t.txArmed = s.txArmed ∧ t.txArmReq = s.txArmReq ∧
      t.trace = s.trace ∧ ∀ q a, t.cell q a = s.cell q a) ∧
    (∀ bytes, i = .submit bytes → t.rx = s.rx ∧
      ∀ q a, (∀ j < min bytes.length (roomSeen .tx s), ¬ (q = .tx ∧ a = (s.tx.writeIndex + j) % s.cfg.txCap)) →
        t.cell q a = s.cell q a)

/-- What the handlers leave alone at the grain `whole` (42 R160, R174: "State written"; 60 R245): the foreground's indices,
the request bit and FG's sequencer; ON_TX_READY leaves the RX side, its FIFO and its flags and every cell alone; ON_RX_READY
leaves the TX side, `tx_armed` and the TX FIFO and flag alone, and stores only to the cells from `rx.write_index` on, as
many as fit. -/
def Obligations.HandlerFrame : Prop :=
  ∀ (i : Instr) (s t : State), (i = .onTxReady ∨ i = .onRxReady) → StateInv s → s.issue.grain = .whole →
    exec i s = .next t →
    t.tx.writeIndex = s.tx.writeIndex ∧ t.tx.wrSeen = s.tx.wrSeen ∧ t.rx.readIndex = s.rx.readIndex ∧
    t.rx.rdSeen = s.rx.rdSeen ∧ t.txArmReq = s.txArmReq ∧ t.fgSeq = s.fgSeq ∧ t.isrSeq = s.isrSeq ∧
    t.ports = s.ports ∧ t.turns = s.turns ∧ t.issue = s.issue ∧ t.cfg = s.cfg ∧ t.plat.lineOut = s.plat.lineOut ∧
    t.plat.lineIn = s.plat.lineIn ∧
    (i = .onTxReady → t.rx = s.rx ∧ t.overrun = s.overrun ∧ t.freeCount = s.freeCount ∧
      t.plat.rxFifo = s.plat.rxFifo ∧ t.plat.rxFlag = s.plat.rxFlag ∧ t.plat.rxOvfFlag = s.plat.rxOvfFlag ∧
      ∀ q a, t.cell q a = s.cell q a) ∧
    (i = .onRxReady → t.tx = s.tx ∧ t.txArmed = s.txArmed ∧ t.plat.txFifo = s.plat.txFifo ∧
      t.plat.txFlag = s.plat.txFlag ∧
      ∀ q a, (∀ j < min (occAnswer s) (roomSeen .rx s), ¬ (q = .rx ∧ a = (s.rx.writeIndex + j) % s.cfg.rxCap)) →
        t.cell q a = s.cell q a)
end

