-- ==== Sys2Proof/Laws/Decode.lean ====
section
/-! SUPPORT. A word as its two bytes, what a row of the opcode table sees of it, and the payload words: enough to
decide a fact about all words by cases on the high byte and on whether the low byte is 0, 1 or more. -/

namespace Sys2Proof

-- Proofs are checked one after another, so that the package as one text needs few threads.
set_option Elab.async false

/-! ## A word as two bytes -/

/-- Bits 15:8. -/
def hi8 (w : Word) : Byte := w.extractLsb' 8 8

theorem hi8_append_imm8 (w : Word) : hi8 w ++ imm8 w = w := by
  refine BitVec.eq_of_getLsbD_eq fun i hi => ?_
  simp only [hi8, imm8, BitVec.getLsbD_append, BitVec.getLsbD_extractLsb']
  by_cases h : i < 8
  · simp [h]
  · have h1 : i - 8 < 8 := by omega
    have h2 : 8 + (i - 8) = i := by omega
    simp [h, h1, h2]

theorem getLsbD_append8 (h l : Byte) (i : Nat) :
    ((h ++ l : BitVec (8 + 8)) : Word).getLsbD i = if i < 8 then l.getLsbD i else h.getLsbD (i - 8) := by
  rw [show ((h ++ l : BitVec (8 + 8)) : Word).getLsbD i = _ from BitVec.getLsbD_append]

theorem imm8_append (h l : Byte) : imm8 (h ++ l) = l := by
  refine BitVec.eq_of_getLsbD_eq fun i hi => ?_
  simp only [imm8, BitVec.getLsbD_extractLsb', getLsbD_append8, Nat.zero_add, hi, if_true, decide_true, Bool.true_and]

theorem hi8_append (h l : Byte) : hi8 (h ++ l) = h := by
  refine BitVec.eq_of_getLsbD_eq fun i hi => ?_
  have h1 : ¬ 8 + i < 8 := by omega
  simp only [hi8, BitVec.getLsbD_extractLsb', getLsbD_append8, h1, hi, if_false, decide_true, Bool.true_and,
    Nat.add_sub_cancel_left]

/-- A masked comparison of words is one of the high bytes and one of the low bytes. -/
theorem and_eq_iff (w m c : Word) :
    w &&& m = c ↔ hi8 w &&& hi8 m = hi8 c ∧ imm8 w &&& imm8 m = imm8 c := by
  constructor
  · rintro rfl
    constructor <;> refine BitVec.eq_of_getLsbD_eq fun i hi => ?_ <;>
      simp [hi8, imm8, hi]
  · rintro ⟨h1, h2⟩
    rw [← hi8_append_imm8 c, ← h1, ← h2]
    refine BitVec.eq_of_getLsbD_eq fun i hi => ?_
    simp only [hi8, imm8, BitVec.getLsbD_append, BitVec.getLsbD_extractLsb', BitVec.getLsbD_and]
    by_cases h : i < 8
    · simp [h]
    · have h3 : i - 8 < 8 := by omega
      have h4 : 8 + (i - 8) = i := by omega
      simp [h, h3, h4]

/-- A property of all bytes, by a decision over the 256 of them. -/
theorem forall_byte (P : Byte → Bool) (h : (List.range 256).all (fun n => P (BitVec.ofNat 8 n)) = true) (b : Byte) :
    P b = true := by
  simpa using List.all_eq_true.mp h b.toNat (by simpa using b.isLt)

/-! ## What a row sees of a low byte -/

/-- 0, 1 or more: all that the masks of the table tell apart in a low byte (30 R95). -/
def lowClass (l : Byte) : Byte := if l = 0 then 0 else if l = 1 then 1 else 2

theorem lowClass_cases (l : Byte) : lowClass l = 0 ∨ lowClass l = 1 ∨ lowClass l = 2 := by
  unfold lowClass; split <;> [simp; (split <;> simp)]

theorem lowClass_exact {l : Byte} (h : lowClass l ≠ 2) : lowClass l = l := by
  unfold lowClass at *; split at h <;> [simp_all; (split at h <;> simp_all)]

theorem imm8_zero_iff (l : Byte) : lowClass l = 0 ↔ l = 0 := by
  unfold lowClass; split <;> [simp_all; (split <;> simp_all)]

theorem low_masked (l : Byte) : ∀ m ∈ [0x00#8, 0xFE#8, 0xFF#8], (l &&& m = 0#8 ↔ lowClass l &&& m = 0#8) := by
  have := forall_byte (fun l => [0x00#8, 0xFE#8, 0xFF#8].all fun m => (l &&& m == 0#8) == (lowClass l &&& m == 0#8))
    (by decide +kernel) l
  intro m hm
  simpa using List.all_eq_true.mp this m hm

/-- A row sees of a word its high byte and the class of its low byte. -/
theorem selects_class (q : Row) (hq : q ∈ payloadRow :: operationRows) (w : Word) :
    q.selects w = q.selects (hi8 w ++ lowClass (imm8 w)) := by
  have rows : ∀ q ∈ payloadRow :: operationRows, imm8 q.code = 0 ∧ imm8 q.mask ∈ [0x00#8, 0xFE#8, 0xFF#8] := by decide
  obtain ⟨hc, hm⟩ := rows q hq
  rw [Bool.eq_iff_iff]
  simp only [Row.selects, beq_iff_eq, and_eq_iff, hi8_append, imm8_append, hc]
  exact and_congr_right fun _ => low_masked (imm8 w) _ hm

theorem findRow_class (w : Word) : findRow w = findRow (hi8 w ++ lowClass (imm8 w)) := by
  unfold findRow
  have congr : ∀ l : List Row, (∀ q ∈ l, q ∈ payloadRow :: operationRows) →
      l.find? (·.selects w) = l.find? (·.selects (hi8 w ++ lowClass (imm8 w))) := by
    intro l
    induction l with
    | nil => intro _; rfl
    | cons q l ih =>
      intro h
      simp only [List.find?_cons, selects_class q (h q (by simp)) w, ih fun x hx => h x (by simp [hx])]
  exact congr operationRows fun q hq => by simp [hq]

/-- A fact about all high bytes and the three classes, by a decision. -/
theorem forall_class (P : Byte → Byte → Bool)
    (h : (List.range 256).all (fun n => P (BitVec.ofNat 8 n) 0 && P (BitVec.ofNat 8 n) 1 && P (BitVec.ofNat 8 n) 2) = true)
    (w : Word) : P (hi8 w) (lowClass (imm8 w)) = true := by
  have := forall_byte (fun b => P b 0 && P b 1 && P b 2) h (hi8 w)
  simp only [Bool.and_eq_true] at this
  rcases lowClass_cases (imm8 w) with e | e | e <;> rw [e]
  exacts [this.1.1, this.1.2, this.2]

/-! ## Rows and headers -/

theorem findRow_mem {w : Word} {q : Row} (h : findRow w = some q) : q ∈ operationRows ∧ q.selects w = true :=
  ⟨List.mem_of_find?_eq_some h, by simpa using List.find?_some h⟩

/-- The row is known from the word's high byte, if there is one. -/
theorem findRow_hi {w : Word} {q : Row} (h : findRow w = some q) : hi8 w &&& hi8 q.mask = hi8 q.code := by
  have := (findRow_mem h).2
  simp only [Row.selects, beq_iff_eq, and_eq_iff] at this
  exact this.1

/-- Only SUBMIT's row is a SUBMIT, and it is the row of the words `0x1000` to `0x10FF` (30 R95, R109). -/
theorem findRow_submit (w : Word) :
    w &&& 0xFF00#16 = 0x1000#16 ↔ findRow w = some ⟨.submit, 0x1000, 0xFF00⟩ := by
  have := forall_class (fun h c => (h == 0x10#8) == (findRow (h ++ c) == some ⟨.submit, 0x1000, 0xFF00⟩))
    (by decide +kernel) w
  rw [← findRow_class] at this
  have e : w &&& 0xFF00#16 = 0x1000#16 ↔ hi8 w = 0x10#8 := by
    rw [and_eq_iff]
    have h1 : hi8 0xFF00#16 = BitVec.allOnes 8 := by decide
    have h2 : hi8 0x1000#16 = 0x10#8 := by decide
    have h3 : imm8 0xFF00#16 = 0#8 := by decide
    have h4 : imm8 0x1000#16 = 0#8 := by decide
    rw [h1, h2, h3, h4, BitVec.and_allOnes]; simp
  rw [e]
  rw [beq_iff_eq, Bool.eq_iff_iff, beq_iff_eq, beq_iff_eq] at this
  exact this

theorem findRow_submit_op {w : Word} {q : Row} (h : findRow w = some q) :
    q.op = .submit ↔ w &&& 0xFF00#16 = 0x1000#16 := by
  have one : ∀ q ∈ operationRows, q.op = .submit → q = ⟨.submit, 0x1000, 0xFF00⟩ := by decide
  rw [findRow_submit]
  constructor
  · intro hs; rw [h, one q (findRow_mem h).1 hs]
  · intro hs; rw [h] at hs; cases hs; rfl

/-- A header written by the encoder, as its two bytes. -/
theorem headWord_append (h b : Byte) : headWord (h ++ 0#8) b = h ++ b := by
  unfold headWord
  refine BitVec.eq_of_getLsbD_eq fun i hi => ?_
  simp only [BitVec.getLsbD_or, BitVec.getLsbD_append, BitVec.getLsbD_setWidth]
  by_cases h8 : i < 8
  · simp [h8, hi]
  · have : b.getLsbD i = false := BitVec.getLsbD_of_ge _ _ (by omega)
    simp [h8, this]

theorem imm8_headWord (h b : Byte) : imm8 (headWord (h ++ 0#8) b) = b := by rw [headWord_append, imm8_append]

theorem findRow_headWord_submit (b : Byte) : findRow (headWord 0x1000#16 b) = some ⟨.submit, 0x1000, 0xFF00⟩ := by
  rw [show (0x1000#16 : Word) = 0x10#8 ++ 0#8 by decide, headWord_append, findRow_class, hi8_append, imm8_append]
  rcases lowClass_cases b with e | e | e <;> rw [e] <;> decide

theorem findRow_headWord_write (b : Byte) : findRow (headWord 0xE100#16 b) = some ⟨.hwTxFifoWrite, 0xE100, 0xFF00⟩ := by
  rw [show (0xE100#16 : Word) = 0xE1#8 ++ 0#8 by decide, headWord_append, findRow_class, hi8_append, imm8_append]
  rcases lowClass_cases b with e | e | e <;> rw [e] <;> decide

theorem findRow_ringWord_push (r : RingId) (b : Byte) :
    findRow (ringWord 0x8000#16 r b) = some ⟨.push, 0x8000, 0xFE00⟩ ∧ imm8 (ringWord 0x8000#16 r b) = b ∧
      ringField (ringWord 0x8000#16 r b) = r := by
  have key : ∀ h : Byte, h = 0x80#8 ∨ h = 0x81#8 → findRow (headWord (h ++ 0#8) b) = some ⟨.push, 0x8000, 0xFE00⟩ ∧
      imm8 (headWord (h ++ 0#8) b) = b ∧ (headWord (h ++ 0#8) b).getLsbD 8 = h.getLsbD 0 := by
    intro h hh
    rw [headWord_append, imm8_append, findRow_class, hi8_append, imm8_append]
    refine ⟨?_, rfl, getLsbD_append8 h b 8⟩
    rcases hh with rfl | rfl <;> rcases lowClass_cases b with e | e | e <;> rw [e] <;> decide
  cases r with
  | rx =>
    have := key 0x80#8 (.inl rfl)
    refine ⟨this.1, this.2.1, ?_⟩
    have h3 : (ringWord 0x8000#16 .rx b).getLsbD 8 = (0x80#8).getLsbD 0 := this.2.2
    unfold ringField; rw [h3]; rfl
  | tx =>
    have := key 0x81#8 (.inr rfl)
    refine ⟨this.1, this.2.1, ?_⟩
    have h3 : (ringWord 0x8000#16 .tx b).getLsbD 8 = (0x81#8).getLsbD 0 := this.2.2
    unfold ringField; rw [h3]; rfl

/-! ## Payload words (30 R94, R97) -/

theorem decodePayloadWord_eq (w : Word) : decodePayloadWord w = if w &&& 0xFF00#16 = 0#16 then some (imm8 w) else none := by
  simp [decodePayloadWord, Row.selects, payloadRow]

theorem decodePayloadWord_headWord (b : Byte) : decodePayloadWord (headWord 0#16 b) = some b := by
  have e : headWord 0#16 b = 0#8 ++ b := headWord_append 0#8 b
  have hm : hi8 0xFF00#16 = BitVec.allOnes 8 ∧ imm8 0xFF00#16 = 0#8 ∧ hi8 0#16 = 0#8 ∧ imm8 0#16 = 0#8 := by decide
  rw [e, decodePayloadWord_eq, if_pos, imm8_append]
  rw [and_eq_iff, hi8_append, imm8_append, hm.1, hm.2.1, hm.2.2.1, hm.2.2.2, BitVec.and_allOnes]; simp

theorem headWord_of_decodePayloadWord {w : Word} {b : Byte} (h : decodePayloadWord w = some b) : w = headWord 0#16 b := by
  have hm : hi8 0xFF00#16 = BitVec.allOnes 8 ∧ hi8 0#16 = 0#8 := by decide
  rw [decodePayloadWord_eq] at h
  split at h
  · rename_i hw
    cases h
    rw [and_eq_iff, hm.1, hm.2, BitVec.and_allOnes] at hw
    have h0 : hi8 w = 0#8 := hw.1
    rw [show headWord 0#16 (imm8 w) = 0#8 ++ imm8 w from headWord_append 0#8 _, ← h0, hi8_append_imm8]
  · cases h

theorem decodePayload_map (bs : List Byte) : decodePayload (bs.map (headWord 0#16)) = some bs := by
  induction bs with
  | nil => rfl
  | cons b bs ih => simp only [List.map_cons, decodePayload, ih, decodePayloadWord_headWord]

theorem map_of_decodePayload {ws : List Word} {bs : List Byte} (h : decodePayload ws = some bs) :
    ws = bs.map (headWord 0#16) := by
  induction ws generalizing bs with
  | nil => simp only [decodePayload, Option.some.injEq] at h; subst h; rfl
  | cons w ws ih =>
    simp only [decodePayload] at h
    split at h
    · rename_i b bs' hb hbs
      cases h
      simp only [List.map_cons, ← ih hbs, ← headWord_of_decodePayloadWord hb]
    · cases h

theorem decodePayload_none {ws : List Word} (h : ∃ w ∈ ws, w &&& 0xFF00#16 ≠ 0#16) : decodePayload ws = none := by
  cases hd : decodePayload ws with
  | none => rfl
  | some bs =>
    exfalso
    obtain ⟨w, hw, hne⟩ := h
    rw [map_of_decodePayload hd] at hw
    obtain ⟨b, -, rfl⟩ := List.mem_map.mp hw
    have := decodePayloadWord_headWord b
    rw [decodePayloadWord_eq, if_neg hne] at this
    cases this

end Sys2Proof
end

