-- ==== Sys2Proof/Laws/Index.lean ====
section
/-! SUPPORT. The laws of the circular index arithmetic (40_ring_ops.md R120 to R123), each stated without `mod`. -/

namespace Sys2Proof.Machine

-- Proofs are checked one after another, so that the package as one text needs few threads.
set_option Elab.async false

theorem inc_eq (cap i : Nat) (h : i < cap) : inc cap i = if i + 1 = cap then 0 else i + 1 := by
  unfold inc
  split
  case isTrue h1 => simp [h1]
  case isFalse h1 => exact Nat.mod_eq_of_lt (by omega)

theorem dist_eq (cap a b : Nat) (ha : a < cap) (hb : b < cap) : dist cap a b = if b ≤ a then a - b else a + cap - b := by
  unfold dist
  split
  case isTrue h1 =>
    have : a + cap - b = (a - b) + cap := by omega
    rw [this, Nat.add_mod_right]
    exact Nat.mod_eq_of_lt (by omega)
  case isFalse h1 => exact Nat.mod_eq_of_lt (by omega)

theorem dec_eq (cap i : Nat) (h : i < cap) : dec cap i = if i = 0 then cap - 1 else i - 1 := by
  unfold dec
  split
  case isTrue h1 =>
    subst h1
    rw [Nat.zero_add]
    exact Nat.mod_eq_of_lt (by omega)
  case isFalse h1 =>
    have : i + cap - 1 = (i - 1) + cap := by omega
    rw [this, Nat.add_mod_right]
    exact Nat.mod_eq_of_lt (by omega)

/-- Moving `j` cells on from `i`, with `j` below the capacity. -/
theorem add_mod_eq (cap i j : Nat) (hi : i < cap) (hj : j < cap) :
    (i + j) % cap = if i + j < cap then i + j else i + j - cap := by
  split
  case isTrue h => exact Nat.mod_eq_of_lt h
  case isFalse h =>
    rw [Nat.mod_eq_sub_mod (by omega)]
    exact Nat.mod_eq_of_lt (by omega)

theorem inc_lt (cap i : Nat) (h : i < cap) : inc cap i < cap := Nat.mod_lt _ (by omega)

theorem dist_lt (cap a b : Nat) (h : 0 < cap) : dist cap a b < cap := Nat.mod_lt _ h

theorem dist_self (cap a : Nat) : dist cap a a = 0 := by simp [dist]

theorem dist_eq_zero (cap a b : Nat) (ha : a < cap) (hb : b < cap) : dist cap a b = 0 ↔ a = b := by
  rw [dist_eq cap a b ha hb]; split <;> omega

/-- A ring is full exactly when the next write would meet the reader (10 R30). -/
theorem inc_eq_iff_full (cap a b : Nat) (hc : 2 ≤ cap) (ha : a < cap) (hb : b < cap) :
    inc cap a = b ↔ dist cap a b = cap - 1 := by
  rw [inc_eq cap a ha, dist_eq cap a b ha hb]; split <;> split <;> omega

/-- The three gaps of the view order are the one from `rd_seen` to `write_index` (10 R34). -/
theorem Ring.span_eq (cap : Nat) (x : Ring) (h : x.InRange cap) (ho : x.Ordered cap) :
    x.span cap = dist cap x.writeIndex x.rdSeen := by
  obtain ⟨h1, h2, h3, h4⟩ := h
  unfold Ring.Ordered Ring.span at *
  rw [dist_eq _ _ _ h1 h3, dist_eq _ _ _ h4 h1, dist_eq _ _ _ h2 h4] at *
  rw [dist_eq _ _ _ h2 h3]
  split_ifs at ho ⊢ <;> omega

end Sys2Proof.Machine
end

