-- ==== Sys2Proof/Laws/Memory.lean ====
section
/-! SUPPORT. The laws of a ring's storage: read after write, and the canonical form. -/

namespace Sys2Proof.Machine

-- Proofs are checked one after another, so that the package as one text needs few threads.
set_option Elab.async false

@[simp] theorem Memory.read_nil (i : Nat) : Memory.read [] i = none := rfl

theorem Memory.read_write_same (m : Memory) (i : Nat) (b : Byte) : (m.write i b).read i = some b := by
  induction m with
  | nil => simp [Memory.write, Memory.read]
  | cons c m ih =>
    obtain ⟨j, d⟩ := c
    by_cases h : i < j
    · simp [Memory.write, Memory.read, h]
    · by_cases h2 : i = j
      · simp [Memory.write, Memory.read, h2]
      · simp [Memory.write, Memory.read, h, h2, Ne.symm h2, ih]

theorem Memory.read_write_other (m : Memory) (i k : Nat) (b : Byte) (h : k ≠ i) : (m.write i b).read k = m.read k := by
  induction m with
  | nil =>
    have : i ≠ k := Ne.symm h
    simp [Memory.write, Memory.read, this]
  | cons c m ih =>
    obtain ⟨j, d⟩ := c
    have hik : i ≠ k := Ne.symm h
    by_cases h1 : i < j
    · by_cases h2 : k < i
      · have : k < j := by omega
        have hj : j ≠ k := by omega
        simp [Memory.write, Memory.read, h1, h2, hik, this, hj]
      · simp [Memory.write, Memory.read, h1, h2, hik]
    · by_cases h2 : i = j
      · subst h2
        by_cases h3 : k < i
        · simp [Memory.write, Memory.read, hik, h3]
        · simp [Memory.write, Memory.read, hik]
      · simp [Memory.write, Memory.read, h1, h2, ih]

/-- A write reads back at its own cell and leaves every other cell alone. -/
theorem Memory.read_write (m : Memory) (i k : Nat) (b : Byte) :
    (m.write i b).read k = if k = i then some b else m.read k := by
  by_cases h : k = i
  · simp [h, Memory.read_write_same]
  · simp [h, Memory.read_write_other m i k b h]

/-- The cells a write leaves listed: the old ones and the one written. -/
theorem Memory.mem_write (m : Memory) (i : Nat) (b : Byte) (c : Host.Cell) (h : c ∈ m.write i b) :
    c = (i, b) ∨ c ∈ m := by
  induction m with
  | nil => simpa [Memory.write] using h
  | cons d m ih =>
    obtain ⟨j, e⟩ := d
    simp only [Memory.write] at h
    split at h
    · simpa using h
    · split at h
      · rcases List.mem_cons.mp h with h | h
        · exact .inl h
        · exact .inr (List.mem_cons_of_mem _ h)
      · rcases List.mem_cons.mp h with h | h
        · exact .inr (h ▸ List.mem_cons_self)
        · exact (ih h).imp id (List.mem_cons_of_mem _)

/-- The canonical form says that each listed cell lies below all after it. -/
theorem Memory.wf_cons (i : Nat) (b : Byte) (m : Memory) :
    Memory.wf ((i, b) :: m) = true ↔ (∀ c ∈ m, i < c.1) ∧ m.wf = true := by
  induction m generalizing i b with
  | nil => simp [Memory.wf]
  | cons d m ih =>
    obtain ⟨j, e⟩ := d
    simp only [Memory.wf, Bool.and_eq_true, decide_eq_true_eq, List.mem_cons, forall_eq_or_imp]
    constructor
    · rintro ⟨h1, h2⟩
      exact ⟨⟨h1, fun c hc => Nat.lt_trans h1 (((ih j e).mp h2).1 c hc)⟩, h2⟩
    · rintro ⟨⟨h1, -⟩, h2⟩
      exact ⟨h1, h2⟩

/-- Every write keeps the canonical form. -/
theorem Memory.write_keeps_wf (m : Memory) (i : Nat) (b : Byte) (h : m.wf = true) : (m.write i b).wf = true := by
  induction m with
  | nil => rfl
  | cons d m ih =>
    obtain ⟨j, e⟩ := d
    have hm := (Memory.wf_cons j e m).mp h
    simp only [Memory.write]
    split
    case isTrue hij =>
      refine (Memory.wf_cons i b _).mpr ⟨fun c hc => ?_, h⟩
      rcases List.mem_cons.mp hc with rfl | hc
      · exact hij
      · exact Nat.lt_trans hij (hm.1 c hc)
    case isFalse hij =>
      split
      case isTrue heq => exact (Memory.wf_cons i b m).mpr ⟨fun c hc => heq ▸ hm.1 c hc, hm.2⟩
      case isFalse hne =>
        refine (Memory.wf_cons j e _).mpr ⟨fun c hc => ?_, ih hm.2⟩
        rcases Memory.mem_write m i b c hc with rfl | hc
        · simp only; omega
        · exact hm.1 c hc

/-- The memory operation of the machine keeps the canonical form, and only lists cells that exist. -/
theorem memWrite_keeps_wf (r : RingId) (i : Nat) (b : Byte) (s t : State) (h : memWrite r i b s = .ok t)
    (hwf : (s.ring r).storage.wf = true) (hin : ∀ c ∈ (s.ring r).storage, c.1 < s.cap r) :
    (t.ring r).storage.wf = true ∧ ∀ c ∈ (t.ring r).storage, c.1 < t.cap r := by
  unfold memWrite at h
  split at h
  case isTrue hi =>
    cases h
    cases r
    all_goals
      refine ⟨Memory.write_keeps_wf _ i b hwf, fun c hc => ?_⟩
      rcases Memory.mem_write _ i b c hc with rfl | hc
      · exact hi
      · exact hin c hc
  case isFalse => cases h

/-- Reset memory is in canonical form. -/
theorem reset_storage_wf (c : Config) (r : RingId) : ((State.resetWith c).ring r).storage.wf = true := by
  cases r <;> rfl

end Sys2Proof.Machine
end

