-- ==== Sys2Proof/Laws/State.lean ====
section
/-! SUPPORT. The small lemmas of State: one per field per named update, and how the updates of rings and sequencers
read back. -/

namespace Sys2Proof.Machine

-- Proofs are checked one after another, so that the package as one text needs few threads.
set_option Elab.async false

variable (s : State)

/-! `setArmed` -/

@[simp] theorem State.setArmed_cfg (v : Bool) : (s.setArmed v).cfg = s.cfg := rfl
@[simp] theorem State.setArmed_rx (v : Bool) : (s.setArmed v).rx = s.rx := rfl
@[simp] theorem State.setArmed_tx (v : Bool) : (s.setArmed v).tx = s.tx := rfl
@[simp] theorem State.setArmed_txArmed (v : Bool) : (s.setArmed v).txArmed = v := rfl
@[simp] theorem State.setArmed_txArmReq (v : Bool) : (s.setArmed v).txArmReq = s.txArmReq := rfl
@[simp] theorem State.setArmed_overrun (v : Bool) : (s.setArmed v).overrun = s.overrun := rfl
@[simp] theorem State.setArmed_fgSeq (v : Bool) : (s.setArmed v).fgSeq = s.fgSeq := rfl
@[simp] theorem State.setArmed_isrSeq (v : Bool) : (s.setArmed v).isrSeq = s.isrSeq := rfl
@[simp] theorem State.setArmed_plat (v : Bool) : (s.setArmed v).plat = s.plat := rfl
@[simp] theorem State.setArmed_trace (v : Bool) : (s.setArmed v).trace = s.trace := rfl
@[simp] theorem State.setArmed_results (v : Bool) : (s.setArmed v).results = s.results := rfl
@[simp] theorem State.setArmed_ports (v : Bool) : (s.setArmed v).ports = s.ports := rfl
@[simp] theorem State.setArmed_issue (v : Bool) : (s.setArmed v).issue = s.issue := rfl
@[simp] theorem State.setArmed_turns (v : Bool) : (s.setArmed v).turns = s.turns := rfl
@[simp] theorem State.setArmed_freeCount (v : Bool) : (s.setArmed v).freeCount = s.freeCount := rfl
@[simp] theorem State.setArmed_ring (v : Bool) (r : RingId) : (s.setArmed v).ring r = s.ring r := by cases r <;> rfl
@[simp] theorem State.setArmed_cap (v : Bool) (r : RingId) : (s.setArmed v).cap r = s.cap r := by cases r <;> rfl
@[simp] theorem State.setArmed_seq (v : Bool) (d : Side) : (s.setArmed v).seq d = s.seq d := by cases d <;> rfl
@[simp] theorem State.setArmed_cell (v : Bool) (r : RingId) (i : Nat) : (s.setArmed v).cell r i = s.cell r i := by cases r <;> rfl

/-! `setArmReq` -/

@[simp] theorem State.setArmReq_cfg (v : Bool) : (s.setArmReq v).cfg = s.cfg := rfl
@[simp] theorem State.setArmReq_rx (v : Bool) : (s.setArmReq v).rx = s.rx := rfl
@[simp] theorem State.setArmReq_tx (v : Bool) : (s.setArmReq v).tx = s.tx := rfl
@[simp] theorem State.setArmReq_txArmed (v : Bool) : (s.setArmReq v).txArmed = s.txArmed := rfl
@[simp] theorem State.setArmReq_txArmReq (v : Bool) : (s.setArmReq v).txArmReq = v := rfl
@[simp] theorem State.setArmReq_overrun (v : Bool) : (s.setArmReq v).overrun = s.overrun := rfl
@[simp] theorem State.setArmReq_fgSeq (v : Bool) : (s.setArmReq v).fgSeq = s.fgSeq := rfl
@[simp] theorem State.setArmReq_isrSeq (v : Bool) : (s.setArmReq v).isrSeq = s.isrSeq := rfl
@[simp] theorem State.setArmReq_plat (v : Bool) : (s.setArmReq v).plat = s.plat := rfl
@[simp] theorem State.setArmReq_trace (v : Bool) : (s.setArmReq v).trace = s.trace := rfl
@[simp] theorem State.setArmReq_results (v : Bool) : (s.setArmReq v).results = s.results := rfl
@[simp] theorem State.setArmReq_ports (v : Bool) : (s.setArmReq v).ports = s.ports := rfl
@[simp] theorem State.setArmReq_issue (v : Bool) : (s.setArmReq v).issue = s.issue := rfl
@[simp] theorem State.setArmReq_turns (v : Bool) : (s.setArmReq v).turns = s.turns := rfl
@[simp] theorem State.setArmReq_freeCount (v : Bool) : (s.setArmReq v).freeCount = s.freeCount := rfl
@[simp] theorem State.setArmReq_ring (v : Bool) (r : RingId) : (s.setArmReq v).ring r = s.ring r := by cases r <;> rfl
@[simp] theorem State.setArmReq_cap (v : Bool) (r : RingId) : (s.setArmReq v).cap r = s.cap r := by cases r <;> rfl
@[simp] theorem State.setArmReq_seq (v : Bool) (d : Side) : (s.setArmReq v).seq d = s.seq d := by cases d <;> rfl
@[simp] theorem State.setArmReq_cell (v : Bool) (r : RingId) (i : Nat) : (s.setArmReq v).cell r i = s.cell r i := by cases r <;> rfl

/-! `setOverrun` -/

@[simp] theorem State.setOverrun_cfg (v : Nat) : (s.setOverrun v).cfg = s.cfg := rfl
@[simp] theorem State.setOverrun_rx (v : Nat) : (s.setOverrun v).rx = s.rx := rfl
@[simp] theorem State.setOverrun_tx (v : Nat) : (s.setOverrun v).tx = s.tx := rfl
@[simp] theorem State.setOverrun_txArmed (v : Nat) : (s.setOverrun v).txArmed = s.txArmed := rfl
@[simp] theorem State.setOverrun_txArmReq (v : Nat) : (s.setOverrun v).txArmReq = s.txArmReq := rfl
@[simp] theorem State.setOverrun_overrun (v : Nat) : (s.setOverrun v).overrun = v := rfl
@[simp] theorem State.setOverrun_fgSeq (v : Nat) : (s.setOverrun v).fgSeq = s.fgSeq := rfl
@[simp] theorem State.setOverrun_isrSeq (v : Nat) : (s.setOverrun v).isrSeq = s.isrSeq := rfl
@[simp] theorem State.setOverrun_plat (v : Nat) : (s.setOverrun v).plat = s.plat := rfl
@[simp] theorem State.setOverrun_trace (v : Nat) : (s.setOverrun v).trace = s.trace := rfl
@[simp] theorem State.setOverrun_results (v : Nat) : (s.setOverrun v).results = s.results := rfl
@[simp] theorem State.setOverrun_ports (v : Nat) : (s.setOverrun v).ports = s.ports := rfl
@[simp] theorem State.setOverrun_issue (v : Nat) : (s.setOverrun v).issue = s.issue := rfl
@[simp] theorem State.setOverrun_turns (v : Nat) : (s.setOverrun v).turns = s.turns := rfl
@[simp] theorem State.setOverrun_freeCount (v : Nat) : (s.setOverrun v).freeCount = s.freeCount := rfl
@[simp] theorem State.setOverrun_ring (v : Nat) (r : RingId) : (s.setOverrun v).ring r = s.ring r := by cases r <;> rfl
@[simp] theorem State.setOverrun_cap (v : Nat) (r : RingId) : (s.setOverrun v).cap r = s.cap r := by cases r <;> rfl
@[simp] theorem State.setOverrun_seq (v : Nat) (d : Side) : (s.setOverrun v).seq d = s.seq d := by cases d <;> rfl
@[simp] theorem State.setOverrun_cell (v : Nat) (r : RingId) (i : Nat) : (s.setOverrun v).cell r i = s.cell r i := by cases r <;> rfl

/-! `setPlat` -/

@[simp] theorem State.setPlat_cfg (v : Platform) : (s.setPlat v).cfg = s.cfg := rfl
@[simp] theorem State.setPlat_rx (v : Platform) : (s.setPlat v).rx = s.rx := rfl
@[simp] theorem State.setPlat_tx (v : Platform) : (s.setPlat v).tx = s.tx := rfl
@[simp] theorem State.setPlat_txArmed (v : Platform) : (s.setPlat v).txArmed = s.txArmed := rfl
@[simp] theorem State.setPlat_txArmReq (v : Platform) : (s.setPlat v).txArmReq = s.txArmReq := rfl
@[simp] theorem State.setPlat_overrun (v : Platform) : (s.setPlat v).overrun = s.overrun := rfl
@[simp] theorem State.setPlat_fgSeq (v : Platform) : (s.setPlat v).fgSeq = s.fgSeq := rfl
@[simp] theorem State.setPlat_isrSeq (v : Platform) : (s.setPlat v).isrSeq = s.isrSeq := rfl
@[simp] theorem State.setPlat_plat (v : Platform) : (s.setPlat v).plat = v := rfl
@[simp] theorem State.setPlat_trace (v : Platform) : (s.setPlat v).trace = s.trace := rfl
@[simp] theorem State.setPlat_results (v : Platform) : (s.setPlat v).results = s.results := rfl
@[simp] theorem State.setPlat_ports (v : Platform) : (s.setPlat v).ports = s.ports := rfl
@[simp] theorem State.setPlat_issue (v : Platform) : (s.setPlat v).issue = s.issue := rfl
@[simp] theorem State.setPlat_turns (v : Platform) : (s.setPlat v).turns = s.turns := rfl
@[simp] theorem State.setPlat_freeCount (v : Platform) : (s.setPlat v).freeCount = s.freeCount := rfl
@[simp] theorem State.setPlat_ring (v : Platform) (r : RingId) : (s.setPlat v).ring r = s.ring r := by cases r <;> rfl
@[simp] theorem State.setPlat_cap (v : Platform) (r : RingId) : (s.setPlat v).cap r = s.cap r := by cases r <;> rfl
@[simp] theorem State.setPlat_seq (v : Platform) (d : Side) : (s.setPlat v).seq d = s.seq d := by cases d <;> rfl
@[simp] theorem State.setPlat_cell (v : Platform) (r : RingId) (i : Nat) : (s.setPlat v).cell r i = s.cell r i := by cases r <;> rfl

/-! `setPorts` -/

@[simp] theorem State.setPorts_cfg (v : Ports) : (s.setPorts v).cfg = s.cfg := rfl
@[simp] theorem State.setPorts_rx (v : Ports) : (s.setPorts v).rx = s.rx := rfl
@[simp] theorem State.setPorts_tx (v : Ports) : (s.setPorts v).tx = s.tx := rfl
@[simp] theorem State.setPorts_txArmed (v : Ports) : (s.setPorts v).txArmed = s.txArmed := rfl
@[simp] theorem State.setPorts_txArmReq (v : Ports) : (s.setPorts v).txArmReq = s.txArmReq := rfl
@[simp] theorem State.setPorts_overrun (v : Ports) : (s.setPorts v).overrun = s.overrun := rfl
@[simp] theorem State.setPorts_fgSeq (v : Ports) : (s.setPorts v).fgSeq = s.fgSeq := rfl
@[simp] theorem State.setPorts_isrSeq (v : Ports) : (s.setPorts v).isrSeq = s.isrSeq := rfl
@[simp] theorem State.setPorts_plat (v : Ports) : (s.setPorts v).plat = s.plat := rfl
@[simp] theorem State.setPorts_trace (v : Ports) : (s.setPorts v).trace = s.trace := rfl
@[simp] theorem State.setPorts_results (v : Ports) : (s.setPorts v).results = s.results := rfl
@[simp] theorem State.setPorts_ports (v : Ports) : (s.setPorts v).ports = v := rfl
@[simp] theorem State.setPorts_issue (v : Ports) : (s.setPorts v).issue = s.issue := rfl
@[simp] theorem State.setPorts_turns (v : Ports) : (s.setPorts v).turns = s.turns := rfl
@[simp] theorem State.setPorts_freeCount (v : Ports) : (s.setPorts v).freeCount = s.freeCount := rfl
@[simp] theorem State.setPorts_ring (v : Ports) (r : RingId) : (s.setPorts v).ring r = s.ring r := by cases r <;> rfl
@[simp] theorem State.setPorts_cap (v : Ports) (r : RingId) : (s.setPorts v).cap r = s.cap r := by cases r <;> rfl
@[simp] theorem State.setPorts_seq (v : Ports) (d : Side) : (s.setPorts v).seq d = s.seq d := by cases d <;> rfl
@[simp] theorem State.setPorts_cell (v : Ports) (r : RingId) (i : Nat) : (s.setPorts v).cell r i = s.cell r i := by cases r <;> rfl

/-! `setIssue` -/

@[simp] theorem State.setIssue_cfg (v : Issue) : (s.setIssue v).cfg = s.cfg := rfl
@[simp] theorem State.setIssue_rx (v : Issue) : (s.setIssue v).rx = s.rx := rfl
@[simp] theorem State.setIssue_tx (v : Issue) : (s.setIssue v).tx = s.tx := rfl
@[simp] theorem State.setIssue_txArmed (v : Issue) : (s.setIssue v).txArmed = s.txArmed := rfl
@[simp] theorem State.setIssue_txArmReq (v : Issue) : (s.setIssue v).txArmReq = s.txArmReq := rfl
@[simp] theorem State.setIssue_overrun (v : Issue) : (s.setIssue v).overrun = s.overrun := rfl
@[simp] theorem State.setIssue_fgSeq (v : Issue) : (s.setIssue v).fgSeq = s.fgSeq := rfl
@[simp] theorem State.setIssue_isrSeq (v : Issue) : (s.setIssue v).isrSeq = s.isrSeq := rfl
@[simp] theorem State.setIssue_plat (v : Issue) : (s.setIssue v).plat = s.plat := rfl
@[simp] theorem State.setIssue_trace (v : Issue) : (s.setIssue v).trace = s.trace := rfl
@[simp] theorem State.setIssue_results (v : Issue) : (s.setIssue v).results = s.results := rfl
@[simp] theorem State.setIssue_ports (v : Issue) : (s.setIssue v).ports = s.ports := rfl
@[simp] theorem State.setIssue_issue (v : Issue) : (s.setIssue v).issue = v := rfl
@[simp] theorem State.setIssue_turns (v : Issue) : (s.setIssue v).turns = s.turns := rfl
@[simp] theorem State.setIssue_freeCount (v : Issue) : (s.setIssue v).freeCount = s.freeCount := rfl
@[simp] theorem State.setIssue_ring (v : Issue) (r : RingId) : (s.setIssue v).ring r = s.ring r := by cases r <;> rfl
@[simp] theorem State.setIssue_cap (v : Issue) (r : RingId) : (s.setIssue v).cap r = s.cap r := by cases r <;> rfl
@[simp] theorem State.setIssue_seq (v : Issue) (d : Side) : (s.setIssue v).seq d = s.seq d := by cases d <;> rfl
@[simp] theorem State.setIssue_cell (v : Issue) (r : RingId) (i : Nat) : (s.setIssue v).cell r i = s.cell r i := by cases r <;> rfl

/-! `setTurns` -/

@[simp] theorem State.setTurns_cfg (v : List Turn) : (s.setTurns v).cfg = s.cfg := rfl
@[simp] theorem State.setTurns_rx (v : List Turn) : (s.setTurns v).rx = s.rx := rfl
@[simp] theorem State.setTurns_tx (v : List Turn) : (s.setTurns v).tx = s.tx := rfl
@[simp] theorem State.setTurns_txArmed (v : List Turn) : (s.setTurns v).txArmed = s.txArmed := rfl
@[simp] theorem State.setTurns_txArmReq (v : List Turn) : (s.setTurns v).txArmReq = s.txArmReq := rfl
@[simp] theorem State.setTurns_overrun (v : List Turn) : (s.setTurns v).overrun = s.overrun := rfl
@[simp] theorem State.setTurns_fgSeq (v : List Turn) : (s.setTurns v).fgSeq = s.fgSeq := rfl
@[simp] theorem State.setTurns_isrSeq (v : List Turn) : (s.setTurns v).isrSeq = s.isrSeq := rfl
@[simp] theorem State.setTurns_plat (v : List Turn) : (s.setTurns v).plat = s.plat := rfl
@[simp] theorem State.setTurns_trace (v : List Turn) : (s.setTurns v).trace = s.trace := rfl
@[simp] theorem State.setTurns_results (v : List Turn) : (s.setTurns v).results = s.results := rfl
@[simp] theorem State.setTurns_ports (v : List Turn) : (s.setTurns v).ports = s.ports := rfl
@[simp] theorem State.setTurns_issue (v : List Turn) : (s.setTurns v).issue = s.issue := rfl
@[simp] theorem State.setTurns_turns (v : List Turn) : (s.setTurns v).turns = v := rfl
@[simp] theorem State.setTurns_freeCount (v : List Turn) : (s.setTurns v).freeCount = s.freeCount := rfl
@[simp] theorem State.setTurns_ring (v : List Turn) (r : RingId) : (s.setTurns v).ring r = s.ring r := by cases r <;> rfl
@[simp] theorem State.setTurns_cap (v : List Turn) (r : RingId) : (s.setTurns v).cap r = s.cap r := by cases r <;> rfl
@[simp] theorem State.setTurns_seq (v : List Turn) (d : Side) : (s.setTurns v).seq d = s.seq d := by cases d <;> rfl
@[simp] theorem State.setTurns_cell (v : List Turn) (r : RingId) (i : Nat) : (s.setTurns v).cell r i = s.cell r i := by cases r <;> rfl

/-! `setFreeCount` -/

@[simp] theorem State.setFreeCount_cfg (v : Nat) : (s.setFreeCount v).cfg = s.cfg := rfl
@[simp] theorem State.setFreeCount_rx (v : Nat) : (s.setFreeCount v).rx = s.rx := rfl
@[simp] theorem State.setFreeCount_tx (v : Nat) : (s.setFreeCount v).tx = s.tx := rfl
@[simp] theorem State.setFreeCount_txArmed (v : Nat) : (s.setFreeCount v).txArmed = s.txArmed := rfl
@[simp] theorem State.setFreeCount_txArmReq (v : Nat) : (s.setFreeCount v).txArmReq = s.txArmReq := rfl
@[simp] theorem State.setFreeCount_overrun (v : Nat) : (s.setFreeCount v).overrun = s.overrun := rfl
@[simp] theorem State.setFreeCount_fgSeq (v : Nat) : (s.setFreeCount v).fgSeq = s.fgSeq := rfl
@[simp] theorem State.setFreeCount_isrSeq (v : Nat) : (s.setFreeCount v).isrSeq = s.isrSeq := rfl
@[simp] theorem State.setFreeCount_plat (v : Nat) : (s.setFreeCount v).plat = s.plat := rfl
@[simp] theorem State.setFreeCount_trace (v : Nat) : (s.setFreeCount v).trace = s.trace := rfl
@[simp] theorem State.setFreeCount_results (v : Nat) : (s.setFreeCount v).results = s.results := rfl
@[simp] theorem State.setFreeCount_ports (v : Nat) : (s.setFreeCount v).ports = s.ports := rfl
@[simp] theorem State.setFreeCount_issue (v : Nat) : (s.setFreeCount v).issue = s.issue := rfl
@[simp] theorem State.setFreeCount_turns (v : Nat) : (s.setFreeCount v).turns = s.turns := rfl
@[simp] theorem State.setFreeCount_freeCount (v : Nat) : (s.setFreeCount v).freeCount = v := rfl
@[simp] theorem State.setFreeCount_ring (v : Nat) (r : RingId) : (s.setFreeCount v).ring r = s.ring r := by cases r <;> rfl
@[simp] theorem State.setFreeCount_cap (v : Nat) (r : RingId) : (s.setFreeCount v).cap r = s.cap r := by cases r <;> rfl
@[simp] theorem State.setFreeCount_seq (v : Nat) (d : Side) : (s.setFreeCount v).seq d = s.seq d := by cases d <;> rfl
@[simp] theorem State.setFreeCount_cell (v : Nat) (r : RingId) (i : Nat) : (s.setFreeCount v).cell r i = s.cell r i := by cases r <;> rfl

/-! `emit` -/

@[simp] theorem State.emit_cfg (c : CapCall) : (s.emit c).cfg = s.cfg := rfl
@[simp] theorem State.emit_rx (c : CapCall) : (s.emit c).rx = s.rx := rfl
@[simp] theorem State.emit_tx (c : CapCall) : (s.emit c).tx = s.tx := rfl
@[simp] theorem State.emit_txArmed (c : CapCall) : (s.emit c).txArmed = s.txArmed := rfl
@[simp] theorem State.emit_txArmReq (c : CapCall) : (s.emit c).txArmReq = s.txArmReq := rfl
@[simp] theorem State.emit_overrun (c : CapCall) : (s.emit c).overrun = s.overrun := rfl
@[simp] theorem State.emit_fgSeq (c : CapCall) : (s.emit c).fgSeq = s.fgSeq := rfl
@[simp] theorem State.emit_isrSeq (c : CapCall) : (s.emit c).isrSeq = s.isrSeq := rfl
@[simp] theorem State.emit_plat (c : CapCall) : (s.emit c).plat = s.plat := rfl
@[simp] theorem State.emit_trace (c : CapCall) : (s.emit c).trace = s.trace ++ [c] := rfl
@[simp] theorem State.emit_results (c : CapCall) : (s.emit c).results = s.results := rfl
@[simp] theorem State.emit_ports (c : CapCall) : (s.emit c).ports = s.ports := rfl
@[simp] theorem State.emit_issue (c : CapCall) : (s.emit c).issue = s.issue := rfl
@[simp] theorem State.emit_turns (c : CapCall) : (s.emit c).turns = s.turns := rfl
@[simp] theorem State.emit_freeCount (c : CapCall) : (s.emit c).freeCount = s.freeCount := rfl
@[simp] theorem State.emit_ring (c : CapCall) (r : RingId) : (s.emit c).ring r = s.ring r := by cases r <;> rfl
@[simp] theorem State.emit_cap (c : CapCall) (r : RingId) : (s.emit c).cap r = s.cap r := by cases r <;> rfl
@[simp] theorem State.emit_seq (c : CapCall) (d : Side) : (s.emit c).seq d = s.seq d := by cases d <;> rfl
@[simp] theorem State.emit_cell (c : CapCall) (r : RingId) (i : Nat) : (s.emit c).cell r i = s.cell r i := by cases r <;> rfl

/-! `ret` -/

@[simp] theorem State.ret_cfg (a : Agent) (st : Status) (v : Value) : (s.ret a st v).cfg = s.cfg := rfl
@[simp] theorem State.ret_rx (a : Agent) (st : Status) (v : Value) : (s.ret a st v).rx = s.rx := rfl
@[simp] theorem State.ret_tx (a : Agent) (st : Status) (v : Value) : (s.ret a st v).tx = s.tx := rfl
@[simp] theorem State.ret_txArmed (a : Agent) (st : Status) (v : Value) : (s.ret a st v).txArmed = s.txArmed := rfl
@[simp] theorem State.ret_txArmReq (a : Agent) (st : Status) (v : Value) : (s.ret a st v).txArmReq = s.txArmReq := rfl
@[simp] theorem State.ret_overrun (a : Agent) (st : Status) (v : Value) : (s.ret a st v).overrun = s.overrun := rfl
@[simp] theorem State.ret_fgSeq (a : Agent) (st : Status) (v : Value) : (s.ret a st v).fgSeq = s.fgSeq := rfl
@[simp] theorem State.ret_isrSeq (a : Agent) (st : Status) (v : Value) : (s.ret a st v).isrSeq = s.isrSeq := rfl
@[simp] theorem State.ret_plat (a : Agent) (st : Status) (v : Value) : (s.ret a st v).plat = s.plat := rfl
@[simp] theorem State.ret_trace (a : Agent) (st : Status) (v : Value) : (s.ret a st v).trace = s.trace := rfl
@[simp] theorem State.ret_results (a : Agent) (st : Status) (v : Value) : (s.ret a st v).results = s.results ++ [⟨a, st, v⟩] := rfl
@[simp] theorem State.ret_ports (a : Agent) (st : Status) (v : Value) : (s.ret a st v).ports = s.ports := rfl
@[simp] theorem State.ret_issue (a : Agent) (st : Status) (v : Value) : (s.ret a st v).issue = s.issue := rfl
@[simp] theorem State.ret_turns (a : Agent) (st : Status) (v : Value) : (s.ret a st v).turns = s.turns := rfl
@[simp] theorem State.ret_freeCount (a : Agent) (st : Status) (v : Value) : (s.ret a st v).freeCount = s.freeCount := rfl
@[simp] theorem State.ret_ring (a : Agent) (st : Status) (v : Value) (r : RingId) : (s.ret a st v).ring r = s.ring r := by cases r <;> rfl
@[simp] theorem State.ret_cap (a : Agent) (st : Status) (v : Value) (r : RingId) : (s.ret a st v).cap r = s.cap r := by cases r <;> rfl
@[simp] theorem State.ret_seq (a : Agent) (st : Status) (v : Value) (d : Side) : (s.ret a st v).seq d = s.seq d := by cases d <;> rfl
@[simp] theorem State.ret_cell (a : Agent) (st : Status) (v : Value) (r : RingId) (i : Nat) : (s.ret a st v).cell r i = s.cell r i := by cases r <;> rfl

/-! `setRing` -/

@[simp] theorem State.setRing_cfg (r : RingId) (x : Ring) : (s.setRing r x).cfg = s.cfg := by cases r <;> rfl
@[simp] theorem State.setRing_txArmed (r : RingId) (x : Ring) : (s.setRing r x).txArmed = s.txArmed := by cases r <;> rfl
@[simp] theorem State.setRing_txArmReq (r : RingId) (x : Ring) : (s.setRing r x).txArmReq = s.txArmReq := by cases r <;> rfl
@[simp] theorem State.setRing_overrun (r : RingId) (x : Ring) : (s.setRing r x).overrun = s.overrun := by cases r <;> rfl
@[simp] theorem State.setRing_fgSeq (r : RingId) (x : Ring) : (s.setRing r x).fgSeq = s.fgSeq := by cases r <;> rfl
@[simp] theorem State.setRing_isrSeq (r : RingId) (x : Ring) : (s.setRing r x).isrSeq = s.isrSeq := by cases r <;> rfl
@[simp] theorem State.setRing_plat (r : RingId) (x : Ring) : (s.setRing r x).plat = s.plat := by cases r <;> rfl
@[simp] theorem State.setRing_trace (r : RingId) (x : Ring) : (s.setRing r x).trace = s.trace := by cases r <;> rfl
@[simp] theorem State.setRing_results (r : RingId) (x : Ring) : (s.setRing r x).results = s.results := by cases r <;> rfl
@[simp] theorem State.setRing_ports (r : RingId) (x : Ring) : (s.setRing r x).ports = s.ports := by cases r <;> rfl
@[simp] theorem State.setRing_issue (r : RingId) (x : Ring) : (s.setRing r x).issue = s.issue := by cases r <;> rfl
@[simp] theorem State.setRing_turns (r : RingId) (x : Ring) : (s.setRing r x).turns = s.turns := by cases r <;> rfl
@[simp] theorem State.setRing_freeCount (r : RingId) (x : Ring) : (s.setRing r x).freeCount = s.freeCount := by cases r <;> rfl
@[simp] theorem State.setRing_rx_rx (x : Ring) : (s.setRing .rx x).rx = x := rfl
@[simp] theorem State.setRing_rx_tx (x : Ring) : (s.setRing .rx x).tx = s.tx := rfl
@[simp] theorem State.setRing_tx_rx (x : Ring) : (s.setRing .tx x).rx = s.rx := rfl
@[simp] theorem State.setRing_tx_tx (x : Ring) : (s.setRing .tx x).tx = x := rfl
@[simp] theorem State.setRing_seq (r : RingId) (x : Ring) (d : Side) : (s.setRing r x).seq d = s.seq d := by
  cases r <;> cases d <;> rfl
@[simp] theorem State.setRing_cap (r q : RingId) (x : Ring) : (s.setRing r x).cap q = s.cap q := by
  cases r <;> cases q <;> rfl
@[simp] theorem State.setRing_ring_same (r : RingId) (x : Ring) : (s.setRing r x).ring r = x := by cases r <;> rfl
theorem State.setRing_ring_other (r q : RingId) (x : Ring) (h : q ≠ r) : (s.setRing r x).ring q = s.ring q := by
  cases r <;> cases q <;> first | rfl | exact absurd rfl h
@[simp] theorem State.setRing_setRing (r : RingId) (x y : Ring) : (s.setRing r x).setRing r y = s.setRing r y := by
  cases r <;> rfl
@[simp] theorem State.setRing_cell_same (r : RingId) (x : Ring) (i : Nat) :
    (s.setRing r x).cell r i = x.storage.read i := by simp [State.cell]
@[simp] theorem State.ring_rx : s.ring .rx = s.rx := rfl
@[simp] theorem State.ring_tx : s.ring .tx = s.tx := rfl
@[simp] theorem State.cap_rx : s.cap .rx = s.cfg.rxCap := rfl
@[simp] theorem State.cap_tx : s.cap .tx = s.cfg.txCap := rfl

/-! `setSeq` -/

@[simp] theorem State.setSeq_cfg (d : Side) (q : Seq) : (s.setSeq d q).cfg = s.cfg := by cases d <;> rfl
@[simp] theorem State.setSeq_rx (d : Side) (q : Seq) : (s.setSeq d q).rx = s.rx := by cases d <;> rfl
@[simp] theorem State.setSeq_tx (d : Side) (q : Seq) : (s.setSeq d q).tx = s.tx := by cases d <;> rfl
@[simp] theorem State.setSeq_txArmed (d : Side) (q : Seq) : (s.setSeq d q).txArmed = s.txArmed := by cases d <;> rfl
@[simp] theorem State.setSeq_txArmReq (d : Side) (q : Seq) : (s.setSeq d q).txArmReq = s.txArmReq := by cases d <;> rfl
@[simp] theorem State.setSeq_overrun (d : Side) (q : Seq) : (s.setSeq d q).overrun = s.overrun := by cases d <;> rfl
@[simp] theorem State.setSeq_plat (d : Side) (q : Seq) : (s.setSeq d q).plat = s.plat := by cases d <;> rfl
@[simp] theorem State.setSeq_trace (d : Side) (q : Seq) : (s.setSeq d q).trace = s.trace := by cases d <;> rfl
@[simp] theorem State.setSeq_results (d : Side) (q : Seq) : (s.setSeq d q).results = s.results := by cases d <;> rfl
@[simp] theorem State.setSeq_ports (d : Side) (q : Seq) : (s.setSeq d q).ports = s.ports := by cases d <;> rfl
@[simp] theorem State.setSeq_issue (d : Side) (q : Seq) : (s.setSeq d q).issue = s.issue := by cases d <;> rfl
@[simp] theorem State.setSeq_turns (d : Side) (q : Seq) : (s.setSeq d q).turns = s.turns := by cases d <;> rfl
@[simp] theorem State.setSeq_freeCount (d : Side) (q : Seq) : (s.setSeq d q).freeCount = s.freeCount := by cases d <;> rfl
@[simp] theorem State.setSeq_fg_fgSeq (q : Seq) : (s.setSeq .fg q).fgSeq = q := rfl
@[simp] theorem State.setSeq_fg_isrSeq (q : Seq) : (s.setSeq .fg q).isrSeq = s.isrSeq := rfl
@[simp] theorem State.setSeq_isr_fgSeq (q : Seq) : (s.setSeq .isr q).fgSeq = s.fgSeq := rfl
@[simp] theorem State.setSeq_isr_isrSeq (q : Seq) : (s.setSeq .isr q).isrSeq = q := rfl
@[simp] theorem State.setSeq_seq_same (d : Side) (q : Seq) : (s.setSeq d q).seq d = q := by cases d <;> rfl
@[simp] theorem State.setSeq_ring (d : Side) (q : Seq) (r : RingId) : (s.setSeq d q).ring r = s.ring r := by
  cases d <;> cases r <;> rfl
@[simp] theorem State.setSeq_cap (d : Side) (q : Seq) (r : RingId) : (s.setSeq d q).cap r = s.cap r := by
  cases d <;> cases r <;> rfl
@[simp] theorem State.setSeq_cell (d : Side) (q : Seq) (r : RingId) (i : Nat) :
    (s.setSeq d q).cell r i = s.cell r i := by cases d <;> cases r <;> rfl
@[simp] theorem State.setSeq_setSeq (d : Side) (q q' : Seq) : (s.setSeq d q).setSeq d q' = s.setSeq d q' := by
  cases d <;> rfl
@[simp] theorem State.setSeq_self (d : Side) : s.setSeq d (s.seq d) = s := by cases d <;> rfl
@[simp] theorem State.setRing_self (r : RingId) : s.setRing r (s.ring r) = s := by cases r <;> rfl

end Sys2Proof.Machine
end

