-- ==== Sys2Proof/Laws/Rings.lean ====
section
/-! SUPPORT. What the four changes of a ring (P2's cell write, P3's publication, C3's release, a synchroniser copy) keep:
the ring in order (10_state.md R34, R41, R43), and the meaning of the other side's locals. -/

namespace Sys2Proof.Machine

-- Proofs are checked one after another, so that the package as one text needs few threads.
set_option Elab.async false

/-- The producer's locals keep their meaning from `x` to `y`. -/
def ProducerKept (cap : Nat) (x y : Ring) : Prop := ∀ b p, PushStage.Ok cap x b p → PushStage.Ok cap y b p

/-- The consumer's locals, and what it saw of the ring, keep their meaning from `x` to `y`. -/
def ConsumerKept (x y : Ring) : Prop :=
  (x.wrSeen ≠ x.readIndex → y.wrSeen ≠ y.readIndex) ∧ ∀ p, PopStage.Ok x p → PopStage.Ok y p

theorem ProducerKept.refl (cap : Nat) (x : Ring) : ProducerKept cap x x := fun _ _ h => h

theorem ConsumerKept.refl (x : Ring) : ConsumerKept x x := ⟨id, fun _ h => h⟩

/-- A live cell is not the cell the next push writes. -/
theorem Ring.live_ne_write (cap : Nat) (x : Ring) (h : x.InRange cap) (j : Nat)
    (hj : j < dist cap x.writeIndex x.readIndex) : (x.readIndex + j) % cap ≠ x.writeIndex := by
  obtain ⟨h1, h2, h3, h4⟩ := h
  have hjc : j < cap := Nat.lt_trans hj (dist_lt _ _ _ (by omega))
  rw [dist_eq _ _ _ h2 h1] at hj
  rw [add_mod_eq _ _ _ h1 hjc]
  split_ifs at hj ⊢ <;> omega

/-- P2: the cell write (40 R124, R126). -/
theorem Ring.Ok.write_cell {cap : Nat} {x : Ring} (h : x.Ok cap) (b : Byte) :
    Ring.Ok cap { x with storage := x.storage.write x.writeIndex b } := by
  refine ⟨h.inRange, h.ordered, fun j hj => ?_, Memory.write_keeps_wf _ _ _ h.storage.1, fun c hc => ?_⟩
  · simp only [Memory.read_write, if_neg (Ring.live_ne_write cap x h.inRange j hj)]
    exact h.live j hj
  · rcases Memory.mem_write _ _ _ _ hc with rfl | hc
    · exact h.inRange.2.1
    · exact h.storage.2 c hc

/-- P2 leaves the consumer's locals alone: it never writes the cell being read. -/
theorem Ring.Ok.write_cell_consumer {cap : Nat} {x : Ring} (h : x.Ok cap) (ho : x.span cap < cap - 1) (b : Byte) :
    ConsumerKept x { x with storage := x.storage.write x.writeIndex b } := by
  refine ⟨id, fun p hp => ?_⟩
  cases p with
  | c1 => exact hp
  | c2 l => exact hp
  | c3 l c =>
    obtain ⟨h1, h2, h3⟩ := hp
    refine ⟨h1, h2, ?_⟩
    have hne : l.ri ≠ x.writeIndex := by
      obtain ⟨a1, a2, a3, a4⟩ := h.inRange
      have hord := h.ordered
      unfold Ring.Ordered Ring.span at hord
      unfold Ring.span at ho
      rw [dist_eq _ _ _ a1 a3, dist_eq _ _ _ a4 a1, dist_eq _ _ _ a2 a4] at ho
      intro heq
      rw [h1] at heq
      split_ifs at ho <;> omega
    simp only [Memory.read_write, if_neg hne]
    exact h3

/-- P3 (40 R125): the ring with the new index, seen at once or, under lag, not yet. -/
def Ring.publish (lag : Bool) (v : Nat) (x : Ring) : Ring :=
  { x with writeIndex := v, wrSeen := if lag then x.wrSeen else v }

/-- C3 (40 R128). -/
def Ring.release (lag : Bool) (v : Nat) (x : Ring) : Ring :=
  { x with readIndex := v, rdSeen := if lag then x.rdSeen else v }

/-- P3 keeps the ring in order, once the cell it admits is written. -/
theorem Ring.Ok.publish {cap : Nat} {x : Ring} (h : x.Ok cap) (lag : Bool)
    (hv : lag = false → x.rdSeen = x.readIndex ∧ x.wrSeen = x.writeIndex) (ho : x.span cap < cap - 1) (b : Byte)
    (hb : x.storage.read x.writeIndex = some b) : (x.publish lag (inc cap x.writeIndex)).Ok cap := by
  obtain ⟨h1, h2, h3, h4⟩ := h.inRange
  have hs := Ring.span_eq cap x h.inRange h.ordered
  have hi := inc_lt cap _ h2
  have hd : dist cap (inc cap x.writeIndex) x.readIndex = dist cap x.writeIndex x.readIndex + 1 := by
    unfold Ring.span at ho
    rw [dist_eq _ _ _ h1 h3, dist_eq _ _ _ h4 h1, dist_eq _ _ _ h2 h4] at ho
    rw [dist_eq _ _ _ hi h1, dist_eq _ _ _ h2 h1, inc_eq _ _ h2]
    split_ifs at ho ⊢ <;> omega
  refine ⟨⟨h1, hi, h3, ?_⟩, ?_, fun j hj => ?_, h.storage⟩
  · cases lag <;> simp [Ring.publish, h4, hi]
  · unfold Ring.Ordered Ring.span at *
    rw [dist_eq _ _ _ h1 h3, dist_eq _ _ _ h4 h1, dist_eq _ _ _ h2 h4] at ho
    cases lag with
    | false =>
      obtain ⟨e1, e2⟩ := hv rfl
      simp only [Ring.publish, Bool.false_eq_true, if_false, dist_self]
      rw [dist_eq _ _ _ h1 h3, dist_eq _ _ _ hi h1, inc_eq _ _ h2]
      split_ifs at ho ⊢ <;> omega
    | true =>
      simp only [Ring.publish, if_true]
      rw [dist_eq _ _ _ h1 h3, dist_eq _ _ _ h4 h1, dist_eq _ _ _ hi h4, inc_eq _ _ h2]
      split_ifs at ho ⊢ <;> omega
  · simp only [Ring.publish] at hj ⊢
    rw [hd] at hj
    by_cases hj' : j < dist cap x.writeIndex x.readIndex
    · exact h.live j hj'
    · have hje : j = dist cap x.writeIndex x.readIndex := by omega
      have hjc : j < cap := hje ▸ dist_lt _ _ _ (by omega)
      have : (x.readIndex + j) % cap = x.writeIndex := by
        rw [add_mod_eq _ _ _ h1 hjc, hje, dist_eq _ _ _ h2 h1]
        split_ifs <;> omega
      rw [this, hb]; rfl

/-- P3 only adds data to what the consumer sees. -/
theorem Ring.Ok.publish_consumer {cap : Nat} {x : Ring} (h : x.Ok cap) (lag : Bool)
    (hv : lag = false → x.rdSeen = x.readIndex ∧ x.wrSeen = x.writeIndex) (ho : x.span cap < cap - 1) :
    ConsumerKept x (x.publish lag (inc cap x.writeIndex)) := by
  have key : x.wrSeen ≠ x.readIndex →
      (x.publish lag (inc cap x.writeIndex)).wrSeen ≠ (x.publish lag (inc cap x.writeIndex)).readIndex := by
    intro hne
    cases lag with
    | true => exact hne
    | false =>
      obtain ⟨h1, h2, h3, h4⟩ := h.inRange
      obtain ⟨e1, e2⟩ := hv rfl
      unfold Ring.span at ho
      rw [dist_eq _ _ _ h1 h3, dist_eq _ _ _ h4 h1, dist_eq _ _ _ h2 h4] at ho
      simp only [Ring.publish, Bool.false_eq_true, if_false]
      rw [inc_eq _ _ h2]
      split_ifs at ho ⊢ <;> omega
  refine ⟨key, fun p hp => ?_⟩
  cases p with
  | c1 => trivial
  | c2 l => exact ⟨hp.1, key hp.2⟩
  | c3 l c => exact ⟨hp.1, key hp.2.1, hp.2.2⟩

/-- C3 keeps the ring in order, if the consumer saw a byte. -/
theorem Ring.Ok.release {cap : Nat} {x : Ring} (h : x.Ok cap) (lag : Bool)
    (hv : lag = false → x.rdSeen = x.readIndex ∧ x.wrSeen = x.writeIndex) (hne : x.wrSeen ≠ x.readIndex) :
    (x.release lag (inc cap x.readIndex)).Ok cap := by
  obtain ⟨h1, h2, h3, h4⟩ := h.inRange
  have hi := inc_lt cap _ h1
  have ho := h.ordered
  unfold Ring.Ordered Ring.span at ho
  rw [dist_eq _ _ _ h1 h3, dist_eq _ _ _ h4 h1, dist_eq _ _ _ h2 h4] at ho
  have hd : dist cap x.writeIndex (inc cap x.readIndex) + 1 = dist cap x.writeIndex x.readIndex := by
    rw [dist_eq _ _ _ h2 hi, dist_eq _ _ _ h2 h1, inc_eq _ _ h1]
    split_ifs at ho ⊢ <;> omega
  refine ⟨⟨hi, h2, ?_, h4⟩, ?_, fun j hj => ?_, h.storage⟩
  · cases lag <;> simp [Ring.release, h3, hi]
  · unfold Ring.Ordered Ring.span
    cases lag with
    | false =>
      obtain ⟨e1, e2⟩ := hv rfl
      simp only [Ring.release, Bool.false_eq_true, if_false, dist_self]
      rw [dist_eq _ _ _ h4 hi, dist_eq _ _ _ h2 h4, inc_eq _ _ h1]
      split_ifs at ho ⊢ <;> omega
    | true =>
      simp only [Ring.release, if_true]
      rw [dist_eq _ _ _ hi h3, dist_eq _ _ _ h4 hi, dist_eq _ _ _ h2 h4, inc_eq _ _ h1]
      split_ifs at ho ⊢ <;> omega
  · simp only [Ring.release] at hj ⊢
    have := h.live (j + 1) (by omega)
    have he : (inc cap x.readIndex + j) % cap = (x.readIndex + (j + 1)) % cap := by
      rw [inc, Nat.mod_add_mod]; congr 1; omega
    rw [he]; exact this

/-- C3 only frees room the producer may use. -/
theorem Ring.Ok.release_producer {cap : Nat} {x : Ring} (h : x.Ok cap) (lag : Bool)
    (hv : lag = false → x.rdSeen = x.readIndex ∧ x.wrSeen = x.writeIndex) (hne : x.wrSeen ≠ x.readIndex) :
    ProducerKept cap x (x.release lag (inc cap x.readIndex)) := by
  have key : x.span cap < cap - 1 → (x.release lag (inc cap x.readIndex)).span cap < cap - 1 := by
    intro ho
    obtain ⟨h1, h2, h3, h4⟩ := h.inRange
    have hi := inc_lt cap _ h1
    unfold Ring.span at ho ⊢
    rw [dist_eq _ _ _ h1 h3, dist_eq _ _ _ h4 h1, dist_eq _ _ _ h2 h4] at ho
    cases lag with
    | false =>
      obtain ⟨e1, e2⟩ := hv rfl
      simp only [Ring.release, Bool.false_eq_true, if_false, dist_self]
      rw [dist_eq _ _ _ h4 hi, dist_eq _ _ _ h2 h4, inc_eq _ _ h1]
      split_ifs at ho ⊢ <;> omega
    | true =>
      simp only [Ring.release, if_true]
      rw [dist_eq _ _ _ hi h3, dist_eq _ _ _ h4 hi, dist_eq _ _ _ h2 h4, inc_eq _ _ h1]
      split_ifs at ho ⊢ <;> omega
  intro b p hp
  cases p with
  | p1 => trivial
  | p2 l => exact ⟨hp.1, hp.2.1, key hp.2.2⟩
  | p3 l => exact ⟨hp.1, hp.2.1, key hp.2.2.1, hp.2.2.2⟩

/-- A synchroniser copy of `write_index` keeps the ring in order (20 R73, R76). -/
theorem Ring.Ok.syncWrite {cap : Nat} {x : Ring} (h : x.Ok cap) : Ring.Ok cap { x with wrSeen := x.writeIndex } := by
  obtain ⟨h1, h2, h3, h4⟩ := h.inRange
  have ho := h.ordered
  refine ⟨⟨h1, h2, h3, h2⟩, ?_, h.live, h.storage⟩
  unfold Ring.Ordered Ring.span at *
  simp only [dist_self]
  rw [dist_eq _ _ _ h1 h3, dist_eq _ _ _ h4 h1, dist_eq _ _ _ h2 h4] at ho
  rw [dist_eq _ _ _ h1 h3, dist_eq _ _ _ h2 h1]
  split_ifs at ho ⊢ <;> omega

theorem Ring.Ok.syncWrite_kept {cap : Nat} {x : Ring} (h : x.Ok cap) :
    ProducerKept cap x { x with wrSeen := x.writeIndex } ∧ ConsumerKept x { x with wrSeen := x.writeIndex } := by
  obtain ⟨h1, h2, h3, h4⟩ := h.inRange
  have ho := h.ordered
  unfold Ring.Ordered at ho
  have ks : Ring.span cap { x with wrSeen := x.writeIndex } ≤ x.span cap := by
    unfold Ring.span at *
    simp only [dist_self]
    rw [dist_eq _ _ _ h1 h3, dist_eq _ _ _ h4 h1, dist_eq _ _ _ h2 h4] at *
    rw [dist_eq _ _ _ h2 h1]
    split_ifs at ho ⊢ <;> omega
  have kw : x.wrSeen ≠ x.readIndex → x.writeIndex ≠ x.readIndex := by
    unfold Ring.span at ho
    rw [dist_eq _ _ _ h1 h3, dist_eq _ _ _ h4 h1, dist_eq _ _ _ h2 h4] at ho
    split_ifs at ho <;> omega
  refine ⟨fun b p hp => ?_, kw, fun p hp => ?_⟩
  · cases p with
    | p1 => trivial
    | p2 l => exact ⟨hp.1, hp.2.1, Nat.lt_of_le_of_lt ks hp.2.2⟩
    | p3 l => exact ⟨hp.1, hp.2.1, Nat.lt_of_le_of_lt ks hp.2.2.1, hp.2.2.2⟩
  · cases p with
    | c1 => trivial
    | c2 l => exact ⟨hp.1, kw hp.2⟩
    | c3 l c => exact ⟨hp.1, kw hp.2.1, hp.2.2⟩

/-- A synchroniser copy of `read_index` keeps the ring in order (20 R73, R76). -/
theorem Ring.Ok.syncRead {cap : Nat} {x : Ring} (h : x.Ok cap) : Ring.Ok cap { x with rdSeen := x.readIndex } := by
  obtain ⟨h1, h2, h3, h4⟩ := h.inRange
  have ho := h.ordered
  refine ⟨⟨h1, h2, h1, h4⟩, ?_, h.live, h.storage⟩
  unfold Ring.Ordered Ring.span at *
  simp only [dist_self]
  omega

theorem Ring.Ok.syncRead_kept {cap : Nat} {x : Ring} (_ : x.Ok cap) :
    ProducerKept cap x { x with rdSeen := x.readIndex } ∧ ConsumerKept x { x with rdSeen := x.readIndex } := by
  have ks : Ring.span cap { x with rdSeen := x.readIndex } ≤ x.span cap := by
    unfold Ring.span
    simp only [dist_self]
    omega
  refine ⟨fun b p hp => ?_, id, fun p hp => ?_⟩
  · cases p with
    | p1 => trivial
    | p2 l => exact ⟨hp.1, hp.2.1, Nat.lt_of_le_of_lt ks hp.2.2⟩
    | p3 l => exact ⟨hp.1, hp.2.1, Nat.lt_of_le_of_lt ks hp.2.2.1, hp.2.2.2⟩
  · cases p <;> exact hp

end Sys2Proof.Machine
end

