-- ==== Sys2Proof/Laws/Micro.lean ====
section
/-! SUPPORT. What one micro-step of PUSH and POP can do (40_ring_ops.md R124 to R128), said once, and what it keeps. -/

namespace Sys2Proof.Machine

-- Proofs are checked one after another, so that the package as one text needs few threads.
set_option Elab.async false

/-- From `s` to `t` only ring `r` and the index of the next free value may differ. -/
structure OnlyRing (r : RingId) (s t : State) : Prop where
  cfg : t.cfg = s.cfg
  other : ∀ q, q ≠ r → t.ring q = s.ring q
  armed : t.txArmed = s.txArmed
  armReq : t.txArmReq = s.txArmReq
  overrun : t.overrun = s.overrun
  fgSeq : t.fgSeq = s.fgSeq
  isrSeq : t.isrSeq = s.isrSeq
  plat : t.plat = s.plat
  trace : t.trace = s.trace
  results : t.results = s.results
  ports : t.ports = s.ports
  issue : t.issue = s.issue
  turns : t.turns = s.turns

theorem OnlyRing.refl (r : RingId) (s : State) : OnlyRing r s s :=
  ⟨rfl, fun _ _ => rfl, rfl, rfl, rfl, rfl, rfl, rfl, rfl, rfl, rfl, rfl, rfl⟩

theorem OnlyRing.setRing (r : RingId) (s : State) (x : Ring) : OnlyRing r s (s.setRing r x) := by
  refine ⟨?_, fun q hq => State.setRing_ring_other s r q x hq, ?_, ?_, ?_, ?_, ?_, ?_, ?_, ?_, ?_, ?_, ?_⟩ <;> simp

theorem OnlyRing.setFreeCount (r : RingId) (s : State) (n : Nat) : OnlyRing r s (s.setFreeCount n) :=
  ⟨rfl, fun q _ => by simp, rfl, rfl, rfl, rfl, rfl, rfl, rfl, rfl, rfl, rfl, rfl⟩

theorem OnlyRing.cap {r : RingId} {s t : State} (h : OnlyRing r s t) (q : RingId) : t.cap q = s.cap q := by
  cases q <;> simp [State.cap, h.cfg]

/-! ## What the pieces do -/

/-- A cell write succeeds exactly on a cell that exists, and writes only it. -/
theorem memWrite_ok_iff (r : RingId) (i : Nat) (b : Byte) (s t : State) :
    memWrite r i b s = .ok t ↔
      i < s.cap r ∧ t = s.setRing r { s.ring r with storage := (s.ring r).storage.write i b } := by
  unfold memWrite
  split
  case isTrue h => simp [h, eq_comm]
  case isFalse h => simp [h]

/-- A cell read succeeds exactly on a cell that exists, and changes at most the index of the next free value. -/
theorem memRead_ok (r : RingId) (i : Nat) (b : Byte) (s t : State) (h : memRead r i s = .ok (b, t)) :
    i < s.cap r ∧
      (s.cell r i = some b ∧ t = s ∨
        s.cell r i = none ∧ b = Config.freeByte s.freeCount ∧ t = s.setFreeCount (s.freeCount + 1)) := by
  unfold memRead at h
  split at h
  case isTrue hi =>
    split at h
    case h_1 c hc => cases h; exact ⟨hi, .inl ⟨hc, rfl⟩⟩
    case h_2 hc => cases h; exact ⟨hi, .inr ⟨hc, rfl, rfl⟩⟩
  case isFalse => cases h

theorem setWriteIndex_eq (r : RingId) (v : Nat) (s : State) :
    setWriteIndex r v s = s.setRing r ((s.ring r).publish s.cfg.syncLag v) := rfl

theorem setReadIndex_eq (r : RingId) (v : Nat) (s : State) :
    setReadIndex r v s = s.setRing r ((s.ring r).release s.cfg.syncLag v) := rfl

/-- Everything one micro-step of PUSH can do. -/
theorem pushStep_cases (r : RingId) (b : Byte) (p : PushStage) (s t : State) (o : PushNext)
    (h : pushStep r b p s = .ok (o, t)) :
    (p = .p1 ∧ inc (s.cap r) (s.ring r).writeIndex = (s.ring r).rdSeen ∧ o = .overflow ∧ t = s) ∨
    (p = .p1 ∧ inc (s.cap r) (s.ring r).writeIndex ≠ (s.ring r).rdSeen ∧
      o = .more (.p2 ⟨(s.ring r).writeIndex, (s.ring r).rdSeen, inc (s.cap r) (s.ring r).writeIndex⟩) ∧ t = s) ∨
    (∃ l, p = .p2 l ∧ l.wi < s.cap r ∧ o = .more (.p3 l) ∧
      t = s.setRing r { s.ring r with storage := (s.ring r).storage.write l.wi b }) ∨
    (∃ l, p = .p3 l ∧ o = .accepted ∧ t = setWriteIndex r l.nx s) := by
  cases p with
  | p1 =>
    simp only [pushStep] at h
    split at h
    case isTrue hf => cases h; exact .inl ⟨rfl, hf, rfl, rfl⟩
    case isFalse hf => cases h; exact .inr (.inl ⟨rfl, hf, rfl, rfl⟩)
  | p2 l =>
    simp only [pushStep] at h
    split at h
    case h_1 u hu =>
      cases h
      obtain ⟨hi, rfl⟩ := (memWrite_ok_iff r l.wi b s t).mp hu
      exact .inr (.inr (.inl ⟨l, rfl, hi, rfl, rfl⟩))
    case h_2 => cases h
  | p3 l => cases h; exact .inr (.inr (.inr ⟨l, rfl, rfl, rfl⟩))

/-- Everything one micro-step of POP can do. -/
theorem popStep_cases (r : RingId) (p : PopStage) (s t : State) (o : PopNext) (h : popStep r p s = .ok (o, t)) :
    (p = .c1 ∧ (s.ring r).wrSeen = (s.ring r).readIndex ∧ o = .empty ∧ t = s) ∨
    (p = .c1 ∧ (s.ring r).wrSeen ≠ (s.ring r).readIndex ∧
      o = .more (.c2 ⟨(s.ring r).readIndex, (s.ring r).wrSeen⟩) ∧ t = s) ∨
    (∃ l b, p = .c2 l ∧ memRead r l.ri s = .ok (b, t) ∧ o = .more (.c3 l b)) ∨
    (∃ l b, p = .c3 l b ∧ o = .took b ∧ t = setReadIndex r (inc (s.cap r) l.ri) s) := by
  cases p with
  | c1 =>
    simp only [popStep] at h
    split at h
    case isTrue hf => cases h; exact .inl ⟨rfl, hf, rfl, rfl⟩
    case isFalse hf => cases h; exact .inr (.inl ⟨rfl, hf, rfl, rfl⟩)
  | c2 l =>
    simp only [popStep] at h
    split at h
    case h_1 b u hu => cases h; exact .inr (.inr (.inl ⟨l, b, rfl, hu, rfl⟩))
    case h_2 => cases h
  | c3 l b => cases h; exact .inr (.inr (.inr ⟨l, b, rfl, rfl, rfl⟩))

theorem pushStep_onlyRing (r : RingId) (b : Byte) (p : PushStage) (s t : State) (o : PushNext)
    (h : pushStep r b p s = .ok (o, t)) : OnlyRing r s t := by
  rcases pushStep_cases r b p s t o h with ⟨-, -, -, rfl⟩ | ⟨-, -, -, rfl⟩ | ⟨l, -, -, -, rfl⟩ | ⟨l, -, -, rfl⟩
  · exact OnlyRing.refl _ _
  · exact OnlyRing.refl _ _
  · exact OnlyRing.setRing _ _ _
  · exact OnlyRing.setRing _ _ _

theorem popStep_onlyRing (r : RingId) (p : PopStage) (s t : State) (o : PopNext) (h : popStep r p s = .ok (o, t)) :
    OnlyRing r s t := by
  rcases popStep_cases r p s t o h with ⟨-, -, -, rfl⟩ | ⟨-, -, -, rfl⟩ | ⟨l, b, -, hm, -⟩ | ⟨l, b, -, -, rfl⟩
  · exact OnlyRing.refl _ _
  · exact OnlyRing.refl _ _
  · rcases (memRead_ok r l.ri b s t hm).2 with ⟨-, rfl⟩ | ⟨-, -, rfl⟩
    · exact OnlyRing.refl _ _
    · exact OnlyRing.setFreeCount _ _ _
  · exact OnlyRing.setRing _ _ _

/-! ## What they keep, when the locals are in order -/

/-- Without lag the views of one ring are its indices. -/
def Ring.Exact (lag : Bool) (x : Ring) : Prop := lag = false → x.rdSeen = x.readIndex ∧ x.wrSeen = x.writeIndex

/-- A micro-step of PUSH with locals in order answers, keeps the ring in order, keeps the consumer's locals, and its own
locals stay in order. -/
theorem pushStep_keeps (r : RingId) (b : Byte) (p : PushStage) (s : State) (hr : (s.ring r).Ok (s.cap r))
    (hv : (s.ring r).Exact s.cfg.syncLag) (hc : 2 ≤ s.cap r) (hp : p.Ok (s.cap r) (s.ring r) b) :
    ∃ o t, pushStep r b p s = .ok (o, t) ∧ (t.ring r).Ok (s.cap r) ∧ (t.ring r).Exact s.cfg.syncLag ∧
      ConsumerKept (s.ring r) (t.ring r) ∧ ∀ p', o = .more p' → p'.Ok (s.cap r) (t.ring r) b := by
  cases p with
  | p1 =>
    by_cases hf : inc (s.cap r) (s.ring r).writeIndex = (s.ring r).rdSeen
    · exact ⟨.overflow, s, by simp [pushStep, hf], hr, hv, ConsumerKept.refl _, by simp⟩
    · refine ⟨.more (.p2 ⟨(s.ring r).writeIndex, (s.ring r).rdSeen, inc (s.cap r) (s.ring r).writeIndex⟩), s,
        by simp [pushStep, hf], hr, hv, ConsumerKept.refl _, ?_⟩
      intro p' hp'
      cases hp'
      refine ⟨rfl, rfl, ?_⟩
      have ho := hr.ordered
      rw [Ring.span_eq _ _ hr.inRange ho]
      have := (inc_eq_iff_full (s.cap r) _ _ hc hr.inRange.2.1 hr.inRange.2.2.1).not.mp hf
      have := dist_lt (s.cap r) (s.ring r).writeIndex (s.ring r).rdSeen (by omega)
      omega
  | p2 l =>
    obtain ⟨h1, h2, h3⟩ := hp
    have hi : l.wi < s.cap r := h1 ▸ hr.inRange.2.1
    refine ⟨.more (.p3 l), s.setRing r { s.ring r with storage := (s.ring r).storage.write l.wi b }, ?_, ?_, ?_, ?_, ?_⟩
    · simp [pushStep, (memWrite_ok_iff r l.wi b s _).mpr ⟨hi, rfl⟩]
    · rw [State.setRing_ring_same, h1]; exact hr.write_cell b
    · rw [State.setRing_ring_same]; exact hv
    · rw [State.setRing_ring_same, h1]; exact hr.write_cell_consumer h3 b
    · intro p' hp'
      cases hp'
      rw [State.setRing_ring_same]
      exact ⟨h1, h2, h3, Memory.read_write_same _ _ _⟩
  | p3 l =>
    obtain ⟨h1, h2, h3, h4⟩ := hp
    have hx : l.nx = inc (s.cap r) (s.ring r).writeIndex := by rw [h2, h1]
    refine ⟨.accepted, _, rfl, ?_, ?_, ?_, by simp⟩
    · rw [setWriteIndex_eq, State.setRing_ring_same, hx]
      exact hr.publish _ hv h3 b (h1 ▸ h4)
    · rw [setWriteIndex_eq, State.setRing_ring_same]
      intro hl
      simp [Ring.publish, hl, (hv hl).1]
    · rw [setWriteIndex_eq, State.setRing_ring_same, hx]
      exact hr.publish_consumer _ hv h3

/-- A micro-step of POP with locals in order answers, keeps the ring in order, keeps the producer's locals, its own locals
stay in order, and at C1 it is EMPTY only if the consumer sees the ring empty. -/
theorem popStep_keeps (r : RingId) (p : PopStage) (s : State) (hr : (s.ring r).Ok (s.cap r))
    (hv : (s.ring r).Exact s.cfg.syncLag) (hp : p.Ok (s.ring r)) :
    ∃ o t, popStep r p s = .ok (o, t) ∧ (t.ring r).Ok (s.cap r) ∧ (t.ring r).Exact s.cfg.syncLag ∧
      ProducerKept (s.cap r) (s.ring r) (t.ring r) ∧
      (∀ p', o = .more p' → p'.Ok (t.ring r) ∧ (t.ring r).wrSeen ≠ (t.ring r).readIndex) ∧
      (o = .empty → (s.ring r).wrSeen = (s.ring r).readIndex) := by
  cases p with
  | c1 =>
    by_cases hf : (s.ring r).wrSeen = (s.ring r).readIndex
    · exact ⟨.empty, s, by simp [popStep, hf], hr, hv, ProducerKept.refl _ _, by simp, fun _ => hf⟩
    · refine ⟨.more (.c2 ⟨(s.ring r).readIndex, (s.ring r).wrSeen⟩), s,
        by simp [popStep, hf], hr, hv, ProducerKept.refl _ _, ?_, by simp⟩
      intro p' hp'
      cases hp'
      exact ⟨⟨rfl, hf⟩, hf⟩
  | c2 l =>
    obtain ⟨h1, h2⟩ := hp
    obtain ⟨a1, a2, a3, a4⟩ := hr.inRange
    have hd : 0 < dist (s.cap r) (s.ring r).writeIndex (s.ring r).readIndex := by
      have ho := hr.ordered
      unfold Ring.Ordered Ring.span at ho
      rw [dist_eq _ _ _ a1 a3, dist_eq _ _ _ a4 a1, dist_eq _ _ _ a2 a4] at ho
      rw [dist_eq _ _ _ a2 a1]
      split_ifs at ho ⊢ <;> omega
    have hl := hr.live 0 hd
    rw [Nat.add_zero, Nat.mod_eq_of_lt a1, ← h1] at hl
    obtain ⟨b, hb⟩ := Option.isSome_iff_exists.mp hl
    have hm : memRead r l.ri s = .ok (b, s) := by
      simp [memRead, h1 ▸ a1, State.cell, hb]
    refine ⟨.more (.c3 l b), s, by simp [popStep, hm], hr, hv, ProducerKept.refl _ _, ?_, by simp⟩
    intro p' hp'
    cases hp'
    exact ⟨⟨h1, h2, hb⟩, h2⟩
  | c3 l b =>
    obtain ⟨h1, h2, h3⟩ := hp
    refine ⟨.took b, _, rfl, ?_, ?_, ?_, by simp, by simp⟩
    · rw [setReadIndex_eq, State.setRing_ring_same, h1]; exact hr.release _ hv h2
    · rw [setReadIndex_eq, State.setRing_ring_same]
      intro hl
      simp [Ring.release, hl, (hv hl).2]
    · rw [setReadIndex_eq, State.setRing_ring_same, h1]; exact hr.release_producer _ hv h2

end Sys2Proof.Machine
end

