-- ==== Sys2Proof/Laws/Invariant.lean ====
section
/-! SUPPORT. The state invariant under one micro-step of a sequencer, under a synchroniser step and under a platform
step. -/

namespace Sys2Proof.Machine

-- Proofs are checked one after another, so that the package as one text needs few threads.
set_option Elab.async false

theorem StateInv.ringOk {s : State} (h : StateInv s) (r : RingId) : (s.ring r).Ok (s.cap r) := by
  cases r
  · exact h.rx
  · exact h.tx

theorem StateInv.ringExact {s : State} (h : StateInv s) (r : RingId) : (s.ring r).Exact s.cfg.syncLag := by
  intro hl
  obtain ⟨h1, h2, h3, h4, -⟩ := h.views hl
  cases r
  · exact ⟨h1, h2⟩
  · exact ⟨h3, h4⟩

theorem StateInv.cap_ge {s : State} (h : StateInv s) (r : RingId) : 2 ≤ s.cap r := by
  cases r
  · exact h.cfg.1.1
  · exact h.cfg.2.1.1

/-- FG's sequencer stays in order while only the other agents step. -/
theorem SeqOk.fg_kept {s t : State} (h : SeqOk .fg s) (hq : t.fgSeq = s.fgSeq) (hc : t.cfg = s.cfg)
    (hp : ProducerKept s.cfg.txCap s.tx t.tx) (hk : ConsumerKept s.rx t.rx) : SeqOk .fg t := by
  unfold SeqOk State.seq at *
  rw [hq]
  cases hs : s.fgSeq with
  | idle => trivial
  | busy task =>
    rw [hs] at h
    cases task with
    | submit bytes k stage =>
      obtain ⟨-, h⟩ := h
      refine ⟨rfl, ?_⟩
      cases stage with
      | s1 p =>
        obtain ⟨h1, b, h2, h3⟩ := h
        exact ⟨h1, b, h2, by rw [hc]; exact hp b p h3⟩
      | s2 => exact h
    | tryReceive stage => exact ⟨rfl, hk.2 _ h.2⟩
    | drainReceived out stage => exact ⟨rfl, hk.2 _ h.2⟩
    | push r b stage =>
      obtain ⟨h1, h2⟩ := h
      cases r
      · cases h1
      · exact ⟨h1, by simp only [State.cap, State.ring, hc]; exact hp b stage h2⟩
    | pop r stage =>
      obtain ⟨h1, h2⟩ := h
      cases r
      · exact ⟨h1, hk.2 _ h2⟩
      · cases h1
    | onTxReady free sent stage => cases h.1
    | onRxReady n i stage => cases h.1

/-- The handlers' sequencer stays in order while only the other agents step. -/
theorem SeqOk.isr_kept {s t : State} (h : SeqOk .isr s) (hq : t.isrSeq = s.isrSeq) (hc : t.cfg = s.cfg)
    (hp : ProducerKept s.cfg.rxCap s.rx t.rx) (hk : ConsumerKept s.tx t.tx) : SeqOk .isr t := by
  unfold SeqOk State.seq at *
  rw [hq]
  cases hs : s.isrSeq with
  | idle => trivial
  | busy task =>
    rw [hs] at h
    cases task with
    | submit bytes k stage => cases h.1
    | tryReceive stage => cases h.1
    | drainReceived out stage => cases h.1
    | push r b stage =>
      obtain ⟨h1, h2⟩ := h
      cases r
      · exact ⟨h1, by simp only [State.cap, State.ring, hc]; exact hp b stage h2⟩
      · cases h1
    | pop r stage =>
      obtain ⟨h1, h2⟩ := h
      cases r
      · cases h1
      · exact ⟨h1, hk.2 _ h2⟩
    | onTxReady free sent stage =>
      obtain ⟨-, h⟩ := h
      refine ⟨rfl, ?_⟩
      cases stage with
      | x3 p => exact ⟨h.1, hk.1 h.2.1, hk.2 _ h.2.2⟩
      | _ => exact h
    | onRxReady n i stage =>
      obtain ⟨-, h⟩ := h
      refine ⟨rfl, ?_⟩
      cases stage with
      | y3 b p => exact ⟨h.1, by rw [hc]; exact hp b p h.2⟩
      | _ => exact h

/-- The parts of the invariant that are not about the sequencers. -/
structure Base (s : State) : Prop where
  cfg : s.cfg.Valid
  rx : s.rx.Ok s.cfg.rxCap
  tx : s.tx.Ok s.cfg.txCap
  views : s.cfg.syncLag = false → ViewsExact s
  overrun : s.overrun ≤ s.cfg.overrunMax
  txFifo : s.plat.txFifo.length ≤ s.cfg.fifoTxCap
  rxFifo : s.plat.rxFifo.length ≤ s.cfg.fifoRxCap

theorem StateInv.base {s : State} (h : StateInv s) : Base s := ⟨h.cfg, h.rx, h.tx, h.views, h.overrun, h.txFifo, h.rxFifo⟩

theorem Base.inv {s : State} (h : Base s) (hf : SeqOk .fg s) (hi : SeqOk .isr s) : StateInv s :=
  ⟨h.cfg, h.rx, h.tx, h.views, h.overrun, h.txFifo, h.rxFifo, hf, hi⟩

/-- The base reads these fields only. -/
theorem Base.congr {s t : State} (h : Base s) (hc : t.cfg = s.cfg) (hr : t.rx = s.rx) (ht : t.tx = s.tx)
    (ha : t.txArmReq = s.txArmReq) (ho : t.overrun = s.overrun) (hp : t.plat.txFifo = s.plat.txFifo)
    (hq : t.plat.rxFifo = s.plat.rxFifo) : Base t := by
  refine ⟨hc ▸ h.cfg, hc ▸ hr ▸ h.rx, hc ▸ ht ▸ h.tx, fun hl => ?_, by rw [ho, hc]; exact h.overrun,
    by rw [hp, hc]; exact h.txFifo, by rw [hq, hc]; exact h.rxFifo⟩
  have := h.views (hc ▸ hl)
  unfold ViewsExact at *
  rw [hr, ht, ha]; exact this

/-- A change of one ring that keeps it in order keeps the base. -/
theorem Base.of_onlyRing {s t : State} (h : Base s) (r : RingId) (ho : OnlyRing r s t)
    (hr : (t.ring r).Ok (s.cap r)) (hv : (t.ring r).Exact s.cfg.syncLag) : Base t := by
  have hx : t.rx.Ok s.cfg.rxCap ∧ t.tx.Ok s.cfg.txCap ∧ t.rx.Exact s.cfg.syncLag ∧ t.tx.Exact s.cfg.syncLag := by
    have e1 : s.rx.Exact s.cfg.syncLag := fun hl => ⟨(h.views hl).1, (h.views hl).2.1⟩
    have e2 : s.tx.Exact s.cfg.syncLag := fun hl => ⟨(h.views hl).2.2.1, (h.views hl).2.2.2.1⟩
    cases r
    · have : t.tx = s.tx := ho.other .tx (by simp)
      exact ⟨hr, this ▸ h.tx, hv, this ▸ e2⟩
    · have : t.rx = s.rx := ho.other .rx (by simp)
      exact ⟨this ▸ h.rx, hr, this ▸ e1, hv⟩
  have hc := ho.cfg
  refine ⟨hc ▸ h.cfg, hc ▸ hx.1, hc ▸ hx.2.1, fun hl => ?_, by rw [ho.overrun, hc]; exact h.overrun,
    by rw [ho.plat, hc]; exact h.txFifo, by rw [ho.plat, hc]; exact h.rxFifo⟩
  rw [hc] at hl
  exact ⟨(hx.2.2.1 hl).1, (hx.2.2.1 hl).2, (hx.2.2.2 hl).1, (hx.2.2.2 hl).2, ho.armReq ▸ (h.views hl).2.2.2.2⟩

/-- How a micro-step of PUSH keeps the base, whatever is done with the state around it. -/
theorem Base.pushStep {s : State} (h : Base s) (r : RingId) (b : Byte) (p : PushStage)
    (hp : p.Ok (s.cap r) (s.ring r) b) :
    ∃ o t, pushStep r b p s = .ok (o, t) ∧ OnlyRing r s t ∧ Base t ∧ ConsumerKept (s.ring r) (t.ring r) ∧
      ∀ p', o = .more p' → p'.Ok (s.cap r) (t.ring r) b := by
  have hr : (s.ring r).Ok (s.cap r) := by cases r; exacts [h.rx, h.tx]
  have hv : (s.ring r).Exact s.cfg.syncLag := by
    intro hl
    cases r
    exacts [⟨(h.views hl).1, (h.views hl).2.1⟩, ⟨(h.views hl).2.2.1, (h.views hl).2.2.2.1⟩]
  have hc : 2 ≤ s.cap r := by cases r; exacts [h.cfg.1.1, h.cfg.2.1.1]
  obtain ⟨o, t, e, h1, h2, h3, h4⟩ := pushStep_keeps r b p s hr hv hc hp
  have ho := pushStep_onlyRing r b p s t o e
  exact ⟨o, t, e, ho, h.of_onlyRing r ho h1 h2, h3, h4⟩

/-- How a micro-step of POP keeps the base. -/
theorem Base.popStep {s : State} (h : Base s) (r : RingId) (p : PopStage) (hp : p.Ok (s.ring r)) :
    ∃ o t, popStep r p s = .ok (o, t) ∧ OnlyRing r s t ∧ Base t ∧
      ProducerKept (s.cap r) (s.ring r) (t.ring r) ∧
      (∀ p', o = .more p' → p'.Ok (t.ring r) ∧ (t.ring r).wrSeen ≠ (t.ring r).readIndex) ∧
      (o = .empty → (s.ring r).wrSeen = (s.ring r).readIndex) := by
  have hr : (s.ring r).Ok (s.cap r) := by cases r; exacts [h.rx, h.tx]
  have hv : (s.ring r).Exact s.cfg.syncLag := by
    intro hl
    cases r
    exacts [⟨(h.views hl).1, (h.views hl).2.1⟩, ⟨(h.views hl).2.2.1, (h.views hl).2.2.2.1⟩]
  obtain ⟨o, t, e, h1, h2, h3, h4, h5⟩ := popStep_keeps r p s hr hv hp
  have ho := popStep_onlyRing r p s t o e
  exact ⟨o, t, e, ho, h.of_onlyRing r ho h1 h2, h3, h4, h5⟩

/-! ## FG's micro-steps -/

/-- What a step of FG leaves in order: the base, the handlers' sequencer and what its locals rest on. -/
structure FgMoved (s t : State) : Prop where
  base : Base t
  cfg : t.cfg = s.cfg
  isrSeq : t.isrSeq = s.isrSeq
  rx : ProducerKept s.cfg.rxCap s.rx t.rx
  tx : ConsumerKept s.tx t.tx

theorem StateInv.of_fgMoved {s t : State} (h : StateInv s) (m : FgMoved s t) (q : Seq)
    (hq : match q with | .idle => True | .busy task => task.Ok .fg (t.setSeq .fg q)) : StateInv (t.setSeq .fg q) := by
  have hb : Base (t.setSeq .fg q) := m.base.congr (by simp) (by simp) (by simp) (by simp) (by simp) (by simp) (by simp)
  refine hb.inv ?_ (h.isr.isr_kept (by simp [m.isrSeq]) (by simp [m.cfg]) (by simpa using m.rx) (by simpa using m.tx))
  cases q with
  | idle => trivial
  | busy task => exact hq

theorem FgMoved.refl {s : State} (h : Base s) : FgMoved s s :=
  ⟨h, rfl, rfl, ProducerKept.refl _ _, ConsumerKept.refl _⟩

theorem FgMoved.ret {s t : State} (m : FgMoved s t) (a : Agent) (st : Status) (v : Value) : FgMoved s (t.ret a st v) :=
  ⟨m.base.congr rfl rfl rfl rfl rfl rfl rfl, m.cfg, m.isrSeq, m.rx, m.tx⟩

theorem FgMoved.armTx {s t : State} (m : FgMoved s t) : FgMoved s (armTx t) := by
  unfold Sys2Proof.Machine.armTx
  split
  case isTrue hl =>
    refine ⟨⟨m.base.cfg, m.base.rx, m.base.tx, fun hf => ?_, m.base.overrun, m.base.txFifo, m.base.rxFifo⟩,
      m.cfg, m.isrSeq, m.rx, m.tx⟩
    rw [State.setArmReq_cfg] at hf
    rw [hf] at hl
    cases hl
  case isFalse => exact ⟨m.base.congr rfl rfl rfl rfl rfl rfl rfl, m.cfg, m.isrSeq, m.rx, m.tx⟩

/-- A micro-step of a PUSH of the TX ring, driven by FG. -/
theorem fg_pushStep {s : State} (h : Base s) (b : Byte) (p : PushStage) (hp : p.Ok s.cfg.txCap s.tx b) :
    ∃ o t, pushStep .tx b p s = .ok (o, t) ∧ FgMoved s t ∧ ∀ p', o = .more p' → p'.Ok t.cfg.txCap t.tx b := by
  obtain ⟨o, t, e, ho, hb, hk, hm⟩ := h.pushStep .tx b p hp
  refine ⟨o, t, e, ⟨hb, ho.cfg, ho.isrSeq, ?_, hk⟩, fun p' hp' => ?_⟩
  · have : t.rx = s.rx := ho.other .rx (by simp)
    rw [this]; exact ProducerKept.refl _ _
  · rw [ho.cfg]; exact hm p' hp'

/-- A micro-step of a POP of the RX ring, driven by FG. -/
theorem fg_popStep {s : State} (h : Base s) (p : PopStage) (hp : p.Ok s.rx) :
    ∃ o t, popStep .rx p s = .ok (o, t) ∧ FgMoved s t ∧ ∀ p', o = .more p' → p'.Ok t.rx := by
  obtain ⟨o, t, e, ho, hb, hk, hm, -⟩ := h.popStep .rx p hp
  refine ⟨o, t, e, ⟨hb, ho.cfg, ho.isrSeq, hk, ?_⟩, fun p' hp' => (hm p' hp').1⟩
  have : t.tx = s.tx := ho.other .tx (by simp)
  rw [this]; exact ConsumerKept.refl _

/-- SUBMIT between two pushes. -/
theorem submitRound_ok (bytes : List Byte) (k : Nat) (hk : k ≤ bytes.length) (s : State) :
    (submitRound bytes k).Ok .fg s := by
  unfold submitRound
  split
  case isTrue h => exact ⟨rfl, h, bytes[k], by simp, trivial⟩
  case isFalse => exact ⟨rfl, hk⟩

/-- Every micro-step of FG answers and keeps the invariant. -/
theorem fg_taskStep_keeps {s : State} (h : StateInv s) (task : Task) (ht : task.Ok .fg s) :
    ∃ q t, taskStep task s = .ok (q, t) ∧ FgMoved s t ∧ StateInv (t.setSeq .fg q) := by
  cases task with
  | submit bytes k stage =>
    obtain ⟨-, ht⟩ := ht
    cases stage with
    | s1 p =>
      obtain ⟨hk, b, hb, hp⟩ := ht
      obtain ⟨o, t, e, m, hm⟩ := fg_pushStep h.base b p hp
      cases o with
      | more p' =>
        refine ⟨.busy (.submit bytes k (.s1 p')), t, by simp [taskStep, submitStep, hb, e], m, h.of_fgMoved m _ ?_⟩
        exact ⟨rfl, hk, b, hb, by simpa using hm p' rfl⟩
      | overflow =>
        refine ⟨.busy (.submit bytes k .s2), t, by simp [taskStep, submitStep, hb, e], m, h.of_fgMoved m _ ?_⟩
        exact ⟨rfl, Nat.le_of_lt hk⟩
      | accepted =>
        refine ⟨.busy (submitRound bytes (k + 1)), t, by simp [taskStep, submitStep, hb, e], m, h.of_fgMoved m _ ?_⟩
        exact submitRound_ok bytes (k + 1) hk _
    | s2 =>
      have m : FgMoved s (if 1 ≤ k then armTx s else s) := by
        split
        · exact (FgMoved.refl h.base).armTx
        · exact FgMoved.refl h.base
      exact ⟨.idle, _, rfl, m.ret _ _ _, h.of_fgMoved (m.ret _ _ _) _ trivial⟩
  | tryReceive stage =>
    obtain ⟨o, t, e, m, hm⟩ := fg_popStep h.base stage ht.2
    cases o with
    | more p' =>
      exact ⟨_, _, by simp only [taskStep, tryReceiveStep, e], m,
        h.of_fgMoved m (.busy (.tryReceive p')) ⟨rfl, by simpa using hm p' rfl⟩⟩
    | empty =>
      exact ⟨_, _, by simp only [taskStep, tryReceiveStep, e]; rfl, m.ret _ _ _,
        h.of_fgMoved (m.ret _ _ _) .idle trivial⟩
    | took b =>
      exact ⟨_, _, by simp only [taskStep, tryReceiveStep, e]; rfl, m.ret _ _ _,
        h.of_fgMoved (m.ret _ _ _) .idle trivial⟩
  | drainReceived out stage =>
    obtain ⟨o, t, e, m, hm⟩ := fg_popStep h.base stage ht.2
    cases o with
    | more p' =>
      exact ⟨_, _, by simp only [taskStep, drainReceivedStep, e], m,
        h.of_fgMoved m (.busy (.drainReceived out p')) ⟨rfl, by simpa using hm p' rfl⟩⟩
    | empty =>
      exact ⟨_, _, by simp only [taskStep, drainReceivedStep, e]; rfl, m.ret _ _ _,
        h.of_fgMoved (m.ret _ _ _) .idle trivial⟩
    | took b =>
      exact ⟨_, _, by simp only [taskStep, drainReceivedStep, e], m,
        h.of_fgMoved m (.busy (.drainReceived (out ++ [b]) .c1)) ⟨rfl, trivial⟩⟩
  | push r b stage =>
    obtain ⟨hd, hp⟩ := ht
    cases r
    · cases hd
    · obtain ⟨o, t, e, m, hm⟩ := fg_pushStep h.base b stage hp
      cases o with
      | more p' =>
        exact ⟨_, _, by simp only [taskStep, directPushStep, e], m,
          h.of_fgMoved m (.busy (.push .tx b p')) ⟨rfl, by simpa using hm p' rfl⟩⟩
      | overflow =>
        exact ⟨_, _, by simp only [taskStep, directPushStep, e]; rfl, m.ret _ _ _,
          h.of_fgMoved (m.ret _ _ _) .idle trivial⟩
      | accepted =>
        exact ⟨_, _, by simp only [taskStep, directPushStep, e]; rfl, m.ret _ _ _,
          h.of_fgMoved (m.ret _ _ _) .idle trivial⟩
  | pop r stage =>
    obtain ⟨hd, hp⟩ := ht
    cases r
    · obtain ⟨o, t, e, m, hm⟩ := fg_popStep h.base stage hp
      cases o with
      | more p' =>
        exact ⟨_, _, by simp only [taskStep, directPopStep, e], m,
          h.of_fgMoved m (.busy (.pop .rx p')) ⟨rfl, by simpa using hm p' rfl⟩⟩
      | empty =>
        exact ⟨_, _, by simp only [taskStep, directPopStep, e]; rfl, m.ret _ _ _,
          h.of_fgMoved (m.ret _ _ _) .idle trivial⟩
      | took b =>
        exact ⟨_, _, by simp only [taskStep, directPopStep, e]; rfl, m.ret _ _ _,
          h.of_fgMoved (m.ret _ _ _) .idle trivial⟩
    · cases hd
  | onTxReady free sent stage => cases ht.1
  | onRxReady n i stage => cases ht.1

/-! ## The handlers' micro-steps -/

/-- What a step of a handler leaves in order. -/
structure IsrMoved (s t : State) : Prop where
  base : Base t
  cfg : t.cfg = s.cfg
  fgSeq : t.fgSeq = s.fgSeq
  tx : ProducerKept s.cfg.txCap s.tx t.tx
  rx : ConsumerKept s.rx t.rx

theorem StateInv.of_isrMoved {s t : State} (h : StateInv s) (m : IsrMoved s t) (q : Seq)
    (hq : match q with | .idle => True | .busy task => task.Ok .isr (t.setSeq .isr q)) : StateInv (t.setSeq .isr q) := by
  have hb : Base (t.setSeq .isr q) := m.base.congr (by simp) (by simp) (by simp) (by simp) (by simp) (by simp) (by simp)
  refine hb.inv (h.fg.fg_kept (by simp [m.fgSeq]) (by simp [m.cfg]) (by simpa using m.tx) (by simpa using m.rx)) ?_
  cases q with
  | idle => trivial
  | busy task => exact hq

theorem IsrMoved.refl {s : State} (h : Base s) : IsrMoved s s :=
  ⟨h, rfl, rfl, ProducerKept.refl _ _, ConsumerKept.refl _⟩

/-- A handler's step that leaves the rings alone. -/
theorem IsrMoved.congr {s t u : State} (m : IsrMoved s t) (hc : u.cfg = t.cfg) (hr : u.rx = t.rx) (ht : u.tx = t.tx)
    (ha : u.txArmReq = t.txArmReq) (hf : u.fgSeq = t.fgSeq) (ho : u.overrun ≤ t.cfg.overrunMax)
    (hp : u.plat.txFifo.length ≤ t.cfg.fifoTxCap) (hq : u.plat.rxFifo.length ≤ t.cfg.fifoRxCap) : IsrMoved s u := by
  refine ⟨⟨hc ▸ m.base.cfg, hc ▸ hr ▸ m.base.rx, hc ▸ ht ▸ m.base.tx, fun hl => ?_, hc ▸ ho, hc ▸ hp, hc ▸ hq⟩,
    hc.trans m.cfg, hf.trans m.fgSeq, ht ▸ m.tx, hr ▸ m.rx⟩
  have := m.base.views (hc ▸ hl)
  unfold ViewsExact at *
  rw [hr, ht, ha]; exact this

/-- A micro-step of a PUSH of the RX ring, driven by a handler. -/
theorem isr_pushStep {s : State} (h : Base s) (b : Byte) (p : PushStage) (hp : p.Ok s.cfg.rxCap s.rx b) :
    ∃ o t, pushStep .rx b p s = .ok (o, t) ∧ IsrMoved s t ∧ ∀ p', o = .more p' → p'.Ok t.cfg.rxCap t.rx b := by
  obtain ⟨o, t, e, ho, hb, hk, hm⟩ := h.pushStep .rx b p hp
  refine ⟨o, t, e, ⟨hb, ho.cfg, ho.fgSeq, ?_, hk⟩, fun p' hp' => ?_⟩
  · have : t.tx = s.tx := ho.other .tx (by simp)
    rw [this]; exact ProducerKept.refl _ _
  · rw [ho.cfg]; exact hm p' hp'

/-- A micro-step of a POP of the TX ring, driven by a handler. -/
theorem isr_popStep {s : State} (h : Base s) (p : PopStage) (hp : p.Ok s.tx) :
    ∃ o t, popStep .tx p s = .ok (o, t) ∧ IsrMoved s t ∧
      (∀ p', o = .more p' → p'.Ok t.tx ∧ t.tx.wrSeen ≠ t.tx.readIndex) ∧
      (o = .empty → s.tx.wrSeen = s.tx.readIndex) := by
  obtain ⟨o, t, e, ho, hb, hk, hm, he⟩ := h.popStep .tx p hp
  refine ⟨o, t, e, ⟨hb, ho.cfg, ho.fgSeq, hk, ?_⟩, hm, he⟩
  have : t.rx = s.rx := ho.other .rx (by simp)
  rw [this]; exact ConsumerKept.refl _

/-- A capability call changes neither a ring nor a sequencer, and no FIFO outgrows its capacity. -/
theorem callTxWrite_moved {s : State} (h : Base s) (b : Byte) : IsrMoved s (callTxWrite b s) := by
  unfold callTxWrite
  split
  case isTrue hl =>
    exact (IsrMoved.refl h).congr rfl rfl rfl rfl rfl h.overrun (by simp; omega) h.rxFifo
  case isFalse => exact (IsrMoved.refl h).congr rfl rfl rfl rfl rfl h.overrun h.txFifo h.rxFifo

theorem callRxRead_moved {s : State} (h : Base s) : IsrMoved s (callRxRead s) := by
  unfold callRxRead
  cases hf : s.plat.rxFifo with
  | nil => exact (IsrMoved.refl h).congr rfl rfl rfl rfl rfl h.overrun h.txFifo h.rxFifo
  | cons c l =>
    have := h.rxFifo
    rw [hf] at this
    exact (IsrMoved.refl h).congr rfl rfl rfl rfl rfl h.overrun h.txFifo (by simp at this ⊢; omega)

theorem countOverrun_moved {s t : State} (m : IsrMoved s t) : IsrMoved s (countOverrun t) := by
  refine m.congr rfl rfl rfl rfl rfl ?_ m.base.txFifo m.base.rxFifo
  have := m.base.overrun
  simp only [countOverrun, satInc, State.setOverrun_overrun]
  split <;> omega

theorem disarmTx_moved {s : State} (h : Base s) : IsrMoved s (disarmTx s) := by
  unfold disarmTx
  split
  · exact (IsrMoved.refl h).congr rfl rfl rfl rfl rfl h.overrun h.txFifo h.rxFifo
  · exact IsrMoved.refl h

theorem rxRound_ok (n i : Nat) (hi : i ≤ n) (s : State) : (rxRound n i).Ok .isr s := by
  unfold rxRound
  split
  case isTrue h => exact ⟨rfl, h⟩
  case isFalse h => exact ⟨rfl, Nat.lt_of_le_of_ne hi h⟩

/-- Every micro-step of a handler answers and keeps the invariant. -/
theorem isr_taskStep_keeps {s : State} (h : StateInv s) (task : Task) (ht : task.Ok .isr s) :
    ∃ q t, taskStep task s = .ok (q, t) ∧ IsrMoved s t ∧ StateInv (t.setSeq .isr q) := by
  have hb := h.base
  have quiet : ∀ {u : State}, u.cfg = s.cfg → u.rx = s.rx → u.tx = s.tx → u.txArmReq = s.txArmReq →
      u.fgSeq = s.fgSeq → u.overrun = s.overrun → u.plat.txFifo = s.plat.txFifo → u.plat.rxFifo = s.plat.rxFifo →
      IsrMoved s u := fun a1 a2 a3 a4 a5 a6 a7 a8 =>
    (IsrMoved.refl hb).congr a1 a2 a3 a4 a5 (a6 ▸ hb.overrun) (a7 ▸ hb.txFifo) (a8 ▸ hb.rxFifo)
  cases task with
  | submit bytes k stage => cases ht.1
  | tryReceive stage => cases ht.1
  | drainReceived out stage => cases ht.1
  | push r b stage =>
    obtain ⟨hd, hp⟩ := ht
    cases r
    · obtain ⟨o, t, e, m, hm⟩ := isr_pushStep hb b stage hp
      have mr := fun st => m.congr (u := t.ret (producer .rx) st .none) rfl rfl rfl rfl rfl m.base.overrun m.base.txFifo
        m.base.rxFifo
      cases o with
      | more p' =>
        exact ⟨_, _, by simp only [taskStep, directPushStep, e], m,
          h.of_isrMoved m (.busy (.push .rx b p')) ⟨rfl, by simpa using hm p' rfl⟩⟩
      | overflow =>
        exact ⟨_, _, by simp only [taskStep, directPushStep, e]; rfl, mr _, h.of_isrMoved (mr _) .idle trivial⟩
      | accepted =>
        exact ⟨_, _, by simp only [taskStep, directPushStep, e]; rfl, mr _, h.of_isrMoved (mr _) .idle trivial⟩
    · cases hd
  | pop r stage =>
    obtain ⟨hd, hp⟩ := ht
    cases r
    · cases hd
    · obtain ⟨o, t, e, m, hm, -⟩ := isr_popStep hb stage hp
      have mr := fun st v => m.congr (u := t.ret (consumer .tx) st v) rfl rfl rfl rfl rfl m.base.overrun m.base.txFifo
        m.base.rxFifo
      cases o with
      | more p' =>
        exact ⟨_, _, by simp only [taskStep, directPopStep, e], m,
          h.of_isrMoved m (.busy (.pop .tx p')) ⟨rfl, by simpa using (hm p' rfl).1⟩⟩
      | empty =>
        exact ⟨_, _, by simp only [taskStep, directPopStep, e]; rfl, mr _ _,
          h.of_isrMoved (mr _ _) .idle trivial⟩
      | took b =>
        exact ⟨_, _, by simp only [taskStep, directPopStep, e]; rfl, mr _ _,
          h.of_isrMoved (mr _ _) .idle trivial⟩
  | onTxReady free sent stage =>
    obtain ⟨-, ht⟩ := ht
    cases stage with
    | x0 =>
      have m : IsrMoved s (callFreeSlots s) := quiet rfl rfl rfl rfl rfl rfl rfl rfl
      exact ⟨_, _, rfl, m, h.of_isrMoved m _ ⟨rfl, Nat.zero_le _⟩⟩
    | x1 =>
      by_cases he : txSeenEmpty s = true
      · have m := disarmTx_moved hb
        exact ⟨.busy (.onTxReady free sent .x4), disarmTx s, by simp [taskStep, onTxReadyStep, he], m,
          h.of_isrMoved m _ ⟨rfl, ht⟩⟩
      · have hne : s.tx.wrSeen ≠ s.tx.readIndex := by simpa [txSeenEmpty] using he
        by_cases hs : sent = free
        · have m := IsrMoved.refl hb
          exact ⟨.busy (.onTxReady free sent .x4), s, by simp [taskStep, onTxReadyStep, he, hs], m,
            h.of_isrMoved m _ ⟨rfl, ht⟩⟩
        · have m := IsrMoved.refl hb
          exact ⟨.busy (.onTxReady free sent (.x3 .c1)), s, by simp [taskStep, onTxReadyStep, he, hs], m,
            h.of_isrMoved m _ ⟨rfl, Nat.lt_of_le_of_ne ht hs, by simpa using hne, trivial⟩⟩
    | x3 p =>
      obtain ⟨hlt, hne, hp⟩ := ht
      obtain ⟨o, t, e, m, hm, he⟩ := isr_popStep hb p hp
      cases o with
      | more p' =>
        exact ⟨_, _, by simp only [taskStep, onTxReadyStep, e], m,
          h.of_isrMoved m (.busy (.onTxReady free sent (.x3 p')))
            ⟨rfl, hlt, by simpa using (hm p' rfl).2, by simpa using (hm p' rfl).1⟩⟩
      | empty => exact absurd (he rfl) hne
      | took b =>
        exact ⟨_, _, by simp only [taskStep, onTxReadyStep, e], m,
          h.of_isrMoved m (.busy (.onTxReady free sent (.x3w b))) ⟨rfl, hlt⟩⟩
    | x3w b =>
      have m := callTxWrite_moved hb b
      exact ⟨_, _, rfl, m, h.of_isrMoved m _ ⟨rfl, Nat.succ_le_of_lt ht⟩⟩
    | x4 =>
      have m : IsrMoved s (callClearTxFlag s) := quiet rfl rfl rfl rfl rfl rfl rfl rfl
      exact ⟨_, _, rfl, m, h.of_isrMoved m _ ⟨rfl, ht⟩⟩
    | x5 =>
      have m : IsrMoved s (leaveHandler (s.ret .isrTx .ok .none)) := quiet rfl rfl rfl rfl rfl rfl rfl rfl
      exact ⟨_, _, rfl, m, h.of_isrMoved m _ trivial⟩
  | onRxReady n i stage =>
    obtain ⟨-, ht⟩ := ht
    cases stage with
    | y0 =>
      have m : IsrMoved s (callOccupancy s) := quiet rfl rfl rfl rfl rfl rfl rfl rfl
      exact ⟨_, _, rfl, m, h.of_isrMoved m _ (rxRound_ok _ 0 (Nat.zero_le _) _)⟩
    | y2 =>
      have m := callRxRead_moved hb
      exact ⟨_, _, rfl, m, h.of_isrMoved m _ ⟨rfl, ht, trivial⟩⟩
    | y3 b p =>
      obtain ⟨hlt, hp⟩ := ht
      obtain ⟨o, t, e, m, hm⟩ := isr_pushStep hb b p hp
      cases o with
      | more p' =>
        exact ⟨_, _, by simp only [taskStep, onRxReadyStep, e], m,
          h.of_isrMoved m (.busy (.onRxReady n i (.y3 b p'))) ⟨rfl, hlt, by simpa using hm p' rfl⟩⟩
      | overflow =>
        have m' := countOverrun_moved m
        exact ⟨_, _, by simp only [taskStep, onRxReadyStep, e], m',
          h.of_isrMoved m' (.busy (rxRound n (i + 1))) (rxRound_ok n (i + 1) hlt _)⟩
      | accepted =>
        exact ⟨_, _, by simp only [taskStep, onRxReadyStep, e], m,
          h.of_isrMoved m (.busy (rxRound n (i + 1))) (rxRound_ok n (i + 1) hlt _)⟩
    | y4 =>
      have m : IsrMoved s (callClearRxOvf s) := quiet rfl rfl rfl rfl rfl rfl rfl rfl
      exact ⟨_, _, rfl, m, h.of_isrMoved m _ ⟨rfl, ht⟩⟩
    | y5 =>
      have m : IsrMoved s (callClearRxFlag s) := quiet rfl rfl rfl rfl rfl rfl rfl rfl
      exact ⟨_, _, rfl, m, h.of_isrMoved m _ ⟨rfl, ht⟩⟩
    | y6 =>
      have m : IsrMoved s (leaveHandler (s.ret .isrRx .ok .none)) := quiet rfl rfl rfl rfl rfl rfl rfl rfl
      exact ⟨_, _, rfl, m, h.of_isrMoved m _ trivial⟩

/-- Every micro-step answers and keeps the invariant. -/
theorem microStep_keeps {s : State} (h : StateInv s) (d : Side) : ∃ t, microStep d s = .ok t ∧ StateInv t := by
  unfold microStep
  cases hs : s.seq d with
  | idle => exact ⟨s, rfl, h⟩
  | busy task =>
    cases d with
    | fg =>
      have ht : task.Ok .fg s := by have := h.fg; unfold SeqOk at this; rw [hs] at this; exact this
      obtain ⟨q, t, e, -, hi⟩ := fg_taskStep_keeps h task ht
      exact ⟨_, by simp [e], hi⟩
    | isr =>
      have ht : task.Ok .isr s := by have := h.isr; unfold SeqOk at this; rw [hs] at this; exact this
      obtain ⟨q, t, e, -, hi⟩ := isr_taskStep_keeps h task ht
      exact ⟨_, by simp [e], hi⟩

/-- A run of micro-steps answers and keeps the invariant. -/
theorem runSeq_keeps (d : Side) (n : Nat) {s : State} (h : StateInv s) : ∃ t, runSeq d n s = .ok t ∧ StateInv t := by
  induction n generalizing s with
  | zero => exact ⟨s, rfl, h⟩
  | succ n ih =>
    cases hs : s.seq d with
    | idle => exact ⟨s, by simp [runSeq, hs], h⟩
    | busy task =>
      obtain ⟨t, e, hi⟩ := microStep_keeps h d
      obtain ⟨u, e', hu⟩ := ih hi
      exact ⟨u, by simp [runSeq, hs, e, e'], hu⟩

end Sys2Proof.Machine
end

