-- ==== Sys2Proof/Laws/Run.lean ====
section
/-! SUPPORT. How a command starts (the check, the launch), how a run of micro-steps unfolds, and PUSH and POP as a whole
in closed form. -/

namespace Sys2Proof.Machine

-- Proofs are checked one after another, so that the package as one text needs few threads.
set_option Elab.async false

/-! ## The check and the launch -/

theorem guarded_run {i : Instr} {s : State} (h : MayRun i s) (run : State → Host.Outcome State Fault Refusal) :
    guarded i s run = run s := by
  simp [guarded, h.1, h.2]

theorem guarded_context {i : Instr} {s : State} (h : permitted i s = false)
    (run : State → Host.Outcome State Fault Refusal) : guarded i s run = .next (s.ret s.issue.agent .context .none) := by
  simp [guarded, h]

theorem guarded_waits {i : Instr} {s : State} (h : permitted i s = true) (hr : ready s.issue.agent s = false)
    (run : State → Host.Outcome State Fault Refusal) : guarded i s run = .next s := by
  simp [guarded, h, hr]

/-- Everything the check can do. -/
theorem guarded_cases (i : Instr) (s : State) (run : State → Host.Outcome State Fault Refusal) :
    (MayRun i s ∧ guarded i s run = run s) ∨ (permitted i s = true ∧ guarded i s run = .next s) ∨
      (permitted i s = false ∧ guarded i s run = .next (s.ret s.issue.agent .context .none)) := by
  cases hp : permitted i s with
  | false => exact .inr (.inr ⟨rfl, guarded_context hp run⟩)
  | true =>
    cases hr : ready s.issue.agent s with
    | false => exact .inr (.inl ⟨rfl, guarded_waits hp hr run⟩)
    | true => exact .inl ⟨⟨hp, hr⟩, guarded_run ⟨hp, hr⟩ run⟩

theorem launch_micro {s : State} (h : s.issue.grain = .micro) (t : Task) (n : Nat) :
    launch t n s = .next (s.setSeq (taskSide t) (.busy t)) := by
  simp [launch, h]

theorem launch_whole {s : State} (h : s.issue.grain = .whole) (t : Task) (n : Nat) :
    launch t n s = outcome (runSeq (taskSide t) n (s.setSeq (taskSide t) (.busy t))) := by
  simp [launch, h]

/-- An agent that may start an operation has its sequencer idle (20 R82). -/
theorem ready_fg {s : State} (h : ready .fg s = true) : s.fgSeq = .idle ∧ s.isrSeq = .idle := by
  simpa [ready] using h

theorem ready_isr {a : Agent} {s : State} (h : ready a s = true) (ha : a ≠ .sync) : s.isrSeq = .idle := by
  cases a
  · exact (ready_fg h).2
  · simpa [ready] using h
  · simpa [ready] using h
  · exact absurd rfl ha
  · simpa [ready] using h

/-! ## A sequencer's content does not matter to the state around it -/

theorem pushStep_setSeq (r : RingId) (b : Byte) (p : PushStage) (s : State) (d : Side) (q : Seq) :
    pushStep r b p (s.setSeq d q) =
      match pushStep r b p s with
      | .ok (o, t) => .ok (o, t.setSeq d q)
      | .error e => .error e := by
  cases p with
  | p1 => simp only [pushStep, State.setSeq_ring, State.setSeq_cap]; split <;> rfl
  | p2 l =>
    simp only [pushStep, memWrite, State.setSeq_cap]
    by_cases h : l.wi < s.cap r
    · simp only [if_pos h]; cases r <;> cases d <;> rfl
    · simp only [if_neg h]
  | p3 l => cases r <;> cases d <;> rfl

theorem popStep_setSeq (r : RingId) (p : PopStage) (s : State) (d : Side) (q : Seq) :
    popStep r p (s.setSeq d q) =
      match popStep r p s with
      | .ok (o, t) => .ok (o, t.setSeq d q)
      | .error e => .error e := by
  cases p with
  | c1 => simp only [popStep, State.setSeq_ring]; split <;> rfl
  | c2 l =>
    simp only [popStep, memRead, State.setSeq_cap, State.setSeq_cell, State.setSeq_freeCount]
    by_cases h : l.ri < s.cap r
    · simp only [if_pos h]
      cases s.cell r l.ri with
      | some b => rfl
      | none => cases d <;> rfl
    · simp only [if_neg h]
  | c3 l b => cases r <;> cases d <;> rfl

/-- One micro-step of the operation just entered, as its own step on the state around it. -/
theorem microStep_setSeq (d : Side) (t : Task) (s : State) :
    microStep d (s.setSeq d (.busy t)) =
      match taskStep t s with
      | .ok (q, u) => .ok (u.setSeq d q)
      | .error e => .error e := by
  have hs : (s.setSeq d (.busy t)).seq d = .busy t := by cases d <;> rfl
  have twice : ∀ (u : State) (q q' : Seq), (u.setSeq d q).setSeq d q' = u.setSeq d q' := fun u q q' => by cases d <;> rfl
  have hret : ∀ (u : State) (q : Seq) a st v, (u.setSeq d q).ret a st v = (u.ret a st v).setSeq d q :=
    fun u q a st v => by cases d <;> rfl
  simp only [microStep, hs]
  cases t with
  | submit bytes k stage =>
    cases stage with
    | s1 p =>
      simp only [taskStep, submitStep]
      cases bytes[k]? with
      | none => cases d <;> rfl
      | some b =>
        simp only [pushStep_setSeq]
        cases pushStep .tx b p s with
        | error e => rfl
        | ok x => obtain ⟨o, u⟩ := x; cases o <;> simp [twice]
    | s2 =>
      simp only [taskStep, submitStep]
      split
      case isTrue =>
        simp only [armTx, State.setSeq_cfg]
        split <;> (cases d <;> rfl)
      case isFalse => cases d <;> rfl
  | tryReceive stage =>
    simp only [taskStep, tryReceiveStep, popStep_setSeq]
    cases popStep .rx stage s with
    | error e => rfl
    | ok x => obtain ⟨o, u⟩ := x; cases o <;> simp [twice, hret]
  | drainReceived out stage =>
    simp only [taskStep, drainReceivedStep, popStep_setSeq]
    cases popStep .rx stage s with
    | error e => rfl
    | ok x => obtain ⟨o, u⟩ := x; cases o <;> simp [twice, hret]
  | push r b stage =>
    simp only [taskStep, directPushStep, pushStep_setSeq]
    cases pushStep r b stage s with
    | error e => rfl
    | ok x => obtain ⟨o, u⟩ := x; cases o <;> simp [twice, hret]
  | pop r stage =>
    simp only [taskStep, directPopStep, popStep_setSeq]
    cases popStep r stage s with
    | error e => rfl
    | ok x => obtain ⟨o, u⟩ := x; cases o <;> simp [twice, hret]
  | onTxReady free sent stage =>
    cases stage with
    | x0 => cases d <;> rfl
    | x1 =>
      have h : txSeenEmpty (s.setSeq d (.busy (.onTxReady free sent .x1))) = txSeenEmpty s := by cases d <;> rfl
      simp only [taskStep, onTxReadyStep, disarmTx, h]
      cases txSeenEmpty s with
      | true => cases d <;> rfl
      | false =>
        by_cases hf : sent = free
        · simp [hf, twice]
        · simp [hf, twice]
    | x3 p =>
      simp only [taskStep, onTxReadyStep, popStep_setSeq]
      cases popStep .tx p s with
      | error e => rfl
      | ok x => obtain ⟨o, u⟩ := x; cases o <;> simp [twice]
    | x3w b =>
      simp only [taskStep, onTxReadyStep, callTxWrite, State.setSeq_plat, State.setSeq_cfg]
      split <;> (cases d <;> rfl)
    | x4 => cases d <;> rfl
    | x5 => cases d <;> rfl
  | onRxReady n i stage =>
    cases stage with
    | y0 => cases d <;> rfl
    | y2 =>
      simp only [taskStep, onRxReadyStep, callRxRead, readAnswer, State.setSeq_plat]
      cases s.plat.rxFifo <;> (cases d <;> rfl)
    | y3 b p =>
      simp only [taskStep, onRxReadyStep, pushStep_setSeq]
      cases pushStep .rx b p s with
      | error e => rfl
      | ok x => obtain ⟨o, u⟩ := x; cases o <;> cases d <;> rfl
    | y4 => cases d <;> rfl
    | y5 => cases d <;> rfl
    | y6 => cases d <;> rfl

/-! ## Runs of micro-steps -/

theorem runSeq_idle (d : Side) (n : Nat) (s : State) (h : s.seq d = .idle) : runSeq d n s = .ok s := by
  cases n <;> simp [runSeq, h]

@[simp] theorem runSeq_setSeq_idle (d : Side) (n : Nat) (s : State) :
    runSeq d n (s.setSeq d .idle) = .ok (s.setSeq d .idle) :=
  runSeq_idle d n _ (by cases d <;> rfl)

/-- A run begins with its first micro-step. -/
theorem runSeq_busy (d : Side) (n : Nat) (t : Task) (s : State) :
    runSeq d (n + 1) (s.setSeq d (.busy t)) =
      match taskStep t s with
      | .ok (q, u) => runSeq d n (u.setSeq d q)
      | .error e => .error e := by
  have hs : (s.setSeq d (.busy t)).seq d = .busy t := by cases d <;> rfl
  simp only [runSeq, hs, microStep_setSeq]
  cases taskStep t s with
  | ok x => rfl
  | error e => rfl

/-- A run begins with its first micro-step, when that answers. -/
theorem runSeq_step (d : Side) (n : Nat) {t : Task} {s u : State} {q : Seq} (h : taskStep t s = .ok (q, u)) :
    runSeq d (n + 1) (s.setSeq d (.busy t)) = runSeq d n (u.setSeq d q) := by
  rw [runSeq_busy, h]

/-! ## PUSH and POP whole, in a ring with its indices in range -/

/-- The three answers of a PUSH that is accepted. -/
theorem pushStep_accept (r : RingId) (b : Byte) (s : State) (hw : (s.ring r).writeIndex < s.cap r)
    (hf : inc (s.cap r) (s.ring r).writeIndex ≠ (s.ring r).rdSeen) :
    ∃ l u, pushStep r b .p1 s = .ok (.more (.p2 l), s) ∧ pushStep r b (.p2 l) s = .ok (.more (.p3 l), u) ∧
      pushStep r b (.p3 l) u = .ok (.accepted, s.setRing r (ringStored (s.cap r) s.cfg.syncLag [b] (s.ring r))) := by
  refine ⟨⟨(s.ring r).writeIndex, (s.ring r).rdSeen, inc (s.cap r) (s.ring r).writeIndex⟩,
    s.setRing r { s.ring r with storage := (s.ring r).storage.write (s.ring r).writeIndex b },
    by simp [pushStep, hf], by simp [pushStep, memWrite, hw], ?_⟩
  cases r <;> cases h : s.cfg.syncLag <;> simp [pushStep, setWriteIndex, ringStored, writeRun, State.setRing, State.ring, inc, h]

theorem pushStep_full (r : RingId) (b : Byte) (s : State)
    (hf : inc (s.cap r) (s.ring r).writeIndex = (s.ring r).rdSeen) : pushStep r b .p1 s = .ok (.overflow, s) := by
  simp [pushStep, hf]

/-- The three answers of a POP that finds a byte. -/
theorem popStep_take (r : RingId) (s : State) (b : Byte) (hr : (s.ring r).readIndex < s.cap r)
    (hne : (s.ring r).wrSeen ≠ (s.ring r).readIndex) (hb : s.cell r (s.ring r).readIndex = some b) :
    ∃ l, popStep r .c1 s = .ok (.more (.c2 l), s) ∧ popStep r (.c2 l) s = .ok (.more (.c3 l b), s) ∧
      popStep r (.c3 l b) s = .ok (.took b, s.setRing r (ringConsumed (s.cap r) s.cfg.syncLag 1 (s.ring r))) := by
  refine ⟨⟨(s.ring r).readIndex, (s.ring r).wrSeen⟩, by simp [popStep, hne], by simp [popStep, memRead, hr, hb], ?_⟩
  cases h : s.cfg.syncLag <;> simp [popStep, setReadIndex, ringConsumed, inc, h]

theorem popStep_empty (r : RingId) (s : State) (he : (s.ring r).wrSeen = (s.ring r).readIndex) :
    popStep r .c1 s = .ok (.empty, s) := by
  simp [popStep, he]

end Sys2Proof.Machine
end

