-- ==== Sys2Proof/Laws/Driver.lean ====
section
/-! SUPPORT. The driver's operations in closed form: what a run of SUBMIT, DRAIN_RECEIVED, ON_TX_READY or ON_RX_READY
leaves, by induction on the bytes it moves. -/

namespace Sys2Proof.Machine

-- Proofs are checked one after another, so that the package as one text needs few threads.
set_option Elab.async false

/-! ## Who runs what -/

/-- The agent that may run a PUSH is the ring's producer. -/
theorem agent_push {r b s} (h : MayRun (.push r b) s) : s.issue.agent = producer r := by
  have := h.1; simp [permitted, mayIssue] at this; exact this.2

/-- The agent that may run a POP is the ring's consumer. -/
theorem agent_pop {r s} (h : MayRun (.pop r) s) : s.issue.agent = consumer r := by
  have := h.1; simp [permitted, mayIssue] at this; exact this.2

theorem push_seq_idle {r b s} (h : MayRun (.push r b) s) (p) : s.seq (taskSide (.push r b p)) = .idle := by
  have ha := agent_push h
  have hr := h.2
  rw [ha] at hr
  cases r
  · exact ready_isr hr (by decide)
  · exact (ready_fg hr).1

theorem pop_seq_idle {r s} (h : MayRun (.pop r) s) (p) : s.seq (taskSide (.pop r p)) = .idle := by
  have ha := agent_pop h
  have hr := h.2
  rw [ha] at hr
  cases r
  · exact (ready_fg hr).1
  · exact ready_isr hr (by decide)

theorem setSeq_idle {s : State} {d} (h : s.seq d = .idle) : s.setSeq d .idle = s := by rw [← h]; simp

theorem agent_submit {bs s} (h : MayRun (.submit bs) s) : s.issue.agent = .fg := by
  have := h.1; simp [permitted, mayIssue] at this; exact this.2

theorem agent_drain {s} (h : MayRun .drainReceived s) : s.issue.agent = .fg := by
  have := h.1; simp [permitted, mayIssue] at this; exact this.2

theorem agent_try {s} (h : MayRun .tryReceive s) : s.issue.agent = .fg := by
  have := h.1; simp [permitted, mayIssue] at this; exact this.2

theorem onTxReady_isr_idle {s} (h : MayRun .onTxReady s) : s.isrSeq = .idle := by
  refine ready_isr h.2 fun hh => ?_
  have := h.1; simp [permitted, mayIssue, hh] at this

theorem onRxReady_isr_idle {s} (h : MayRun .onRxReady s) : s.isrSeq = .idle := by
  refine ready_isr h.2 fun hh => ?_
  have := h.1; simp [permitted, mayIssue, hh] at this

/-! ## Storing and SUBMIT -/

/-- The producer sees no room exactly if PUSH rejects. -/
theorem roomSeen_zero_iff {s : State} {r} (hc : 2 ≤ s.cap r) (h : (s.ring r).InRange (s.cap r)) :
    roomSeen r s = 0 ↔ inc (s.cap r) (s.ring r).writeIndex = (s.ring r).rdSeen := by
  rw [inc_eq_iff_full _ _ _ hc h.2.1 h.2.2.1, roomSeen, producerLen]
  have := dist_lt (s.cap r) (s.ring r).writeIndex (s.ring r).rdSeen (by omega)
  omega

theorem ringStored_one (cap lag b x) :
    ringStored cap lag [b] x = { x with storage := x.storage.write x.writeIndex b, writeIndex := inc cap x.writeIndex, wrSeen := if lag = true then x.wrSeen else inc cap x.writeIndex } := by
  cases lag <;> simp [ringStored, writeRun, inc]

theorem ringStored_inRange {cap lag b} {x : Ring} (h : x.InRange cap) : (ringStored cap lag [b] x).InRange cap := by
  rw [ringStored_one]
  have := inc_lt cap _ h.2.1
  refine ⟨h.1, this, h.2.2.1, ?_⟩
  cases lag <;> simp [this, h.2.2.2]

/-- Storing a byte, then the rest. -/
theorem ringStored_cons (cap lag b bs x) (h : x.writeIndex < cap) : ringStored cap lag
    (b :: bs) x = ringStored cap lag bs (ringStored cap lag [b] x) := by
  rw [ringStored_one]
  have e : (x.writeIndex + (bs.length + 1)) % cap = (inc cap x.writeIndex + bs.length) % cap := by
    unfold inc; rw [Nat.mod_add_mod]; congr 1; omega
  cases lag <;> simp [ringStored, writeRun, e]
  intro hb; subst hb; simp [inc]

theorem ringStored_nil (cap lag x) (h : x.writeIndex < cap) : ringStored cap lag [] x = x := by
  simp [ringStored, writeRun, Nat.mod_eq_of_lt h]

/-- A byte stored takes one byte of room. -/
theorem roomSeen_stored {s : State} {r b} (hc : 2 ≤ s.cap r) (h : (s.ring r).InRange (s.cap r))
    (hf : roomSeen r s ≠ 0) :
    roomSeen r (s.setRing r (ringStored (s.cap r) s.cfg.syncLag [b] (s.ring r))) = roomSeen r s - 1 := by
  have hne := mt (roomSeen_zero_iff hc h).mpr hf
  simp only [roomSeen, producerLen, State.setRing_cap, State.setRing_ring_same, ringStored_one] at *
  rw [dist_eq _ _ _ (inc_lt _ _ h.2.1) h.2.2.1, dist_eq _ _ _ h.2.1 h.2.2.1] at *
  rw [inc_eq _ _ h.2.1] at *
  have := h.2.1
  have := h.2.2.1
  split_ifs at * <;> omega

/-- What a SUBMIT with `k` bytes accepted does to its end: as many of the rest as fit, one arm, the count. -/
theorem runSeq_submit (bytes : List Byte) (n : Nat) : ∀ (k : Nat) (s : State) (fuel : Nat), k + n = bytes.length →
    3 * n + 1 ≤ fuel →
    2 ≤ s.cfg.txCap → s.tx.InRange s.cfg.txCap →
    let bs := (bytes.drop k).take (roomSeen .tx s)
    let t := s.setRing .tx (ringStored s.cfg.txCap s.cfg.syncLag bs s.tx)
    runSeq .fg fuel (s.setSeq .fg (.busy (submitRound bytes k))) =
      .ok (((if 1 ≤ k + bs.length then armTx t else t).ret .fg .ok (.nat (k + bs.length))).setSeq .fg .idle) := by
  induction n with
  | zero =>
    intro k s fuel hk hf hc hr
    obtain ⟨f, rfl⟩ : ∃ f, fuel = f + 1 := ⟨fuel - 1, by omega⟩
    have hd : bytes.drop k = [] := by simp; omega
    simp only [hd, List.take_nil, List.length_nil, ringStored_nil _ _ _ hr.2.1]
    have : s.setRing .tx s.tx = s := State.setRing_self s .tx
    rw [this, submitRound, if_neg (by omega), runSeq_step .fg f (by simp only [taskStep, submitStep]; rfl),
        runSeq_setSeq_idle]
    rfl
  | succ n ih =>
    intro k s fuel hk hf hc hr
    obtain ⟨f, rfl⟩ : ∃ f, fuel = f + 3 := ⟨fuel - 3, by omega⟩
    have hlt : k < bytes.length := by omega
    have hb : bytes[k]? = some bytes[k] := by simp
    have hdrop : bytes.drop k = bytes[k] :: bytes.drop (k+1) := List.drop_eq_getElem_cons hlt
    generalize bytes[k] = b at hb hdrop
    rw [submitRound, if_pos hlt]
    by_cases hroom : roomSeen .tx s = 0
    · have hfull := (roomSeen_zero_iff (r := .tx) hc hr).mp hroom
      simp only [hroom, List.take_zero, ringStored_nil _ _ _ hr.2.1]
      have : s.setRing .tx s.tx = s := State.setRing_self s .tx
      rw [this, runSeq_step .fg (f+2) (by simp only [taskStep, submitStep, hb, pushStep_full .tx b s hfull]; rfl),
        runSeq_step .fg (f+1) (by simp only [taskStep, submitStep]; rfl), runSeq_setSeq_idle]
      rfl
    · obtain ⟨l, u, e1, e2, e3⟩ := pushStep_accept .tx b s hr.2.1 (mt (roomSeen_zero_iff (r := .tx) hc hr).mpr hroom)
      rw [runSeq_step .fg (f+2) (by simp only [taskStep, submitStep, hb, e1]; rfl),
        runSeq_step .fg (f+1) (by simp only [taskStep, submitStep, hb, e2]; rfl),
        runSeq_step .fg f (by simp only [taskStep, submitStep, hb, e3]; rfl)]
      have hir : (s.setRing .tx (ringStored (s.cap .tx) s.cfg.syncLag [b] (s.ring .tx))).tx.InRange s.cfg.txCap := ringStored_inRange hr
      rw [ih (k+1) (s.setRing .tx (ringStored (s.cap .tx) s.cfg.syncLag [b] (s.ring .tx))) f (by omega) (by omega) hc hir]
      rw [roomSeen_stored (r := .tx) hc hr hroom]
      obtain ⟨m, hm⟩ : ∃ m, roomSeen .tx s = m + 1 := ⟨roomSeen .tx s - 1, by omega⟩
      simp only [hm, hdrop, List.take_succ_cons, List.length_cons, Nat.add_sub_cancel]
      have h1 : 1 ≤ k + 1 + ((bytes.drop (k+1)).take m).length := by omega
      have h2 : 1 ≤ k + (((bytes.drop (k+1)).take m).length + 1) := by omega
      rw [if_pos h1, if_pos h2, ringStored_cons _ _ b _ _ hr.2.1,
          show k + 1 + ((bytes.drop (k+1)).take m).length = k + (((bytes.drop (k+1)).take m).length + 1) by omega]
      rfl

/-! ## Consuming and DRAIN_RECEIVED -/

theorem ringConsumed_one (cap lag x) :
    ringConsumed cap lag 1 x = { x with readIndex := inc cap x.readIndex, rdSeen := if lag = true then x.rdSeen else inc cap x.readIndex } := by
  cases lag <;> simp [ringConsumed, inc]

theorem ringConsumed_inRange {cap lag} {x : Ring} (h : x.InRange cap) : (ringConsumed cap lag 1 x).InRange cap := by
  rw [ringConsumed_one]
  have := inc_lt cap _ h.1
  refine ⟨this, h.2.1, ?_, h.2.2.2⟩
  cases lag <;> simp [this, h.2.2.1]

theorem ringConsumed_succ (cap lag n x) : ringConsumed cap lag (n+1) x = ringConsumed cap lag n
    (ringConsumed cap lag 1 x) := by
  rw [ringConsumed_one]
  have e : (x.readIndex + (n + 1)) % cap = (inc cap x.readIndex + n) % cap := by
    unfold inc; rw [Nat.mod_add_mod]; congr 1; omega
  cases lag <;> cases n <;> simp [ringConsumed, e] <;> simp [inc]

theorem ringConsumed_zero (cap lag x) (h : x.readIndex < cap) : ringConsumed cap lag 0 x = x := by
  simp [ringConsumed, Nat.mod_eq_of_lt h]

/-- A byte consumed leaves the consumer one byte fewer to see. -/
theorem consumerLen_consumed {s : State} {r} (h : (s.ring r).InRange (s.cap r)) (hf : consumerLen r s ≠ 0) :
    consumerLen r (s.setRing r (ringConsumed (s.cap r) s.cfg.syncLag 1 (s.ring r))) = consumerLen r s - 1 := by
  simp only [consumerLen, State.setRing_cap, State.setRing_ring_same, ringConsumed_one] at *
  rw [dist_eq _ _ _ h.2.2.2 (inc_lt _ _ h.1), dist_eq _ _ _ h.2.2.2 h.1] at *
  rw [inc_eq _ _ h.1] at *
  have := h.1
  have := h.2.2.2
  split_ifs at * <;> omega

/-- The oldest cell, then the others as they stand after it has been consumed. -/
theorem cellsFromRead_succ (r n) (s : State) (h : (s.ring r).InRange (s.cap r)) : cellsFromRead r
    (n+1) s = s.cell r (s.ring r).readIndex :: cellsFromRead r n (s.setRing r (ringConsumed
    (s.cap r) s.cfg.syncLag 1 (s.ring r))) := by
  simp only [cellsFromRead, List.range_succ_eq_map, List.map_cons, List.map_map, Nat.add_zero, Nat.mod_eq_of_lt h.1]
  congr 1
  apply List.map_congr_left
  intro j _
  simp only [Function.comp_apply, State.setRing_ring_same, State.setRing_cap, ringConsumed_one, inc,
      Nat.mod_add_mod, State.cell]
  congr 2; omega

/-- What a DRAIN_RECEIVED does to its end. -/
theorem runSeq_drain (n : Nat) : ∀ (out bs : List Byte) (s : State) (fuel : Nat), 3 * n + 1 ≤ fuel →
    consumerLen .rx s = n →
    s.rx.InRange s.cfg.rxCap → bs.map some = cellsFromRead .rx n s →
    runSeq .fg fuel (s.setSeq .fg (.busy (.drainReceived out .c1))) =
      .ok (((s.setRing .rx (ringConsumed s.cfg.rxCap s.cfg.syncLag n s.rx)).ret .fg .ok (.bytes (out ++ bs))).setSeq .fg .idle) := by
  induction n with
  | zero =>
    intro out bs s fuel hf hl hr hb
    obtain ⟨f, rfl⟩ : ∃ f, fuel = f + 1 := ⟨fuel - 1, by omega⟩
    have he : s.rx.wrSeen = s.rx.readIndex := (dist_eq_zero _ _ _ hr.2.2.2 hr.1).mp hl
    have hbs : bs = [] := by simpa [cellsFromRead] using hb
    subst hbs
    rw [runSeq_step .fg f (by simp only [taskStep, drainReceivedStep, popStep_empty .rx s he]; rfl),
        runSeq_setSeq_idle, ringConsumed_zero _ _ _ hr.1]
    have : s.setRing .rx s.rx = s := State.setRing_self s .rx
    simp [this]
  | succ n ih =>
    intro out bs s fuel hf hl hr hb
    obtain ⟨f, rfl⟩ : ∃ f, fuel = f + 3 := ⟨fuel - 3, by omega⟩
    rw [cellsFromRead_succ (r := .rx) _ _ hr] at hb
    cases bs with
    | nil => simp at hb
    | cons b bs =>
      simp only [List.map_cons, List.cons.injEq] at hb
      have hne : s.rx.wrSeen ≠ s.rx.readIndex := fun h => by
        have := (dist_eq_zero _ _ _ hr.2.2.2 hr.1).mpr h
        simp only [consumerLen, State.cap, State.ring] at hl; omega
      obtain ⟨l, e1, e2, e3⟩ := popStep_take .rx s b hr.1 hne hb.1.symm
      rw [runSeq_step .fg (f+2) (by simp only [taskStep, drainReceivedStep, e1]; rfl),
        runSeq_step .fg (f+1) (by simp only [taskStep, drainReceivedStep, e2]; rfl),
        runSeq_step .fg f (by simp only [taskStep, drainReceivedStep, e3]; rfl)]
      rw [ih (out ++ [b]) bs (s.setRing .rx (ringConsumed (s.cap .rx) s.cfg.syncLag 1 (s.ring .rx))) f (by omega) (by rw [consumerLen_consumed (r := .rx) hr (by omega)]; omega) (ringConsumed_inRange hr) hb.2]
      rw [ringConsumed_succ _ _ n s.rx]
      simp [State.cap, State.ring, State.setRing]

/-- Every cell the consumer sees holds a byte. -/
theorem cellsFromRead_written {s : State} (r) (hi : StateInv s) : ∃ bs : List Byte, bs.map some = cellsFromRead r
    (consumerLen r s) s := by
  have hok := hi.ringOk r
  have hs := hok.ordered
  have : consumerLen r s ≤ trueLen r s := by
    obtain ⟨h1,h2,h3,h4⟩ := hok.inRange
    unfold Ring.Ordered Ring.span at hs
    rw [dist_eq _ _ _ h1 h3, dist_eq _ _ _ h4 h1, dist_eq _ _ _ h2 h4] at hs
    simp only [consumerLen, trueLen]
    rw [dist_eq _ _ _ h2 h1, dist_eq _ _ _ h4 h1]
    split_ifs at * <;> omega
  refine ⟨(List.range (consumerLen r s)).map fun j => (s.cell r (((s.ring r).readIndex + j) % s.cap r)).getD 0, ?_⟩
  simp only [cellsFromRead, List.map_map]
  apply List.map_congr_left
  intro j hj
  have := hok.live j (by simp [trueLen] at *; omega)
  simp only [Function.comp_apply, State.cell]
  cases h : (s.ring r).storage.read (((s.ring r).readIndex + j) % s.cap r) with
  | none => rw [h] at this; cases this
  | some b => rfl

/-- The consumer never sees more than there is. -/
theorem consumerLen_le_trueLen {s : State} (r) (hi : StateInv s) : consumerLen r s ≤ trueLen r s := by
  have hok := hi.ringOk r
  have hs := hok.ordered
  obtain ⟨h1,h2,h3,h4⟩ := hok.inRange
  unfold Ring.Ordered Ring.span at hs
  rw [dist_eq _ _ _ h1 h3, dist_eq _ _ _ h4 h1, dist_eq _ _ _ h2 h4] at hs
  simp only [consumerLen, trueLen]
  rw [dist_eq _ _ _ h2 h1, dist_eq _ _ _ h4 h1]
  split_ifs at * <;> omega

theorem cellsFromRead_take (r) (n m) (s : State) (h : n ≤ m) : cellsFromRead r n s = (cellsFromRead r m s).take n := by
  simp [cellsFromRead, ← List.map_take, List.take_range, Nat.min_eq_left h]

/-! ## ON_TX_READY -/

/-- A state after ON_TX_READY has moved `bs` from the TX ring to the hardware FIFO. -/
def txSent (bs : List Byte) (s : State) : State :=
  { s with tx := ringConsumed s.cfg.txCap s.cfg.syncLag bs.length s.tx, plat := { s.plat with txFifo := s.plat.txFifo ++ bs.take (s.cfg.fifoTxCap - s.plat.txFifo.length) }, trace := s.trace ++ bs.map .write }

theorem txSent_nil (s) (h : s.tx.readIndex < s.cfg.txCap) : txSent [] s = s := by
  simp [txSent, ringConsumed_zero _ _ _ h]

theorem txSent_cons (b bs s) : txSent (b :: bs) s = txSent bs (callTxWrite b (s.setRing .tx
    (ringConsumed s.cfg.txCap s.cfg.syncLag 1 s.tx))) := by
  unfold callTxWrite
  by_cases h : s.plat.txFifo.length < s.cfg.fifoTxCap
  · obtain ⟨m, hm⟩ : ∃ m,
        s.cfg.fifoTxCap - s.plat.txFifo.length = m + 1 := ⟨s.cfg.fifoTxCap - s.plat.txFifo.length - 1, by omega⟩
    have hm' : s.cfg.fifoTxCap - (s.plat.txFifo.length + 1) = m := by omega
    simp [txSent, h, State.setRing, State.setPlat, State.emit, ringConsumed_succ _ _ bs.length s.tx, hm, hm']
  · have h0 : s.cfg.fifoTxCap - s.plat.txFifo.length = 0 := by omega
    simp [txSent, h, State.setRing, State.setPlat, State.emit, ringConsumed_succ _ _ bs.length s.tx, h0]

/-- What ON_TX_READY does from X1 to its end: it moves bytes until the ring or the budget runs out. -/
theorem runSeq_txDrain (m : Nat) : ∀ (free sent : Nat) (bs : List Byte) (s : State) (fuel : Nat), 5 * m + 3 ≤ fuel →
    s.tx.InRange s.cfg.txCap → sent ≤ free → min (consumerLen .tx s) (free - sent) = m →
        bs.map some = cellsFromRead .tx m s →
    runSeq .isr fuel (s.setSeq .isr (.busy (.onTxReady free sent .x1))) =
      .ok (((callClearTxFlag (if consumerLen .tx s ≤ free - sent then setTxInterrupt false (txSent bs s) else txSent bs s)).ret .isrTx .ok .none).setSeq .isr .idle) := by
  induction m with
  | zero =>
    intro free sent bs s fuel hf hr hs hm hb
    obtain ⟨f, rfl⟩ : ∃ f, fuel = f + 3 := ⟨fuel - 3, by omega⟩
    have : bs = [] := by simpa [cellsFromRead] using hb
    subst this
    rw [txSent_nil _ hr.1]
    by_cases he : s.tx.wrSeen = s.tx.readIndex
    · have hc : consumerLen .tx s = 0 := (dist_eq_zero _ _ _ hr.2.2.2 hr.1).mpr he
      have hse : txSeenEmpty s = true := by simp [txSeenEmpty, he]
      rw [hc, if_pos (by omega), runSeq_step .isr (f+2) (by simp only [taskStep, onTxReadyStep, hse, if_true]; rfl),
        runSeq_step .isr (f+1) (by simp only [taskStep, onTxReadyStep]; rfl),
        runSeq_step .isr f (by simp only [taskStep, onTxReadyStep]; rfl), runSeq_setSeq_idle]
      simp [disarmTx, hse, leaveHandler]
    · have hc : consumerLen .tx s ≠ 0 := fun h => he ((dist_eq_zero _ _ _ hr.2.2.2 hr.1).mp h)
      have hse : txSeenEmpty s = false := by simp [txSeenEmpty, he]
      have hsf : sent = free := by omega
      rw [if_neg (by omega),
          runSeq_step .isr (f+2) (q := .busy (.onTxReady free sent .x4)) (u := s) (by simp [taskStep, onTxReadyStep,
          hse, hsf]),
        runSeq_step .isr (f+1) (by simp only [taskStep, onTxReadyStep]; rfl),
        runSeq_step .isr f (by simp only [taskStep, onTxReadyStep]; rfl), runSeq_setSeq_idle]
      simp [leaveHandler]
  | succ m ih =>
    intro free sent bs s fuel hf hr hs hm hb
    obtain ⟨f, rfl⟩ : ∃ f, fuel = f + 5 := ⟨fuel - 5, by omega⟩
    rw [cellsFromRead_succ (r := .tx) _ _ hr] at hb
    cases bs with
    | nil => simp at hb
    | cons b bs =>
      simp only [List.map_cons, List.cons.injEq] at hb
      have he : s.tx.wrSeen ≠ s.tx.readIndex := fun h => by
        have : consumerLen .tx s = 0 := (dist_eq_zero _ _ _ hr.2.2.2 hr.1).mpr h
        omega
      have hse : txSeenEmpty s = false := by simp [txSeenEmpty, he]
      have hsf : sent ≠ free := by omega
      obtain ⟨l, e1, e2, e3⟩ := popStep_take .tx s b hr.1 he hb.1.symm
      rw [runSeq_step .isr (f+4) (q := .busy (.onTxReady free sent (.x3 .c1))) (u := s) (by simp [taskStep,
          onTxReadyStep, hse, hsf]),
        runSeq_step .isr (f+3) (by simp only [taskStep, onTxReadyStep, e1]; rfl),
        runSeq_step .isr (f+2) (by simp only [taskStep, onTxReadyStep, e2]; rfl),
        runSeq_step .isr (f+1) (by simp only [taskStep, onTxReadyStep, e3]; rfl),
        runSeq_step .isr f (by simp only [taskStep, onTxReadyStep]; rfl)]
      have hcl := consumerLen_consumed (r := .tx) hr (by omega)
      have key : ∀ u : State, (callTxWrite b u).tx = u.tx ∧
          (callTxWrite b u).cfg = u.cfg := by intro u; unfold callTxWrite; split <;> simp
      generalize hu : callTxWrite b (s.setRing .tx (ringConsumed (s.cap .tx) s.cfg.syncLag 1 (s.ring .tx))) = u
      have ku := key (s.setRing .tx (ringConsumed (s.cap .tx) s.cfg.syncLag 1 (s.ring .tx)))
      rw [hu] at ku
      have hcu : consumerLen .tx u = consumerLen .tx s - 1 := by rw [← hcl]; simp [consumerLen, State.cap,
          State.ring, ku]
      have hcell : cellsFromRead .tx m u = cellsFromRead .tx m (s.setRing .tx (ringConsumed (s.cap .tx) s.cfg.syncLag 1 (s.ring .tx))) := by simp [cellsFromRead, State.cell, State.ring, State.cap, ku]
      have hru : u.tx.InRange u.cfg.txCap := by rw [ku.1, ku.2]; exact ringConsumed_inRange hr
      rw [ih free (sent+1) bs u f (by omega) hru (by omega) (by omega) (by rw [hcell]; exact hb.2)]
      rw [txSent_cons, ← show callTxWrite b (s.setRing .tx (ringConsumed (s.cap .tx) s.cfg.syncLag 1 (s.ring .tx))) = callTxWrite b (s.setRing .tx (ringConsumed s.cfg.txCap s.cfg.syncLag 1 s.tx)) from rfl, hu, hcu]
      have : (consumerLen .tx s - 1 ≤ free - (sent + 1)) ↔ (consumerLen .tx s ≤ free - sent) := by omega
      simp only [this]

/-! ## ON_RX_READY -/

/-- A state after ON_RX_READY has read `n` bytes with room for `f`. -/
def rxTaken (n f : Nat) (s : State) : State :=
  { s with
        rx := ringStored s.cfg.rxCap s.cfg.syncLag ((readBytes n s).take f) s.rx
        overrun := min (s.overrun + (n - f)) s.cfg.overrunMax
        plat := { s.plat with rxFifo := s.plat.rxFifo.drop n }
        trace := s.trace ++ (readBytes n s).map .read
        freeCount := s.freeCount + (n - s.plat.rxFifo.length) }

theorem rxTaken_zero (f s) (hr : s.rx.writeIndex < s.cfg.rxCap) (ho : s.overrun ≤ s.cfg.overrunMax) :
    rxTaken 0 f s = s := by
  simp [rxTaken, readBytes, ringStored_nil _ _ _ hr, Nat.min_eq_left ho]

theorem readBytes_succ (n s) : readBytes (n+1) s = readAnswer s :: readBytes n (callRxRead s) := by
  unfold readBytes readAnswer callRxRead
  cases h : s.plat.rxFifo with
  | nil =>
    simp [h, List.range_succ_eq_map, Function.comp_def]
    intro a _; congr 1; omega
  | cons b t => simp [h]

/-- Everything `hw_rx_fifo_read` does. -/
theorem callRxRead_fields (s : State) : (callRxRead s).rx = s.rx ∧ (callRxRead s).cfg = s.cfg ∧
    (callRxRead s).overrun = s.overrun ∧
   (callRxRead s).plat = { s.plat with rxFifo := s.plat.rxFifo.drop 1 } ∧
       (callRxRead s).freeCount = s.freeCount + (1 - s.plat.rxFifo.length) ∧
   (callRxRead s).trace = s.trace ++ [.read (readAnswer s)] ∧ (callRxRead s).tx = s.tx ∧
       (callRxRead s).txArmed = s.txArmed ∧ (callRxRead s).txArmReq = s.txArmReq ∧
   (callRxRead s).fgSeq = s.fgSeq ∧ (callRxRead s).isrSeq = s.isrSeq ∧ (callRxRead s).results = s.results ∧
       (callRxRead s).ports = s.ports ∧ (callRxRead s).issue = s.issue ∧ (callRxRead s).turns = s.turns := by
  unfold callRxRead
  cases h : s.plat.rxFifo with
  | nil => simp; rw [← h]
  | cons b t => simp

theorem rxTaken_drop (m s) : rxTaken m 0 (countOverrun (callRxRead s)) = rxTaken (m+1) 0 s := by
  obtain ⟨h1,h2,h3,h4,h5,h6,h7,h8,h9,h10,h11,h12,h13,h14,h15⟩ := callRxRead_fields s
  have hrb : readBytes m (countOverrun (callRxRead s)) = readBytes m (callRxRead s) := rfl
  simp only [rxTaken, State.mk.injEq, hrb, readBytes_succ, countOverrun, State.setOverrun_cfg, State.setOverrun_rx,
      State.setOverrun_tx, State.setOverrun_txArmed, State.setOverrun_txArmReq, State.setOverrun_overrun,
      State.setOverrun_fgSeq, State.setOverrun_isrSeq, State.setOverrun_plat, State.setOverrun_trace,
      State.setOverrun_results, State.setOverrun_ports, State.setOverrun_issue, State.setOverrun_turns,
      State.setOverrun_freeCount, h1,h2,h3,h4,h5,h6,h7,h8,h9,h10,h11,h12,h13,h14,h15, true_and, and_true,
      List.take_zero]
  refine ⟨?_, ?_, ?_, ?_⟩
  · simp only [satInc]; split <;> omega
  · simp [Nat.add_comm]
  · simp; rfl
  · simp; omega

theorem rxTaken_store (m f s b) (hr : s.rx.writeIndex < s.cfg.rxCap) (hb : readAnswer s = b) :
    rxTaken m f ((callRxRead s).setRing .rx (ringStored s.cfg.rxCap s.cfg.syncLag [b] s.rx)) = rxTaken (m+1)
    (f+1) s := by
  have hrb : readBytes m ((callRxRead s).setRing .rx (ringStored s.cfg.rxCap s.cfg.syncLag [b] s.rx)) = readBytes m (callRxRead s) := rfl
  have hrs := readBytes_succ m s
  unfold rxTaken
  rw [hrb, hrs, hb]
  generalize readBytes m (callRxRead s) = l
  obtain ⟨h1,h2,h3,h4,h5,h6,h7,h8,h9,h10,h11,h12,h13,h14,h15⟩ := callRxRead_fields s
  simp only [State.mk.injEq, State.setRing, h1,h2,h3,h4,h5,h6,h7,h8,h9,h10,h11,h12,h13,h14,h15, true_and, and_true,
      hb, List.take_succ_cons]
  refine ⟨?_, ?_, ?_, ?_, ?_⟩
  · rw [← ringStored_cons _ _ _ _ _ hr]
  · congr 1; omega
  · simp [Nat.add_comm]
  · simp
  · simp; omega

/-- What ON_RX_READY does from Y1 to its end. -/
theorem runSeq_rxFill (m : Nat) : ∀ (n i : Nat) (s : State) (fuel : Nat), 4 * m + 3 ≤ fuel → i + m = n →
    2 ≤ s.cfg.rxCap →
    s.rx.InRange s.cfg.rxCap → s.overrun ≤ s.cfg.overrunMax →
    runSeq .isr fuel (s.setSeq .isr (.busy (rxRound n i))) =
      .ok (((callClearRxFlag (callClearRxOvf (rxTaken m (roomSeen .rx s) s))).ret .isrRx .ok .none).setSeq .isr .idle) := by
  induction m with
  | zero =>
    intro n i s fuel hf hn hc hr ho
    obtain ⟨f, rfl⟩ : ∃ f, fuel = f + 3 := ⟨fuel - 3, by omega⟩
    rw [rxTaken_zero _ _ hr.2.1 ho, rxRound, if_pos (by omega),
        runSeq_step .isr (f+2) (by simp only [taskStep, onRxReadyStep]; rfl),
        runSeq_step .isr (f+1) (by simp only [taskStep, onRxReadyStep]; rfl),
        runSeq_step .isr f (by simp only [taskStep, onRxReadyStep]; rfl), runSeq_setSeq_idle]
    simp [leaveHandler]
  | succ m ih =>
    intro n i s fuel hf hn hc hr ho
    obtain ⟨f, rfl⟩ : ∃ f, fuel = f + 4 := ⟨fuel - 4, by omega⟩
    rw [rxRound, if_neg (by omega), runSeq_step .isr (f+3) (by simp only [taskStep, onRxReadyStep]; rfl)]
    have hk := callRxRead_fields s
    generalize hb : readAnswer s = b
    have hru : (callRxRead s).rx.InRange (callRxRead s).cfg.rxCap := by rw [hk.1, hk.2.1]; exact hr
    have hroom : roomSeen .rx s = roomSeen .rx (callRxRead s) := by simp [roomSeen, producerLen, State.cap,
        State.ring, hk]
    have hcu : 2 ≤ (callRxRead s).cfg.rxCap := by rw [hk.2.1]; exact hc
    rw [hroom]
    by_cases hz : roomSeen .rx (callRxRead s) = 0
    · have hfull := (roomSeen_zero_iff (r := .rx) hcu hru).mp hz
      rw [runSeq_step .isr (f+2) (by simp only [taskStep, onRxReadyStep, pushStep_full .rx b _ hfull]; rfl)]
      have h2 : roomSeen .rx (countOverrun (callRxRead s)) = 0 := hz
      have hoc : (countOverrun (callRxRead s)).overrun ≤ (countOverrun (callRxRead s)).cfg.overrunMax := by
        simp only [countOverrun, satInc, State.setOverrun_overrun, State.setOverrun_cfg]
        have := hk.2.2.1; rw [← hk.2.1] at ho
        split <;> omega
      rw [ih n (i+1) (countOverrun (callRxRead s)) (f+2) (by omega) (by omega) hcu hru hoc, h2, hz, rxTaken_drop]
    · obtain ⟨l, v, e1, e2,
          e3⟩ := pushStep_accept .rx b (callRxRead s) hru.2.1 (mt (roomSeen_zero_iff (r := .rx) hcu hru).mpr hz)
      rw [runSeq_step .isr (f+2) (by simp only [taskStep, onRxReadyStep, e1]; rfl),
        runSeq_step .isr (f+1) (by simp only [taskStep, onRxReadyStep, e2]; rfl),
        runSeq_step .isr f (by simp only [taskStep, onRxReadyStep, e3]; rfl)]
      have hrs := roomSeen_stored (b := b) (r := .rx) hcu hru hz
      rw [ih n (i+1) ((callRxRead s).setRing .rx (ringStored ((callRxRead s).cap .rx) (callRxRead s).cfg.syncLag [b] ((callRxRead s).ring .rx))) f (by omega) (by omega) hcu (ringStored_inRange hru) (by rw [show ((callRxRead s).setRing .rx (ringStored ((callRxRead s).cap .rx) (callRxRead s).cfg.syncLag [b] ((callRxRead s).ring .rx))).cfg = (callRxRead s).cfg from rfl, hk.2.1]; exact (show (callRxRead s).overrun ≤ _ by rw [hk.2.2.1]; exact ho)), hrs]
      obtain ⟨g, hg⟩ : ∃ g, roomSeen .rx (callRxRead s) = g + 1 := ⟨roomSeen .rx (callRxRead s) - 1, by omega⟩
      rw [hg, Nat.add_sub_cancel, ← rxTaken_store m g s b hr.2.1 hb]
      simp [State.cap, State.ring, hk]

end Sys2Proof.Machine
end

