-- ==== Sys2Proof/Laws/PerInstr.lean ====
section
/-! SUPPORT. A statement about every operation as syntax, one lemma per constructor: the first word of its encoding
selects its own row of the opcode table (30_encoding.md R95), and tells how many words the encoding has (R109). -/

namespace Sys2Proof.Laws.Encoding

-- Proofs are checked one after another, so that the package as one text needs few threads.
set_option Elab.async false

/-- The first word of a well-formed operation's encoding selects the operation's row and tells the encoding's length. -/
def Statement (i : Instr) : Prop :=
  i.wellFormed = true → ∃ h ws q, encode i = h :: ws ∧ q ∈ payloadRow :: operationRows ∧ q.op = i.mnemonic ∧
    q.selects h = true ∧ commandLength h = 1 + ws.length

/-- A header with a fixed high byte: the row sees that byte and the class of the operand byte. -/
theorem selects_headWord (q : Row) (hq : q ∈ payloadRow :: operationRows) (h b : Byte)
    (hs : q.selects (h ++ 0#8) = true ∧ q.selects (h ++ 1#8) = true ∧ q.selects (h ++ 2#8) = true) :
    q.selects (headWord (h ++ 0#8) b) = true := by
  rw [headWord_append, selects_class q hq, hi8_append, imm8_append]
  rcases lowClass_cases b with e | e | e <;> rw [e]
  exacts [hs.1, hs.2.1, hs.2.2]

/-- Only a SUBMIT header is longer than one word. -/
theorem length_headWord (h b : Byte) (hh : h ≠ 0x10#8) : commandLength (headWord (h ++ 0#8) b) = 1 := by
  have hm : hi8 0xFF00#16 = BitVec.allOnes 8 ∧ hi8 0x1000#16 = 0x10#8 := by decide
  have : ¬ (headWord (h ++ 0#8) b &&& 0xFF00#16 = 0x1000#16) := by
    rw [headWord_append, and_eq_iff, hi8_append, hm.1, hm.2, BitVec.and_allOnes]
    exact fun hx => hh hx.1
  rw [commandLength, if_neg this]

theorem submit (bytes : List Byte) : Statement (.submit bytes) := by
  intro hw
  have hl : bytes.length ≤ 255 := by simpa [Instr.wellFormed] using hw
  have hn : (BitVec.ofNat 8 bytes.length).toNat = bytes.length := by simp; omega
  refine ⟨headWord (0x10#8 ++ 0#8) (BitVec.ofNat 8 bytes.length), bytes.map (headWord 0x0000),
    ⟨.submit, 0x1000, 0xFF00⟩, rfl, by decide, rfl, selects_headWord _ (by decide) _ _ (by decide), ?_⟩
  have hs := (findRow_submit _).mpr (findRow_headWord_submit (BitVec.ofNat 8 bytes.length))
  have : commandLength (headWord 0x1000#16 (BitVec.ofNat 8 bytes.length)) = 1 + bytes.length := by
    rw [commandLength, if_pos hs]
    rw [show imm8 (headWord 0x1000#16 (BitVec.ofNat 8 bytes.length)) = BitVec.ofNat 8 bytes.length from
      imm8_headWord 0x10#8 _, hn]
  rw [List.length_map]
  exact this

theorem tryReceive : Statement .tryReceive := fun _ =>
  ⟨0x2000, [], ⟨.tryReceive, 0x2000, 0xFFFF⟩, rfl, by decide, rfl, by decide, by decide⟩

theorem drainReceived : Statement .drainReceived := fun _ =>
  ⟨0x3000, [], ⟨.drainReceived, 0x3000, 0xFFFF⟩, rfl, by decide, rfl, by decide, by decide⟩

theorem onTxReady : Statement .onTxReady := fun _ =>
  ⟨0x4000, [], ⟨.onTxReady, 0x4000, 0xFFFF⟩, rfl, by decide, rfl, by decide, by decide⟩

theorem onRxReady : Statement .onRxReady := fun _ =>
  ⟨0x5000, [], ⟨.onRxReady, 0x5000, 0xFFFF⟩, rfl, by decide, rfl, by decide, by decide⟩

theorem push (r : RingId) (b : Byte) : Statement (.push r b) := by
  intro _
  cases r
  · exact ⟨headWord (0x80#8 ++ 0#8) b, [], ⟨.push, 0x8000, 0xFE00⟩, rfl, by decide, rfl,
      selects_headWord _ (by decide) _ _ (by decide), length_headWord _ _ (by decide)⟩
  · exact ⟨headWord (0x81#8 ++ 0#8) b, [], ⟨.push, 0x8000, 0xFE00⟩, rfl, by decide, rfl,
      selects_headWord _ (by decide) _ _ (by decide), length_headWord _ _ (by decide)⟩

theorem pop (r : RingId) : Statement (.pop r) := by
  intro _
  cases r
  · exact ⟨0x9000, [], ⟨.pop, 0x9000, 0xFEFF⟩, by decide, by decide, rfl, by decide, by decide⟩
  · exact ⟨0x9100, [], ⟨.pop, 0x9000, 0xFEFF⟩, by decide, by decide, rfl, by decide, by decide⟩

theorem len (r : RingId) : Statement (.len r) := by
  intro _
  cases r
  · exact ⟨0xA000, [], ⟨.len, 0xA000, 0xFEFF⟩, by decide, by decide, rfl, by decide, by decide⟩
  · exact ⟨0xA100, [], ⟨.len, 0xA000, 0xFEFF⟩, by decide, by decide, rfl, by decide, by decide⟩

theorem isEmpty (r : RingId) : Statement (.isEmpty r) := by
  intro _
  cases r
  · exact ⟨0xB000, [], ⟨.isEmpty, 0xB000, 0xFEFF⟩, by decide, by decide, rfl, by decide, by decide⟩
  · exact ⟨0xB100, [], ⟨.isEmpty, 0xB000, 0xFEFF⟩, by decide, by decide, rfl, by decide, by decide⟩

theorem isFull (r : RingId) : Statement (.isFull r) := by
  intro _
  cases r
  · exact ⟨0xC000, [], ⟨.isFull, 0xC000, 0xFEFF⟩, by decide, by decide, rfl, by decide, by decide⟩
  · exact ⟨0xC100, [], ⟨.isFull, 0xC000, 0xFEFF⟩, by decide, by decide, rfl, by decide, by decide⟩

theorem hwTxFifoFreeSlots : Statement .hwTxFifoFreeSlots := fun _ =>
  ⟨0xE000, [], ⟨.hwTxFifoFreeSlots, 0xE000, 0xFFFF⟩, rfl, by decide, rfl, by decide, by decide⟩

theorem hwTxFifoWrite (b : Byte) : Statement (.hwTxFifoWrite b) := fun _ =>
  ⟨headWord (0xE1#8 ++ 0#8) b, [], ⟨.hwTxFifoWrite, 0xE100, 0xFF00⟩, rfl, by decide, rfl,
    selects_headWord _ (by decide) _ _ (by decide), length_headWord _ _ (by decide)⟩

theorem hwRxFifoOccupancy : Statement .hwRxFifoOccupancy := fun _ =>
  ⟨0xE200, [], ⟨.hwRxFifoOccupancy, 0xE200, 0xFFFF⟩, rfl, by decide, rfl, by decide, by decide⟩

theorem hwRxFifoRead : Statement .hwRxFifoRead := fun _ =>
  ⟨0xE300, [], ⟨.hwRxFifoRead, 0xE300, 0xFFFF⟩, rfl, by decide, rfl, by decide, by decide⟩

theorem hwSetTxInterruptEnabled (e : Bool) : Statement (.hwSetTxInterruptEnabled e) := by
  intro _
  cases e
  · exact ⟨0xE400, [], ⟨.hwSetTxInterruptEnabled, 0xE400, 0xFFFE⟩, rfl, by decide, rfl, by decide, by decide⟩
  · exact ⟨0xE401, [], ⟨.hwSetTxInterruptEnabled, 0xE400, 0xFFFE⟩, rfl, by decide, rfl, by decide, by decide⟩

theorem hwClearTxInterruptFlag : Statement .hwClearTxInterruptFlag := fun _ =>
  ⟨0xE500, [], ⟨.hwClearTxInterruptFlag, 0xE500, 0xFFFF⟩, rfl, by decide, rfl, by decide, by decide⟩

theorem hwClearRxInterruptFlag : Statement .hwClearRxInterruptFlag := fun _ =>
  ⟨0xE600, [], ⟨.hwClearRxInterruptFlag, 0xE600, 0xFFFF⟩, rfl, by decide, rfl, by decide, by decide⟩

theorem hwClearRxOverflowFlag : Statement .hwClearRxOverflowFlag := fun _ =>
  ⟨0xE700, [], ⟨.hwClearRxOverflowFlag, 0xE700, 0xFFFF⟩, rfl, by decide, rfl, by decide, by decide⟩

theorem submitPayload (b : Byte) : Statement (.submitPayload b) := fun _ =>
  ⟨headWord (0x00#8 ++ 0#8) b, [], payloadRow, rfl, by decide, rfl,
    selects_headWord _ (by decide) _ _ (by decide), length_headWord _ _ (by decide)⟩

end Sys2Proof.Laws.Encoding
end

