-- ==== Sys2Proof/Laws/Steps.lean ====
section
/-! SUPPORT. Everything a step of the driver can do, said once: it is a chain of moves (bookkeeping,
    entering an operation,
a micro-step, a synchroniser or platform step), and each move keeps the state invariant. A property that every move
keeps holds of every such step. -/

namespace Sys2Proof.Machine

-- Proofs are checked one after another, so that the package as one text needs few threads.
set_option Elab.async false

/-! ## The operations FG runs for the driver -/

/-- The operations of the driver that FG runs. -/
def DriverFg : Task → Prop
  | .submit _ _ _ => True
  | .tryReceive _ => True
  | .drainReceived _ _ => True
  | _ => False

/-- A step of one of them leaves the interrupt side's sequencer alone and goes on as one of them. -/
theorem taskStep_driverFg (t q s u) (ht : DriverFg t) (h : taskStep t s = .ok (q, u)) : u.isrSeq = s.isrSeq ∧ ∀ t',
    q = .busy t' → DriverFg t' := by
  cases t with
  | submit bytes k st =>
    cases st with
    | s1 p =>
      simp only [taskStep, submitStep] at h
      split at h
      · cases h; simp [DriverFg]
      · split at h
        · cases h
        all_goals
          rename_i hp
          have := pushStep_onlyRing _ _ _ _ _ _ hp
          cases h
          refine ⟨this.isrSeq, ?_⟩
          rintro t' hq; cases hq; simp [DriverFg, submitRound]
    | s2 =>
      cases h
      refine ⟨?_, by simp⟩
      split
      · unfold armTx setTxInterrupt; split <;> simp
      · simp
  | tryReceive st =>
      simp only [taskStep, tryReceiveStep] at h
      split at h
      · cases h
      all_goals
          rename_i hp
          have := popStep_onlyRing _ _ _ _ _ hp
          cases h
          refine ⟨by simpa using this.isrSeq, ?_⟩
          rintro t' hq; cases hq <;> simp [DriverFg]
  | drainReceived o st =>
      simp only [taskStep, drainReceivedStep] at h
      split at h
      · cases h
      all_goals
          rename_i hp
          have := popStep_onlyRing _ _ _ _ _ hp
          cases h
          refine ⟨by simpa using this.isrSeq, ?_⟩
          rintro t' hq; cases hq <;> simp [DriverFg]
  | _ => cases ht

/-- Every operation but the payload word is a checked run of something. -/
theorem exec_guarded (i : Instr) (s : State) (hb : ∀ b, i ≠ .submitPayload b) : ∃ run, exec i s = guarded i s run := by
  cases i with
  | submitPayload b => exact absurd rfl (hb b)
  | hwTxFifoFreeSlots => exact ⟨fun t => answer .ok (.nat (freeAnswer t)) (callFreeSlots t), rfl⟩
  | hwTxFifoWrite b => exact ⟨fun t => answer .ok .none (callTxWrite b t), rfl⟩
  | hwRxFifoOccupancy => exact ⟨fun t => answer .ok (.nat (occAnswer t)) (callOccupancy t), rfl⟩
  | hwRxFifoRead => exact ⟨fun t => answer .ok (.byte (readAnswer t)) (callRxRead t), rfl⟩
  | hwSetTxInterruptEnabled e => exact ⟨fun t => answer .ok .none (setTxInterrupt e t), rfl⟩
  | hwClearTxInterruptFlag => exact ⟨fun t => answer .ok .none (callClearTxFlag t), rfl⟩
  | hwClearRxInterruptFlag => exact ⟨fun t => answer .ok .none (callClearRxFlag t), rfl⟩
  | hwClearRxOverflowFlag => exact ⟨fun t => answer .ok .none (callClearRxOvf t), rfl⟩
  | _ => exact ⟨_, rfl⟩

/-! ## Moves -/

/-- Only results, ports, schedule, trace and the free-value counter may differ. -/
structure Book (s t : State) : Prop where
  cfg : t.cfg = s.cfg
  rx : t.rx = s.rx
  tx : t.tx = s.tx
  armed : t.txArmed = s.txArmed
  armReq : t.txArmReq = s.txArmReq
  overrun : t.overrun = s.overrun
  fgSeq : t.fgSeq = s.fgSeq
  isrSeq : t.isrSeq = s.isrSeq
  plat : t.plat = s.plat

theorem Book.refl (s) : Book s s := ⟨rfl, rfl, rfl, rfl, rfl, rfl, rfl, rfl, rfl⟩

/-- Everything a turn of the driver does, one atomic step at a time; `fg` says whether FG may step in it. -/
inductive Move (fg : Bool) : State → State → Prop
  | book {s t : State} (h : Book s t) : Move fg s t
  | fgEnter {s} (k : Task) (hf : fg = true) (h : s.fgSeq = .idle) (hi : s.isrSeq = .idle)
      (hk : DriverFg k) (hok : ∀ u : State, k.Ok .fg u)
      (h0 : ∀ u : State, inArmWindow (u.setSeq .fg (.busy k)) = false) :
      Move fg s (s.setSeq .fg (.busy k))
  | isrEnter {s} (src : Source) (h : s.isrSeq = .idle) : Move fg s (s.setSeq .isr (.busy (handlerTask src)))
  | fgMicro {s : State} {task q} {u : State} (hf : fg = true) (hs : s.fgSeq = .busy task)
      (h : taskStep task s = .ok (q, u)) : Move fg s (u.setSeq .fg q)
  | isrMicro {s : State} {task q} {u : State} (hs : s.isrSeq = .busy task)
      (h : taskStep task s = .ok (q, u)) : Move fg s (u.setSeq .isr q)
  | sync {s} (x) (h : syncEnabled x s = true) : Move fg s (syncStep x s)
  | plat {s} (x) (h : platEnabled x s = true) : Move fg s (platStep x s)
  | feed {s} (l) : Move fg s (feedLine l s)

/-- A turn is a chain of moves. -/
abbrev Chain (fg) := Relation.ReflTransGen (Move fg)

theorem Chain.book {fg s t} (h : Book s t) : Chain fg s t := .single (.book h)

/-! ## A step is a chain of moves -/

theorem microStep_chain {fg s t} (d) (hf : d = .fg → fg = true) (h : microStep d s = .ok t) : Chain fg s t := by
  unfold microStep at h
  split at h
  · cases h; exact .refl
  · rename_i task hs
    split at h
    · rename_i q u hu
      cases h
      cases d
      · exact .single (.fgMicro (hf rfl) hs hu)
      · exact .single (.isrMicro hs hu)
    · cases h

theorem runSeq_chain {fg} (d n) (hf : d = .fg → fg = true) : ∀ s t, runSeq d n s = .ok t → Chain fg s t := by
  induction n with
  | zero => intro s t h; cases h; exact .refl
  | succ n ih =>
    intro s t h
    simp only [runSeq] at h
    split at h
    · cases h; exact .refl
    · split at h
      · rename_i u hu; exact (microStep_chain d hf hu).trans (ih _ _ h)
      · cases h

theorem launch_fg_chain {s t} (k n) (hk : DriverFg k) (hid : s.fgSeq = .idle ∧ s.isrSeq = .idle) (hok : ∀ u : State,
    k.Ok .fg u) (h0 : ∀ u : State, inArmWindow (u.setSeq .fg (.busy k)) = false) (h :
    launch k n s = .next t) : Chain true s t := by
  have hd : taskSide k = .fg := by cases k <;> first | (simp [taskSide, taskAgent]; done) | cases hk
  have he : Chain true s (s.setSeq .fg (.busy k)) := .single (.fgEnter k rfl hid.1 hid.2 hk hok h0)
  simp only [launch, hd] at h
  split at h
  · cases h; exact he
  · unfold outcome at h
    split at h
    · rename_i u hu; cases h; exact he.trans (runSeq_chain _ _ (fun _ => rfl) _ _ hu)
    · cases h

theorem launch_handler_chain {fg s t} (src n) (hid : s.isrSeq = .idle) (h : launch
    (handlerTask src) n s = .next t) : Chain fg s t := by
  have hd : taskSide (handlerTask src) = .isr := by cases src <;> rfl
  have he : Chain fg s (s.setSeq .isr (.busy (handlerTask src))) := .single (.isrEnter src hid)
  simp only [launch, hd] at h
  split at h
  · cases h; exact he
  · unfold outcome at h
    split at h
    · rename_i u hu; cases h; exact he.trans (runSeq_chain _ _ (fun h => by cases h) _ _ hu)
    · cases h

theorem guarded_chain {fg i s t run} (hr : MayRun i s → run s = .next t → Chain fg s t)
    (h : guarded i s run = .next t) : Chain fg s t := by
  rcases guarded_cases i s run with ⟨hm, e⟩ | ⟨-, e⟩ | ⟨-, e⟩ <;> rw [e] at h
  · exact hr hm h
  · cases h; exact .refl
  · cases h; exact .book ⟨rfl, rfl, rfl, rfl, rfl, rfl, rfl, rfl, rfl⟩

theorem submitRound_window (bs : List Byte) (u : State) : inArmWindow (u.setSeq .fg (.busy
    (submitRound bs 0))) = false := by
  simp [inArmWindow, submitRound]

theorem submitRound_driverFg (bs : List Byte) : DriverFg (submitRound bs 0) := trivial

theorem MayRun.app_idle {i s} (h : MayRun i s) (hi : i.mnemonic.port = .app) : s.fgSeq = .idle ∧ s.isrSeq = .idle := by
  have : s.issue.agent = .fg := by
    have := h.1
    cases i <;> simp [Instr.mnemonic, Mnemonic.port, permitted, mayIssue] at hi this <;> exact this.2
  have h2 := h.2; rw [this] at h2; exact ready_fg h2

theorem execSubmit_chain {bs s t} (h : execSubmit bs s = .next t) : Chain true s t :=
  guarded_chain (fun hm hr => launch_fg_chain _ _ (submitRound_driverFg _) (MayRun.app_idle hm rfl)
    (fun u => submitRound_ok _ 0 (Nat.zero_le _) u) (submitRound_window _) hr) h

/-- A payload word is bookkeeping, but for the last one, which is its SUBMIT. -/
theorem joinAssembly_chain {a w s t} (h : joinAssembly a w s = .next t) : Chain true s t := by
  unfold joinAssembly at h
  extract_lets a' at h
  generalize a' = a' at h
  have hb : ∀ p, Book s (s.setPorts p) := fun p => ⟨rfl, rfl, rfl, rfl, rfl, rfl, rfl, rfl, rfl⟩
  split at h
  · unfold finishAssembly answer at h
    extract_lets s' at h
    split at h
    · cases h; exact .book ⟨rfl, rfl, rfl, rfl, rfl, rfl, rfl, rfl, rfl⟩
    · exact (Chain.book (hb _)).trans (execSubmit_chain h)
  · cases h; exact .book (hb _)

theorem exec_app_chain {i s t} (hp : s.issue.port = .app) (h : exec i s = .next t) : Chain true s t := by
  by_cases hport : i.mnemonic.port = .app
  · cases i with
    | submit bs => exact execSubmit_chain h
    | tryReceive => exact guarded_chain (fun hm hr => launch_fg_chain (.tryReceive .c1) _ trivial (MayRun.app_idle hm rfl) (fun u => ⟨rfl, trivial⟩) (fun u => rfl) hr) h
    | drainReceived => exact guarded_chain (fun hm hr => launch_fg_chain (.drainReceived [] .c1) _ trivial (MayRun.app_idle hm rfl) (fun u => ⟨rfl, trivial⟩) (fun u => rfl) hr) h
    | submitPayload b =>
      simp only [exec, execSubmitPayload] at h
      split at h
      · cases h; exact .book ⟨rfl, rfl, rfl, rfl, rfl, rfl, rfl, rfl, rfl⟩
      · simp only [hp, ne_eq, not_true_eq_false, if_false] at h
        split at h
        · exact joinAssembly_chain h
        · cases h; exact .refl
    | _ => cases hport
  · have : permitted i s = false := by simp [permitted, hp]; intro hh; exact absurd hh hport
    obtain ⟨run, e⟩ := exec_guarded i s (by rintro b rfl; exact absurd rfl hport)
    rw [e, guarded_context this] at h
    cases h; exact .book ⟨rfl, rfl, rfl, rfl, rfl, rfl, rfl, rfl, rfl⟩

theorem exec_evt_chain {fg i s t} (hp : s.issue.port = .evt) (h : exec i s = .next t) : Chain fg s t := by
  by_cases hport : i.mnemonic.port = .evt
  · cases i with
    | onTxReady => exact guarded_chain (fun hm hr => launch_handler_chain .txReady _ (onTxReady_isr_idle hm) hr) h
    | onRxReady => exact guarded_chain (fun hm hr => launch_handler_chain .rxReady _ (onRxReady_isr_idle hm) hr) h
    | _ => cases hport
  · have hper : permitted i s = false := by simp [permitted, hp]; intro hh; exact absurd hh hport
    by_cases hb : ∃ b, i = .submitPayload b
    · obtain ⟨b, rfl⟩ := hb
      simp only [exec, execSubmitPayload] at h
      split at h
      · cases h; exact .book ⟨rfl, rfl, rfl, rfl, rfl, rfl, rfl, rfl, rfl⟩
      · simp only [hp, ne_eq, reduceCtorEq, not_false_eq_true, if_true] at h
        cases h; exact .book ⟨rfl, rfl, rfl, rfl, rfl, rfl, rfl, rfl, rfl⟩
    · obtain ⟨run, e⟩ := exec_guarded i s (fun b hh => hb ⟨b, hh⟩)
      rw [e, guarded_context hper] at h
      cases h; exact .book ⟨rfl, rfl, rfl, rfl, rfl, rfl, rfl, rfl, rfl⟩

theorem rejectCommand_chain {fg p e s t} (h : rejectCommand p e s = .next t) : Chain fg s t := by
  unfold rejectCommand answer at h
  cases e <;> simp only at h <;> cases h <;> first | exact .refl | exact .book ⟨rfl, rfl, rfl,
      rfl, rfl, rfl, rfl, rfl, rfl⟩

/-- Every turn that does not use the RING or CAP port from outside the driver is a chain of moves. -/
theorem runTurn_chain {x s t} (hd : directTurn x = false) (h : runTurn x s = .next t) : Chain
    (foregroundTurn x) s t := by
  have bookI : ∀ (u : State) p, Book u (u.setIssue p) := fun u p => ⟨rfl, rfl, rfl, rfl, rfl, rfl, rfl, rfl, rfl⟩
  have bookP : ∀ (u : State) p, Book u (u.setPorts p) := fun u p => ⟨rfl, rfl, rfl, rfl, rfl, rfl, rfl, rfl, rfl⟩
  cases x with
  | command p a g =>
    simp only [runTurn, runCommand] at h
    split at h
    case isFalse => cases h; exact .refl
    rename_i hr
    cases p with
    | ring => cases hd
    | cap => cases hd
    | app =>
      change Chain true s t
      split at h
      · unfold payloadCommand at h
        split at h
        · cases h; exact .book (bookI _ _)
        · simp only at h
          have hb : Chain true s (takeWords .app 1 (s.setIssue ⟨.app, a,
              g⟩)) := (Chain.book (bookI _ _)).trans (Chain.book (bookP _ _))
          split at h
          · exact hb.trans (exec_app_chain rfl h)
          · exact hb.trans (joinAssembly_chain h)
      · split at h
        · exact ((Chain.book (bookI s ⟨.app, a, g⟩)).trans (Chain.book (bookP _ _))).trans (exec_app_chain rfl h)
        · exact (Chain.book (bookI s ⟨.app, a, g⟩)).trans (rejectCommand_chain h)
    | evt =>
      simp only at h
      split at h
      · exact ((Chain.book (bookI s ⟨.evt, a, g⟩)).trans (Chain.book (bookP _ _))).trans (exec_evt_chain rfl h)
      · exact (Chain.book (bookI s ⟨.evt, a, g⟩)).trans (rejectCommand_chain h)
  | micro d =>
    simp only [runTurn] at h
    split at h
    · unfold outcome at h
      split at h
      · rename_i u hu; cases h; exact microStep_chain d (fun hd => by subst hd; rfl) hu
      · cases h
    · cases h; exact .refl
  | dispatch src =>
    cases h
    split
    · rename_i hh; simp [dispatchEnabled] at hh; exact .single (.isrEnter src hh.2)
    · exact .refl
  | sync x => cases h; split <;> [exact .single (.sync x (by assumption)); exact .refl]
  | plat x => cases h; split <;> [exact .single (.plat x (by assumption)); exact .refl]
  | post p ws => cases h; exact .book (bookP _ _)
  | feed l => cases h; exact .single (.feed l)
  | idle => cases h; exact .refl

/-- ... and so is every such step of the machine. -/
theorem step_chain {s t} (hd : directTurn (nextTurn s).1 = false) (h : step s = .next t) : Chain (foregroundTurn
    (nextTurn s).1) s t := by
  have hb : Book s (nextTurn s).2 := by unfold nextTurn; split <;> exact ⟨rfl, rfl, rfl, rfl, rfl, rfl, rfl, rfl, rfl⟩
  exact (Chain.book hb).trans (runTurn_chain hd h)

/-! ## Moves keep the state invariant -/

/-- The invariant reads only these fields. -/
theorem StateInv.same {s t : State} (h : StateInv s) (hc : t.cfg = s.cfg) (hr : t.rx = s.rx) (ht : t.tx = s.tx)
    (ha : t.txArmReq = s.txArmReq)
   (hf : t.fgSeq = s.fgSeq) (hi : t.isrSeq = s.isrSeq) (ho : t.overrun = s.overrun) (hp : t.plat.txFifo.length ≤ s.cfg.fifoTxCap)
   (hq : t.plat.rxFifo.length ≤ s.cfg.fifoRxCap) : StateInv t := by
  have b : Base t := by
    refine ⟨hc ▸ h.cfg, hc ▸ hr ▸ h.rx, hc ▸ ht ▸ h.tx, fun hl => ?_, by rw [ho, hc]; exact h.overrun, hc ▸ hp, hc ▸ hq⟩
    have := h.views (hc ▸ hl); unfold ViewsExact at *; rw [hr, ht, ha]; exact this
  exact b.inv (h.fg.fg_kept hf hc (ht ▸ ProducerKept.refl _ _) (hr ▸ ConsumerKept.refl _)) (h.isr.isr_kept hi hc (hr ▸ ProducerKept.refl _ _) (ht ▸ ConsumerKept.refl _))

/-- A synchroniser step keeps the state invariant. -/
theorem syncStep_keeps {s} (h : StateInv s) (x) (hl : s.cfg.syncLag = true) : StateInv (syncStep x s) := by
  have hv : ∀ {u : State}, u.cfg = s.cfg → (u.cfg.syncLag = false → ViewsExact u) := fun hu hf => by
    rw [hu, hl] at hf; cases hf
  cases x with
  | txw =>
    have key : ∀ u : State, u.cfg = s.cfg → u.rx = s.rx → u.tx = { s.tx with wrSeen := s.tx.writeIndex } →
        u.overrun = s.overrun → u.plat = s.plat → u.fgSeq = s.fgSeq → u.isrSeq = s.isrSeq → StateInv u := by
      intro u hc hr ht ho hp hf hi
      have k := h.tx.syncWrite_kept
      have b : Base u := ⟨hc ▸ h.cfg, hc ▸ hr ▸ h.rx, hc ▸ ht ▸ h.tx.syncWrite, hv hc,
        by rw [ho, hc]; exact h.overrun, by rw [hp, hc]; exact h.txFifo, by rw [hp, hc]; exact h.rxFifo⟩
      exact b.inv (h.fg.fg_kept hf hc (ht ▸ k.1) (hr ▸ ConsumerKept.refl _)) (h.isr.isr_kept hi hc (hr ▸ ProducerKept.refl _ _) (ht ▸ k.2))
    simp only [syncStep]; split <;> exact key _ rfl rfl rfl rfl rfl rfl rfl
  | txr =>
    have k := h.tx.syncRead_kept
    have b : Base (s.setRing .tx { s.tx with rdSeen := s.tx.readIndex }) := ⟨h.cfg, h.rx, h.tx.syncRead, hv rfl,
        h.overrun, h.txFifo, h.rxFifo⟩
    exact b.inv (h.fg.fg_kept rfl rfl k.1 (ConsumerKept.refl _)) (h.isr.isr_kept rfl rfl (ProducerKept.refl _ _) k.2)
  | rxw =>
    have k := h.rx.syncWrite_kept
    have b : Base (s.setRing .rx { s.rx with wrSeen := s.rx.writeIndex }) := ⟨h.cfg, h.rx.syncWrite, h.tx, hv rfl,
        h.overrun, h.txFifo, h.rxFifo⟩
    exact b.inv (h.fg.fg_kept rfl rfl (ProducerKept.refl _ _) k.2) (h.isr.isr_kept rfl rfl k.1 (ConsumerKept.refl _))
  | rxr =>
    have k := h.rx.syncRead_kept
    have b : Base (s.setRing .rx { s.rx with rdSeen := s.rx.readIndex }) := ⟨h.cfg, h.rx.syncRead, h.tx, hv rfl,
        h.overrun, h.txFifo, h.rxFifo⟩
    exact b.inv (h.fg.fg_kept rfl rfl (ProducerKept.refl _ _) k.2) (h.isr.isr_kept rfl rfl k.1 (ConsumerKept.refl _))

/-- A platform step keeps the state invariant. -/
theorem platStep_keeps {s} (h : StateInv s) (x) : StateInv (platStep x s) := by
  have h1 := h.txFifo
  have h2 := h.rxFifo
  cases x with
  | txShift =>
    unfold platStep; simp only; split
    · exact h
    · rename_i hh; rw [hh] at h1; exact StateInv.same h rfl rfl rfl rfl rfl rfl rfl (by simp at *; omega) h2
  | txFlag => exact StateInv.same h rfl rfl rfl rfl rfl rfl rfl h1 h2
  | rxArrive =>
    unfold platStep; simp only; split
    · exact h
    · split
      · exact StateInv.same h rfl rfl rfl rfl rfl rfl rfl h1 (by simp; omega)
      · exact StateInv.same h rfl rfl rfl rfl rfl rfl rfl h1 h2
  | rxFlag => exact StateInv.same h rfl rfl rfl rfl rfl rfl rfl h1 h2

/-- A move keeps the state invariant. -/
theorem move_inv {fg s t} (h : StateInv s) (m : Move fg s t) : StateInv t := by
  cases m with
  | book b => exact StateInv.same h b.cfg b.rx b.tx b.armReq b.fgSeq b.isrSeq b.overrun (by rw [b.plat]; exact h.txFifo) (by rw [b.plat]; exact h.rxFifo)
  | fgEnter k hf h1 hi hk hok h0 => exact h.of_fgMoved (FgMoved.refl h.base) (.busy k) (hok _)
  | isrEnter src h1 => exact h.of_isrMoved (IsrMoved.refl h.base) (.busy (handlerTask src)) (by cases src <;> exact ⟨rfl, trivial⟩)
  | @fgMicro task q u hf hs he =>
    have ht : task.Ok .fg s := by have := h.fg; unfold SeqOk State.seq at this; rw [hs] at this; exact this
    obtain ⟨q', u', e', -, hi'⟩ := fg_taskStep_keeps h _ ht
    rw [he] at e'; cases e'; exact hi'
  | @isrMicro task q u hs he =>
    have ht : task.Ok .isr s := by have := h.isr; unfold SeqOk State.seq at this; rw [hs] at this; exact this
    obtain ⟨q', u', e', -, hi'⟩ := isr_taskStep_keeps h _ ht
    rw [he] at e'; cases e'; exact hi'
  | sync x hx => exact syncStep_keeps h x (by simp [syncEnabled] at hx; exact hx.1)
  | plat x hx => exact platStep_keeps h x
  | feed l => exact StateInv.same h rfl rfl rfl rfl rfl rfl rfl h.txFifo h.rxFifo

/-- The induction over a chain: a reflexive and transitive relation that every move from a state in order meets. -/
theorem chain_ind {fg} (P : State → State → Prop) (hr : ∀ s, P s s) (ht : ∀ s t u, P s t → P t u → P s u)
   (hm : ∀ s t, StateInv s → Move fg s t → P s t) {s t} (hi : StateInv s) (h : Chain fg s t) : P s t ∧ StateInv t := by
  induction h with
  | refl => exact ⟨hr _, hi⟩
  | tail _ m ih => exact ⟨ht _ _ _ ih.1 (hm _ _ ih.2 m), move_inv ih.2 m⟩

end Sys2Proof.Machine
end

