-- ==== Sys2Proof/Tests/Slice0.lean ====
section
/-! SUPPORT. Tests: what WellFormed refuses, a word written out for every operation, one step of every operation against
a worked example of spec/, and, for every statement with hypotheses, states that meet them. Expected values are the
spec's own (the rule's worked example, or the vector of 95_test_vectors.md named beside the test). -/

namespace Sys2Proof.Tests

-- Proofs are checked one after another, so that the package as one text needs few threads.
set_option Elab.async false

open Sys2Proof Sys2Proof.Machine

/-! ## WellFormed -/

theorem test_submit_of_256_bytes_is_refused : (Instr.submit (List.replicate 256 0x41)).wellFormed = false := by
  decide +kernel

theorem test_submit_of_255_bytes_is_accepted : (Instr.submit (List.replicate 255 0x41)).wellFormed = true := by
  decide +kernel

/-! ## Decoding: words written out from 30_encoding.md R95 (95_test_vectors.md 2.6) -/

theorem test_decode_submit :
    decodeCommand .app [0b0001000000000010, 0b0000000001000001, 0b0000000011111111] = .ok (.submit [0x41, 0xFF], []) ∧
    decodeTableWord 48 0x00FF00411002 = some (.submit [0x41, 0xFF]) := by decide +kernel

theorem test_decode_try_receive :
    decodeCommand .app [0b0010000000000000] = .ok (.tryReceive, []) ∧ decodeTableWord 16 0x2000 = some .tryReceive := by
  decide +kernel

theorem test_decode_drain_received : decodeCommand .app [0b0011000000000000] = .ok (.drainReceived, []) := by
  decide +kernel

theorem test_decode_on_tx_ready : decodeCommand .evt [0b0100000000000000] = .ok (.onTxReady, []) := by decide +kernel

theorem test_decode_on_rx_ready : decodeCommand .evt [0b0101000000000000] = .ok (.onRxReady, []) := by decide +kernel

theorem test_decode_push : decodeCommand .ring [0b1000000111111111] = .ok (.push .tx 0xFF, []) ∧
    decodeCommand .ring [0b1000000000000000] = .ok (.push .rx 0x00, []) := by decide +kernel

theorem test_decode_pop : decodeCommand .ring [0b1001000000000000] = .ok (.pop .rx, []) ∧
    decodeCommand .ring [0b1001000100000000] = .ok (.pop .tx, []) := by decide +kernel

theorem test_decode_len : decodeCommand .ring [0b1010000100000000] = .ok (.len .tx, []) := by decide +kernel

theorem test_decode_is_empty : decodeCommand .ring [0b1011000000000000] = .ok (.isEmpty .rx, []) := by decide +kernel

theorem test_decode_is_full : decodeCommand .ring [0b1100000100000000] = .ok (.isFull .tx, []) := by decide +kernel

theorem test_decode_free_slots : decodeCommand .cap [0b1110000000000000] = .ok (.hwTxFifoFreeSlots, []) := by
  decide +kernel

theorem test_decode_fifo_write : decodeCommand .cap [0b1110000101000001] = .ok (.hwTxFifoWrite 0x41, []) := by
  decide +kernel

theorem test_decode_occupancy : decodeCommand .cap [0b1110001000000000] = .ok (.hwRxFifoOccupancy, []) := by
  decide +kernel

theorem test_decode_fifo_read : decodeCommand .cap [0b1110001100000000] = .ok (.hwRxFifoRead, []) := by decide +kernel

theorem test_decode_set_enabled : decodeCommand .cap [0b1110010000000001] = .ok (.hwSetTxInterruptEnabled true, []) ∧
    decodeCommand .cap [0b1110010000000000] = .ok (.hwSetTxInterruptEnabled false, []) := by decide +kernel

theorem test_decode_clear_tx_flag : decodeCommand .cap [0b1110010100000000] = .ok (.hwClearTxInterruptFlag, []) := by
  decide +kernel

theorem test_decode_clear_rx_flag : decodeCommand .cap [0b1110011000000000] = .ok (.hwClearRxInterruptFlag, []) := by
  decide +kernel

theorem test_decode_clear_rx_overflow : decodeCommand .cap [0b1110011100000000] = .ok (.hwClearRxOverflowFlag, []) := by
  decide +kernel

theorem test_decode_payload_word : decodePayloadWord 0b0000000010111110 = some 0xBE ∧
    decodePayloadWord 0b0000000101000010 = none ∧ decodeTableWord 16 0x00BE = some (.submitPayload 0xBE) := by
  decide +kernel

/-- The refused words of 95_test_vectors.md 2.6, each with its reason. -/
theorem test_refused_words :
    [0x0041#16, 0x6000, 0xFFFF].map illegalReason = [.reservedOp, .reservedOp, .reservedOp] ∧
    [0x1100#16, 0x2001, 0x8241, 0x9001, 0xE402, 0xE0AA].map illegalReason = List.replicate 6 .nonZeroField ∧
    [0xE800#16, 0xEF00].map illegalReason = [.reservedFunction, .reservedFunction] ∧
    [0x0041#16, 0x6000, 0xFFFF, 0x1100, 0x2001, 0x8241, 0x9001, 0xE402, 0xE0AA, 0xE800, 0xEF00].map findRow =
      List.replicate 11 none := by decide +kernel

theorem test_refused_commands :
    decodeCommand .app [0x1002, 0x0041, 0x0142] = .error (.badPayload 2) ∧
    decodeCommand .app [0x4000] = .error .wrongPort ∧ decodeCommand .evt [0x1000] = .error .wrongPort ∧
    decodeCommand .app [0x8141] = .error .wrongPort ∧ decodeCommand .app [0x4001] = .error .nonZeroField := by
  decide +kernel

/-! ## One step of each operation -/

/-- The reset state with capacities, hardware FIFO depths and SYNC_LAG as given (TX_LEVEL 0, RX_LEVEL 1, CNTW 32). -/
def lab (rxCap txCap fifo : Nat) (lag : Bool) : State := State.resetWith ⟨rxCap, txCap, lag, 32, fifo, fifo, 0, 1⟩

/-- The state with a command being issued on a port, by an agent, as a whole. -/
def by_ (p : Port) (a : Agent) (s : State) : State := s.setIssue ⟨p, a, .whole⟩

/-- A ring without lag: read index, write index, cells. -/
def ring_ (r w : Nat) (m : Memory) : Ring := ⟨r, w, r, w, m⟩

/-- A field of the next state; `none` if there is none. -/
def after {α : Type} (i : Instr) (s : State) (f : State → α) : Option α :=
  match exec i s with
  | .next t => some (f t)
  | .fault _ => none
  | .refused _ => none

/-- 41 R140's worked example: capacity 8, eight bytes, seven accepted, armed once. -/
theorem test_submit_capacity_8 :
    after (.submit [0x41, 0x42, 0x43, 0x44, 0x45, 0x46, 0x47, 0x48]) (by_ .app .fg (lab 4 8 4 false))
      (fun t => (t.tx, t.txArmed, t.trace, t.results)) =
    some (ring_ 0 7 [(0, 0x41), (1, 0x42), (2, 0x43), (3, 0x44), (4, 0x45), (5, 0x46), (6, 0x47)], true,
      [.setEnabled true], [⟨.fg, .ok, .nat 7⟩]) := by decide +kernel

/-- VF2: a SUBMIT into a full ring accepts nothing and makes no capability call. -/
theorem test_submit_into_full_ring :
    after (.submit [0x58]) (by_ .app .fg { lab 4 4 4 false with tx := ring_ 0 3 [] })
      (fun t => (t.tx, t.trace, t.results)) = some (ring_ 0 3 [], [], [⟨.fg, .ok, .nat 0⟩]) := by decide +kernel

/-- 41 R145's worked example. -/
theorem test_try_receive :
    after .tryReceive (by_ .app .fg { lab 4 4 4 false with rx := ring_ 0 3 [(0, 0x10), (1, 0x11), (2, 0x12)] })
      (fun t => (t.rx.readIndex, t.results)) = some (1, [⟨.fg, .ok, .byte 0x10⟩]) := by decide +kernel

/-- VF6: it does not look into the hardware FIFO. -/
theorem test_try_receive_empty :
    after .tryReceive (by_ .app .fg { lab 4 4 4 false with rx := ring_ 2 2 [], plat := { Platform.reset with rxFifo := [0x99] } })
      (fun t => (t.rx, t.trace, t.results)) = some (ring_ 2 2 [], [], [⟨.fg, .empty, .none⟩]) := by decide +kernel

/-- VF7: across the wrap. -/
theorem test_drain_received_wraps :
    after .drainReceived (by_ .app .fg { lab 4 4 4 false with rx := ring_ 3 1 [(0, 0xA1), (3, 0xA0)] })
      (fun t => (t.rx.readIndex, t.results)) = some (1, [⟨.fg, .ok, .bytes [0xA0, 0xA1]⟩]) := by decide +kernel

/-- S5, third row: fewer free slots than bytes, the interrupt stays armed. -/
theorem test_on_tx_ready_throttles :
    after .onTxReady (by_ .evt .plat { lab 4 8 2 false with
        tx := ring_ 0 3 [(0, 0x61), (1, 0x62), (2, 0x63)], txArmed := true, plat := { Platform.reset with txFlag := true } })
      (fun t => (t.tx.readIndex, t.txArmed, t.plat.txFifo, t.plat.txFlag, t.trace)) =
    some (2, true, [0x61, 0x62], false, [.freeSlots 2, .write 0x61, .write 0x62, .clearTxFlag]) := by decide +kernel

/-- VI4: an untruthful platform is not believed beyond the ring's content. -/
theorem test_on_tx_ready_untruthful :
    after .onTxReady (by_ .evt .plat { lab 4 4 4 false with
        tx := ring_ 1 3 [(1, 0x0A), (2, 0x0B)], txArmed := true, plat := { Platform.reset with freeReports := [1000] } })
      (fun t => (t.tx.readIndex, t.txArmed, t.trace)) =
    some (3, false, [.freeSlots 1000, .write 0x0A, .write 0x0B, .setEnabled false, .clearTxFlag]) := by decide +kernel

/-- S7, the capacity-4 receive scenario. -/
theorem test_on_rx_ready_drops_newest :
    after .onRxReady (by_ .evt .plat { lab 4 4 8 false with plat := { Platform.reset with
        rxFifo := [0x31, 0x32, 0x33, 0x34, 0x35], rxFlag := true, rxOvfFlag := true } })
      (fun t => (t.rx, t.overrun, t.plat.rxFifo, t.plat.rxFlag, t.plat.rxOvfFlag)) =
    some (ring_ 0 3 [(0, 0x31), (1, 0x32), (2, 0x33)], 2, [], false, false) := by decide +kernel

/-- VI9: the counter saturates, for CNTW = 2. -/
theorem test_on_rx_ready_saturates :
    after .onRxReady (by_ .evt .plat { State.resetWith ⟨4, 4, false, 2, 4, 4, 0, 1⟩ with
        rx := ring_ 1 0 [], overrun := 2, plat := { Platform.reset with rxFifo := [0x61, 0x62, 0x63] } })
      (fun t => (t.rx, t.overrun)) = some (ring_ 1 0 [], 3) := by decide +kernel

/-- 40 R124's worked example, first push. -/
theorem test_push_stores :
    after (.push .tx 0x47) (by_ .ring .fg { lab 4 8 4 false with tx := ring_ 0 6 [] }) (fun t => (t.tx, t.results)) =
      some (ring_ 0 7 [(6, 0x47)], [⟨.fg, .ok, .none⟩]) := by decide +kernel

/-- VR2 row 5: OVERFLOW on a capacity that is no power of two. -/
theorem test_push_overflow :
    after (.push .tx 0x14) (by_ .ring .fg { lab 4 5 4 false with tx := ring_ 2 1 [(0, 0x13), (2, 0x10), (3, 0x11), (4, 0x12)] })
      (fun t => (t.tx.writeIndex, t.cell .tx 1, t.results)) = some (1, none, [⟨.fg, .overflow, .none⟩]) := by decide +kernel

/-- 40 R127's worked example. -/
theorem test_pop_takes_oldest :
    after (.pop .tx) (by_ .ring .isrTx { lab 4 8 4 false with tx := ring_ 0 7 [(0, 0x41)] })
      (fun t => (t.tx.readIndex, t.results)) = some (1, [⟨.isrTx, .ok, .byte 0x41⟩]) := by decide +kernel

/-- VR6 row 2: a stale view gives EMPTY. -/
theorem test_pop_stale_view :
    after (.pop .tx) (by_ .ring .isrTx { lab 4 4 4 true with tx := ⟨0, 1, 0, 0, [(0, 0x41)]⟩ })
      (fun t => (t.tx.readIndex, t.results)) = some (0, [⟨.isrTx, .empty, .none⟩]) := by decide +kernel

/-- 40 R129's worked example, and VR6 row 5: the producer's stale view. -/
theorem test_len :
    after (.len .rx) (by_ .ring .fg { lab 4 4 4 false with rx := ring_ 0 3 [] }) State.results = some [⟨.fg, .ok, .nat 3⟩] ∧
    after (.len .tx) (by_ .ring .fg { lab 4 4 4 true with tx := ⟨1, 1, 0, 1, []⟩ }) State.results =
      some [⟨.fg, .ok, .nat 1⟩] := by decide +kernel

/-- 40 R132's worked example. -/
theorem test_is_empty :
    after (.isEmpty .rx) (by_ .ring .fg { lab 4 4 4 false with rx := ring_ 2 2 [] }) State.results =
      some [⟨.fg, .ok, .bit true⟩] := by decide +kernel

/-- 40 R133's worked example. -/
theorem test_is_full :
    after (.isFull .tx) (by_ .ring .fg { lab 4 8 4 false with tx := ring_ 0 7 [] }) State.results =
      some [⟨.fg, .ok, .bit true⟩] := by decide +kernel

/-- 43 R190's worked example. -/
theorem test_free_slots :
    after .hwTxFifoFreeSlots (by_ .cap .isrTx { lab 4 4 4 false with plat := { Platform.reset with txFifo := [0x41] } })
      State.results = some [⟨.isrTx, .ok, .nat 3⟩] := by decide +kernel

/-- 43 R191's worked example, and VC3: a full FIFO loses the byte. -/
theorem test_fifo_write :
    after (.hwTxFifoWrite 0x41) (by_ .cap .isrTx (lab 4 4 4 false)) (fun t => t.plat.txFifo) = some [0x41] ∧
    after (.hwTxFifoWrite 0x05) (by_ .cap .isrTx { lab 4 4 4 false with
      plat := { Platform.reset with txFifo := [0x01, 0x02, 0x03, 0x04] } }) (fun t => t.plat.txFifo) =
      some [0x01, 0x02, 0x03, 0x04] := by decide +kernel

/-- 43 R192's worked example. -/
theorem test_occupancy :
    after .hwRxFifoOccupancy (by_ .cap .isrRx { lab 4 4 8 false with plat := { Platform.reset with
      rxFifo := [0x01, 0x02, 0x03, 0x04, 0x05] } }) State.results = some [⟨.isrRx, .ok, .nat 5⟩] := by decide +kernel

/-- 43 R193's worked example. -/
theorem test_fifo_read :
    after .hwRxFifoRead (by_ .cap .isrRx { lab 4 4 4 false with plat := { Platform.reset with rxFifo := [0x10, 0x11] } })
      (fun t => (t.plat.rxFifo, t.results)) = some ([0x11], [⟨.isrRx, .ok, .byte 0x10⟩]) := by decide +kernel

/-- 43 R194's worked example, and VC7. -/
theorem test_set_enabled :
    after (.hwSetTxInterruptEnabled true) (by_ .cap .fg (lab 4 4 4 false)) State.txArmed = some true ∧
    after (.hwSetTxInterruptEnabled false) (by_ .cap .isrTx { lab 4 4 4 false with txArmed := true }) State.txArmed =
      some false := by decide +kernel

/-- The state with the platform's three flags up. -/
def flagsUp : State := { lab 4 4 4 false with
  plat := { Platform.reset with txFlag := true, rxFlag := true, rxOvfFlag := true } }

/-- The three flags: transmit-ready, receive-ready, receive overflow. -/
def flags (t : State) : Bool × Bool × Bool := (t.plat.txFlag, t.plat.rxFlag, t.plat.rxOvfFlag)

/-- 43 R195 to R197's worked examples: each clears its own flag. -/
theorem test_clear_tx_flag :
    after .hwClearTxInterruptFlag (by_ .cap .isrTx flagsUp) flags = some (false, true, true) := by decide +kernel

theorem test_clear_rx_flag :
    after .hwClearRxInterruptFlag (by_ .cap .isrRx flagsUp) flags = some (true, false, true) := by decide +kernel

theorem test_clear_rx_overflow :
    after .hwClearRxOverflowFlag (by_ .cap .isrRx flagsUp) flags = some (true, true, false) := by decide +kernel

/-- 30 R97: a payload word before the last is kept; alone it is an illegal header (95_test_vectors.md 2.6). -/
theorem test_payload_word :
    after (.submitPayload 0x42) (by_ .app .fg { lab 4 4 4 false with ports := { Ports.reset with assembly := some ⟨.fg, 2, [], false⟩ } })
      (fun t => (t.ports.assembly, t.results)) = some (some ⟨.fg, 1, [0x42], false⟩, []) ∧
    after (.submitPayload 0x42) (by_ .app .fg (lab 4 4 4 false)) State.results = some [⟨.fg, .illegal, .none⟩] := by
  decide +kernel

/-! ## One step from reset, and a handler taken and returned from -/

/-- Step runs the word placed by withFetchWord: PUSH tx, 41 (S1, row 1). -/
theorem test_step_runs_placed_word :
    (match step (State.reset.withFetchWord 16 0x8141) with
      | .next t => some (t.tx, t.results)
      | .fault _ => none
      | .refused _ => none) = some (ring_ 0 1 [(0, 0x41)], [⟨.fg, .ok, .none⟩]) := by decide +kernel

/-- A dispatch needs the flag and the armed bit (VC13), and no running handler (VC14). -/
theorem test_dispatch :
    runTurn (.dispatch .txReady) { lab 4 4 4 false with plat := { Platform.reset with txFlag := true } } =
      .next { lab 4 4 4 false with plat := { Platform.reset with txFlag := true } } ∧
    runTurn (.dispatch .txReady) { lab 4 4 4 false with txArmed := true, plat := { Platform.reset with txFlag := true } } =
      .next { lab 4 4 4 false with
        txArmed := true, plat := { Platform.reset with txFlag := true }, isrSeq := .busy (.onTxReady 0 0 .x0) } := ⟨rfl, rfl⟩

/-- VC10: a byte that arrives at a full FIFO is lost and sets the overflow flag. -/
theorem test_line_overflow :
    runTurn (.plat .rxArrive) { lab 4 4 2 false with plat := { Platform.reset with rxFifo := [0x0A, 0x0B], lineIn := [0x0C] } } =
      .next { lab 4 4 2 false with plat := { Platform.reset with rxFifo := [0x0A, 0x0B], rxOvfFlag := true } } := rfl

/-- VI11 rows 1 and 3: under lag the arm is a request that SY_TXW delivers with the index. -/
theorem test_arm_request :
    after (.submit [0x41]) (by_ .app .fg (lab 4 4 4 true)) (fun t => (t.txArmed, t.txArmReq, t.trace)) =
      some (false, true, []) ∧
    (syncStep .txw { lab 4 4 4 true with tx := ⟨0, 1, 0, 0, [(0, 0x41)]⟩, txArmReq := true }) =
      { lab 4 4 4 true with tx := ⟨0, 1, 0, 1, [(0, 0x41)]⟩, txArmed := true, trace := [.setEnabled true] } := by
  decide +kernel

/-- 30 R106: a long SUBMIT is cut at 255 bytes, and ACK_RX is the two clears in the order of 42 R177. -/
theorem test_pseudo_operations :
    (Pseudo.submitLong (List.replicate 256 0x41)).expand = [.submit (List.replicate 255 0x41), .submit [0x41]] ∧
    Pseudo.ackRx.expand = [.hwClearRxOverflowFlag, .hwClearRxInterruptFlag] := by decide +kernel

/-- 30 R106: the results of two SUBMITs add up; one that is only entered has no result to add. -/
theorem test_submit_long :
    (submitLong (List.replicate 256 0x41) (by_ .app .fg (lab 4 300 4 false))).map Prod.fst = .ok (some 256) ∧
    (submitLong [0x41] ((lab 4 8 4 false).setIssue ⟨.app, .fg, .micro⟩)).map Prod.fst = .ok none := by decide +kernel

/-- 00 R12: without lag SYNC takes no command; with it, it is the caller of the arm. -/
theorem test_sync_needs_lag :
    (let s := { lab 4 4 4 false with ports := { Ports.reset with cap := [0xE401] } };
      runCommand .cap .sync .whole s = .next s) ∧
    (match runCommand .cap .sync .whole { lab 4 4 4 true with ports := { Ports.reset with cap := [0xE401] } } with
      | .next t => t.txArmed
      | _ => false) = true := ⟨rfl, by decide +kernel⟩

/-! ## Witnesses: states and operands that meet each statement's hypotheses together -/

/-- RX holds 31, 32 (from cell 1), TX holds 41, 42 (cells 6 and 7, so `write_index` has wrapped); armed; two bytes wait in
the receive FIFO; nothing runs. -/
def demo : State := { lab 4 8 4 false with
  rx := ring_ 1 3 [(1, 0x31), (2, 0x32)]
  tx := ring_ 6 0 [(6, 0x41), (7, 0x42)]
  txArmed := true
  plat := { Platform.reset with rxFifo := [0x33, 0x34], txFlag := true, rxFlag := true } }

/-- TX full, its last byte in cell 6. -/
def fullTx : State := { lab 4 8 4 false with
  txArmed := true
  tx := ring_ 0 7 [(0, 0x41), (1, 0x42), (2, 0x43), (3, 0x44), (4, 0x45), (5, 0x46), (6, 0x47)] }

/-- TX with one byte in cell 6 and `write_index` at the last cell. -/
def lastCell : State := { lab 4 8 4 false with txArmed := true, tx := ring_ 6 7 [(6, 0x41)] }

/-- The same state with the lag on, one byte not yet seen by the interrupt side, and the arm request waiting. -/
def lagging : State := { lab 4 8 4 true with txArmReq := true, tx := ⟨6, 7, 6, 6, [(6, 0x41)]⟩ }

/-- SUBMIT in FG's sequencer, at the second of its two pushes. -/
def submitting : State := { lab 4 8 4 false with
  tx := ring_ 0 1 [(0, 0x41)], fgSeq := .busy (.submit [0x41, 0x42] 1 (.s1 .p1)) }

/-- ON_TX_READY at its last step. -/
def returningTx : State := { lab 4 8 4 false with isrSeq := .busy (.onTxReady 4 0 .x5) }

/-- ON_RX_READY at its last step. -/
def returningRx : State := { lab 4 8 4 false with isrSeq := .busy (.onRxReady 0 0 .y6) }

/-- A command of `i`'s port may be run as a whole by that agent in that state. -/
theorem mayRunWhole_of (i : Instr) (p : Port) (a : Agent) (s : State)
    (h : permitted i (by_ p a s) = true ∧ ready a (by_ p a s) = true) : MayRunWhole i (by_ p a s) := ⟨h, rfl⟩

theorem mayRun_of (i : Instr) (p : Port) (a : Agent) (s : State)
    (h : permitted i (by_ p a s) = true ∧ ready a (by_ p a s) = true) : MayRun i (by_ p a s) := h

theorem ringOk_of {cap : Nat} {x : Ring}
    (h : x.InRange cap ∧ x.Ordered cap ∧ x.LiveWritten cap ∧ x.StorageOk cap) : x.Ok cap := ⟨h.1, h.2.1, h.2.2.1, h.2.2.2⟩

theorem demo_inv : StateInv demo :=
  ⟨by decide, ringOk_of (by decide), ringOk_of (by decide), fun _ => ⟨rfl, rfl, rfl, rfl, rfl⟩, by decide, by decide,
    by decide, trivial, trivial⟩

theorem fullTx_inv : StateInv fullTx :=
  ⟨by decide, ringOk_of (by decide), ringOk_of (by decide), fun _ => ⟨rfl, rfl, rfl, rfl, rfl⟩, by decide, by decide,
    by decide, trivial, trivial⟩

theorem lastCell_inv : StateInv lastCell :=
  ⟨by decide, ringOk_of (by decide), ringOk_of (by decide), fun _ => ⟨rfl, rfl, rfl, rfl, rfl⟩, by decide, by decide,
    by decide, trivial, trivial⟩

theorem lagging_inv : StateInv lagging :=
  ⟨by decide, ringOk_of (by decide), ringOk_of (by decide), (fun h => absurd h (by decide)), by decide, by decide,
    by decide, trivial, trivial⟩

theorem submitting_inv : StateInv submitting :=
  ⟨by decide, ringOk_of (by decide), ringOk_of (by decide), fun _ => ⟨rfl, rfl, rfl, rfl, rfl⟩, by decide, by decide,
    by decide, ⟨rfl, by decide, 0x42, rfl, trivial⟩, trivial⟩

theorem empty_inv : StateInv (lab 4 8 4 false) :=
  ⟨by decide, ringOk_of (by decide), ringOk_of (by decide), fun _ => ⟨rfl, rfl, rfl, rfl, rfl⟩, by decide, by decide,
    by decide, trivial, trivial⟩

/-- Issuing a command changes nothing the invariant reads. -/
theorem issued_inv {s : State} (h : StateInv s) (p : Port) (a : Agent) : StateInv (by_ p a s) := by
  obtain ⟨h1, h2, h3, h4, h5, h6, h7, h8, h9⟩ := h
  refine ⟨h1, h2, h3, h4, h5, h6, h7, ?_, ?_⟩
  · unfold SeqOk at *; exact h8
  · unfold SeqOk at *; exact h9

/-! ### The ring operations -/

theorem witness_PushStoresOrOverflows :
    (let s := by_ .ring .fg fullTx;
      MayRunWhole (.push .tx 0x48) s ∧ inc (s.cap .tx) (s.ring .tx).writeIndex = (s.ring .tx).rdSeen) ∧
    (let s := by_ .ring .fg lastCell;
      MayRunWhole (.push .tx 0x48) s ∧ ¬ inc (s.cap .tx) (s.ring .tx).writeIndex = (s.ring .tx).rdSeen ∧
        (s.ring .tx).writeIndex < s.cap .tx) ∧
    (let s := by_ .ring .isrRx { lab 4 8 4 false with rx := ring_ 0 4 [] };
      MayRunWhole (.push .rx 0x48) s ∧ ¬ inc (s.cap .rx) (s.ring .rx).writeIndex = (s.ring .rx).rdSeen ∧
        s.cap .rx ≤ (s.ring .rx).writeIndex) :=
  ⟨⟨mayRunWhole_of _ _ _ _ (by decide), by decide⟩, ⟨mayRunWhole_of _ _ _ _ (by decide), by decide⟩,
    ⟨mayRunWhole_of _ _ _ _ (by decide), by decide⟩⟩

theorem witness_PopTakesOldestOrEmpty :
    (let s := by_ .ring .fg (lab 4 8 4 false);
      MayRunWhole (.pop .rx) s ∧ (s.ring .rx).wrSeen = (s.ring .rx).readIndex) ∧
    (let s := by_ .ring .isrTx { demo with tx := ring_ 7 0 [(7, 0x42)] };
      MayRunWhole (.pop .tx) s ∧ ¬ (s.ring .tx).wrSeen = (s.ring .tx).readIndex ∧
        (s.ring .tx).readIndex < s.cap .tx ∧ s.cell .tx (s.ring .tx).readIndex = some 0x42) ∧
    (let s := by_ .ring .isrTx { demo with tx := ring_ 7 0 [] };
      MayRunWhole (.pop .tx) s ∧ ¬ (s.ring .tx).wrSeen = (s.ring .tx).readIndex ∧
        (s.ring .tx).readIndex < s.cap .tx ∧ s.cell .tx (s.ring .tx).readIndex = none) ∧
    (let s := by_ .ring .isrTx { demo with tx := ring_ 8 0 [] };
      MayRunWhole (.pop .tx) s ∧ ¬ (s.ring .tx).wrSeen = (s.ring .tx).readIndex ∧
        s.cap .tx ≤ (s.ring .tx).readIndex) :=
  ⟨⟨mayRunWhole_of _ _ _ _ (by decide), by decide⟩, ⟨mayRunWhole_of _ _ _ _ (by decide), by decide⟩,
    ⟨mayRunWhole_of _ _ _ _ (by decide), by decide⟩, ⟨mayRunWhole_of _ _ _ _ (by decide), by decide⟩⟩

theorem witness_LengthQueriesAnswerCallersView :
    (MayRun (.len .tx) (by_ .ring .fg demo) ∧ MayRun (.isEmpty .tx) (by_ .ring .fg demo) ∧
      MayRun (.isFull .tx) (by_ .ring .fg demo)) ∧
    MayRun (.len .tx) (by_ .ring .isrTx demo) ∧ MayRun (.isEmpty .tx) (by_ .ring .isrTx demo) ∧
      MayRun (.isFull .tx) (by_ .ring .isrTx demo) := by
  refine ⟨⟨?_, ?_, ?_⟩, ?_, ?_, ?_⟩ <;> exact mayRun_of _ _ _ _ (by decide)

theorem witness_QueriesForetellRejection :
    (StateInv (by_ .ring .fg fullTx) ∧ MayRunWhole (.push .tx 0x48) (by_ .ring .fg fullTx)) ∧
    StateInv (by_ .ring .fg demo) ∧ MayRunWhole (.pop .rx) (by_ .ring .fg demo) :=
  ⟨⟨issued_inv fullTx_inv _ _, mayRunWhole_of _ _ _ _ (by decide)⟩, issued_inv demo_inv _ _,
    mayRunWhole_of _ _ _ _ (by decide)⟩

theorem witness_PushAppendsPopRemovesHead :
    (let s := by_ .ring .fg lastCell;
      StateInv s ∧ MayRunWhole (.push .tx 0x48) s ∧ producerLen .tx s ≠ s.cap .tx - 1 ∧
        ∃ t, exec (.push .tx 0x48) s = .next t) ∧
    (let s := by_ .ring .isrTx demo;
      StateInv s ∧ MayRunWhole (.pop .tx) s ∧ consumerLen .tx s ≠ 0 ∧ ∃ t, exec (.pop .tx) s = .next t) :=
  ⟨⟨issued_inv lastCell_inv _ _, mayRunWhole_of _ _ _ _ (by decide), by decide, ⟨_, rfl⟩⟩,
    ⟨issued_inv demo_inv _ _, mayRunWhole_of _ _ _ _ (by decide), by decide, ⟨_, rfl⟩⟩⟩

/-! ### The foreground operations -/

/-- Nothing fits; one of three fits; no byte is offered. -/
theorem witness_SubmitAcceptsFittingPrefixAndArms :
    (StateInv (by_ .app .fg fullTx) ∧ MayRunWhole (.submit [0x48]) (by_ .app .fg fullTx) ∧
      roomSeen .tx (by_ .app .fg fullTx) = 0) ∧
    (StateInv (by_ .app .fg lastCell) ∧ MayRunWhole (.submit [0x48, 0x49]) (by_ .app .fg lastCell) ∧
      roomSeen .tx (by_ .app .fg lastCell) = 6) ∧
    MayRunWhole (.submit []) (by_ .app .fg demo) :=
  ⟨⟨issued_inv fullTx_inv _ _, mayRunWhole_of _ _ _ _ (by decide), by decide⟩,
    ⟨issued_inv lastCell_inv _ _, mayRunWhole_of _ _ _ _ (by decide), by decide⟩, mayRunWhole_of _ _ _ _ (by decide)⟩

theorem witness_TryReceiveTakesOldestOrEmpty :
    (let s := by_ .app .fg (lab 4 8 4 false);
      StateInv s ∧ MayRunWhole .tryReceive s ∧ s.rx.wrSeen = s.rx.readIndex) ∧
    (let s := by_ .app .fg demo;
      StateInv s ∧ MayRunWhole .tryReceive s ∧ s.rx.wrSeen ≠ s.rx.readIndex) :=
  ⟨⟨issued_inv empty_inv _ _, mayRunWhole_of _ _ _ _ (by decide), by decide⟩,
    ⟨issued_inv demo_inv _ _, mayRunWhole_of _ _ _ _ (by decide), by decide⟩⟩

theorem witness_DrainReturnsAllSeenBytes :
    StateInv (by_ .app .fg demo) ∧ MayRunWhole .drainReceived (by_ .app .fg demo) ∧
      consumerLen .rx (by_ .app .fg demo) = 2 :=
  ⟨issued_inv demo_inv _ _, mayRunWhole_of _ _ _ _ (by decide), by decide⟩

theorem witness_DrainEqualsRepeatedTryReceive :
    StateInv (by_ .app .fg demo) ∧ permitted .tryReceive (by_ .app .fg demo) = true ∧
      MayRunWhole .drainReceived (by_ .app .fg demo) :=
  ⟨issued_inv demo_inv _ _, by decide, mayRunWhole_of _ _ _ _ (by decide)⟩

/-- Both parts accepted; the second into a full ring; the first part empty; and under lag. -/
theorem witness_SplitSubmitEqualsLongSubmit :
    ([(lastCell, [0x48], [0x49], 1), (lastCell, [0x48, 0x49, 0x4A, 0x4B, 0x4C, 0x4D], [0x4E], 6), (lastCell, [], [0x49], 0),
        (lagging, [0x48], [0x49], 1)] : List (State × List Byte × List Byte × Nat)).all (fun x =>
      match exec (.submit x.2.1) (by_ .app .fg x.1), exec (.submit (x.2.1 ++ x.2.2.1)) (by_ .app .fg x.1) with
      | .next t, .next _ =>
        t.results == x.1.results ++ [⟨.fg, .ok, .nat x.2.2.2⟩] &&
          match exec (.submit x.2.2.1) t with
          | .next _ => x.2.2.2 == x.2.1.length
          | _ => false
      | _, _ => false) = true ∧
    (StateInv (by_ .app .fg lastCell) ∧ StateInv (by_ .app .fg lagging)) ∧
    (∀ bytes, MayRunWhole (.submit bytes) (by_ .app .fg lastCell) ∧ MayRunWhole (.submit bytes) (by_ .app .fg lagging)) :=
  ⟨by decide +kernel, ⟨issued_inv lastCell_inv _ _, issued_inv lagging_inv _ _⟩,
    fun _ => ⟨mayRunWhole_of _ _ _ _ ⟨rfl, rfl⟩, mayRunWhole_of _ _ _ _ ⟨rfl, rfl⟩⟩⟩

/-! ### The interrupt operations -/

/-- With the budget above, at and below the number of bytes (S5's three rows), and with nothing to send. -/
theorem witness_TxHandlerThrottlesAndAcknowledges :
    StateInv (by_ .evt .plat demo) ∧ MayRunWhole .onTxReady (by_ .evt .plat demo) ∧
    consumerLen .tx (by_ .evt .plat demo) = 2 ∧ freeAnswer (by_ .evt .plat demo) = 4 ∧
    MayRunWhole .onTxReady (by_ .evt .plat { demo with plat := { demo.plat with freeReports := [2] } }) ∧
    MayRunWhole .onTxReady (by_ .evt .isrTx { demo with plat := { demo.plat with freeReports := [1] } }) :=
  ⟨issued_inv demo_inv _ _, mayRunWhole_of _ _ _ _ (by decide), by decide, by decide,
    mayRunWhole_of _ _ _ _ (by decide), mayRunWhole_of _ _ _ _ (by decide)⟩

theorem witness_EmptyTxHandlerMakesZeroWrites :
    let s := by_ .evt .plat { lab 4 8 4 false with tx := ring_ 3 3 [], txArmed := true }
    MayRunWhole .onTxReady s ∧ s.tx.wrSeen = s.tx.readIndex := ⟨mayRunWhole_of _ _ _ _ (by decide), by decide⟩

/-- Two bytes reported, room for one. -/
theorem witness_RxHandlerStoresFittingDropsNewest :
    StateInv (by_ .evt .plat demo) ∧ MayRunWhole .onRxReady (by_ .evt .plat demo) ∧
      occAnswer (by_ .evt .plat demo) = 2 ∧ roomSeen .rx (by_ .evt .plat demo) = 1 :=
  ⟨issued_inv demo_inv _ _, mayRunWhole_of _ _ _ _ (by decide), by decide, by decide⟩

/-! ### The capability operations -/

theorem witness_FifoCountsAreReported :
    (MayRun .hwTxFifoFreeSlots (by_ .cap .isrTx demo) ∧ (by_ .cap .isrTx demo).plat.freeReports = []) ∧
    MayRun .hwRxFifoOccupancy (by_ .cap .isrRx demo) ∧ (by_ .cap .isrRx demo).plat.occReports = [] :=
  ⟨⟨mayRun_of _ _ _ _ (by decide), rfl⟩, mayRun_of _ _ _ _ (by decide), rfl⟩

theorem witness_UntruthfulCountsAreTakenAsTheyAre :
    (let s := by_ .cap .isrTx { demo with plat := { demo.plat with freeReports := [1000] } };
      MayRun .hwTxFifoFreeSlots s ∧ s.plat.freeReports = [1000]) ∧
    (let s := by_ .cap .isrRx { demo with plat := { demo.plat with occReports := [3] } };
      MayRun .hwRxFifoOccupancy s ∧ s.plat.occReports = [3]) :=
  ⟨⟨mayRun_of _ _ _ _ (by decide), rfl⟩, ⟨mayRun_of _ _ _ _ (by decide), rfl⟩⟩

/-- With room, and into a full FIFO. -/
theorem witness_FifoWriteAppendsOrLoses :
    MayRun (.hwTxFifoWrite 0x41) (by_ .cap .isrTx demo) ∧
    MayRun (.hwTxFifoWrite 0x05) (by_ .cap .isrTx { demo with plat := { demo.plat with
      txFifo := [0x01, 0x02, 0x03, 0x04] } }) :=
  ⟨mayRun_of _ _ _ _ (by decide), mayRun_of _ _ _ _ (by decide)⟩

theorem witness_FifoReadConsumesOldest :
    (MayRun .hwRxFifoRead (by_ .cap .isrRx demo) ∧ (by_ .cap .isrRx demo).plat.rxFifo = [0x33, 0x34]) ∧
    MayRun .hwRxFifoRead (by_ .cap .isrRx (lab 4 8 4 false)) ∧ (by_ .cap .isrRx (lab 4 8 4 false)).plat.rxFifo = [] :=
  ⟨⟨mayRun_of _ _ _ _ (by decide), rfl⟩, mayRun_of _ _ _ _ (by decide), rfl⟩

theorem witness_SetEnabledWritesArmedFlag :
    MayRun (.hwSetTxInterruptEnabled true) (by_ .cap .fg demo) ∧
    MayRun (.hwSetTxInterruptEnabled false) (by_ .cap .isrTx demo) ∧
    MayRun (.hwSetTxInterruptEnabled true) (by_ .cap .sync lagging) := by
  refine ⟨?_, ?_, ?_⟩ <;> exact mayRun_of _ _ _ _ (by decide)

theorem witness_ClearsClearTheirOwnFlag :
    MayRun .hwClearTxInterruptFlag (by_ .cap .isrTx flagsUp) ∧ MayRun .hwClearRxInterruptFlag (by_ .cap .isrRx flagsUp) ∧
    MayRun .hwClearRxOverflowFlag (by_ .cap .isrRx flagsUp) := by
  refine ⟨?_, ?_, ?_⟩ <;> exact mayRun_of _ _ _ _ (by decide)

/-! ### Payload words and commands as words -/

/-- An unfinished SUBMIT: its issuer, how many words are to come, one good word got, `bad` if there was a malformed one. -/
def assembling (a : Agent) (left : Nat) (bad : Bool) : State :=
  { demo with ports := { Ports.reset with assembly := some ⟨a, left, [0x41], bad⟩ } }

/-- No header; another port; another agent, and the issuing agent while a handler runs; a word before the last; a last
one of a malformed and of a good command. -/
theorem witness_PayloadWordJoinsItsSubmit :
    (lab 4 8 4 false).ports.assembly = none ∧ (by_ .ring .fg (assembling .fg 1 false)).issue.port ≠ .app ∧
    (let s := by_ .app .isrTx (assembling .fg 1 false);
      s.ports.assembly = some ⟨.fg, 1, [0x41], false⟩ ∧ s.issue.port = .app ∧ s.issue.agent ≠ .fg) ∧
    (let s := by_ .app .fg { assembling .fg 1 false with isrSeq := .busy (.onRxReady 0 0 .y6) };
      s.ports.assembly = some ⟨.fg, 1, [0x41], false⟩ ∧ s.issue.port = .app ∧ ready .fg s = false) ∧
    (∀ left bad, (let s := by_ .app .fg (assembling .fg left bad);
      s.ports.assembly = some ⟨.fg, left, [0x41], bad⟩ ∧ s.issue = ⟨.app, .fg, .whole⟩ ∧ ready .fg s = true)) ∧
    StateInv (by_ .app .fg (assembling .fg 1 false)) :=
  ⟨rfl, by decide, by decide, by decide, fun _ _ => ⟨rfl, rfl, rfl⟩, issued_inv (s := assembling .fg 1 false) (by
    obtain ⟨h1, h2, h3, h4, h5, h6, h7, h8, h9⟩ := demo_inv
    exact ⟨h1, h2, h3, h4, h5, h6, h7, h8, h9⟩) _ _⟩

theorem witness_SubmitWordsAreDirectInvocation :
    let bytes : List Byte := [0x41, 0x42]
    let s := { demo with ports := { Ports.reset with app := encode (.submit bytes) ++ [0x2000] } }
    bytes.length ≤ 255 ∧ (ready .fg s = true ∧ s.ports.assembly = none ∧ s.ports.app = encode (.submit bytes) ++ [0x2000]) ∧
      ready .fg demo = true ∧ demo.ports.assembly = none ∧ demo.ports.app = [] := by decide

/-- A whole command; the last payload word, on its issuer's turn and on another agent's. -/
theorem witness_StepRunsDecodedCommand :
    (let s := { demo with turns := [.command .app .fg .whole], ports := { Ports.reset with app := [0x2000, 0x3000] } };
      s.turns = .command .app .fg .whole :: [] ∧ ready .fg s = true ∧ s.ports.assembly = none ∧
        decodeCommand .app (s.ports.queue .app) = .ok (.tryReceive, [0x3000])) ∧
    (let s := { demo with
        turns := [.command .app .fg .whole]
        ports := { Ports.reset with app := [0x0042], assembly := some ⟨.fg, 1, [0x41], false⟩ } };
      s.turns = .command .app .fg .whole :: [] ∧ s.ports.assembly = some ⟨.fg, 1, [0x41], false⟩ ∧
        s.ports.app = 0x0042 :: [] ∧ ready .fg s = true ∧ decodePayloadWord 0x0042 = some 0x42) ∧
    (let s := { demo with
        turns := [.command .app .plat .whole]
        ports := { Ports.reset with app := [0x0042], assembly := some ⟨.fg, 1, [0x41], false⟩ } };
      s.turns = .command .app .plat .whole :: [] ∧ s.ports.assembly = some ⟨.fg, 1, [0x41], false⟩ ∧
        s.ports.app = 0x0042 :: [] ∧ Agent.fg ≠ .plat) := by decide

theorem witness_IllegalWordIsRefused :
    let s := { demo with ports := { Ports.reset with evt := [0x4001, 0x4000] } }
    ready .plat s = true ∧ s.ports.queue .evt = 0x4001 :: [0x4000] ∧ findRow 0x4001 = none := by decide

theorem witness_WrongPortIsRefused :
    let s := { demo with ports := { Ports.reset with app := [0x4000] } }
    ready .fg s = true ∧ s.ports.assembly = none ∧ s.ports.queue .app = 0x4000 :: [] ∧
      findRow 0x4000 = some ⟨.onTxReady, 0x4000, 0xFFFF⟩ ∧ Mnemonic.onTxReady.port ≠ .app := by decide

/-- From FG and from an agent that may not issue it; a malformed word that arrives alone, before the last and as the
last. -/
theorem witness_MalformedSubmitIsRefusedWhole :
    (let s := { demo with ports := { Ports.reset with app := [0x1002, 0x0041, 0x0142, 0x2000] } };
      ready .fg s = true ∧ ready .plat s = true ∧ s.ports.assembly = none ∧
        s.ports.app = 0x1002 :: ([0x0041, 0x0142] ++ [0x2000]) ∧ 0x1002#16 &&& 0xFF00#16 = 0x1000#16 ∧
        [0x0041#16, 0x0142].length = (imm8 0x1002).toNat ∧ ∃ w ∈ [0x0041#16, 0x0142], w &&& 0xFF00#16 ≠ 0#16) ∧
    ∀ left, (let s := { demo with
        ports := { Ports.reset with app := [0x0142], assembly := some ⟨.plat, left, [0x41], false⟩ } };
      ready .plat s = true ∧ s.ports.assembly = some ⟨.plat, left, [0x41], false⟩ ∧ s.ports.app = 0x0142 :: [] ∧
        0x0142#16 &&& 0xFF00#16 ≠ 0#16) :=
  ⟨⟨rfl, rfl, rfl, rfl, by decide, by decide, 0x0142, by simp, by decide⟩, fun _ => ⟨rfl, rfl, rfl, by decide⟩⟩

/-- PUSH tx from ISR_TX, and the last payload word of a SUBMIT that the dispatcher issued. -/
theorem witness_ForbiddenIssueIsRefused :
    permitted (.push .tx 0x41) (by_ .ring .isrTx demo) = false ∧
    (let s := by_ .app .plat (assembling .plat 1 false);
      permitted (.submitPayload 0x41) s = false ∧ s.ports.assembly = some ⟨.plat, 1, [0x41], false⟩ ∧
        s.issue = ⟨.app, .plat, .whole⟩ ∧ ready .plat s = true) := by decide

/-- FG in the middle of a SUBMIT, and FG while a handler runs, with a command and with a payload word. -/
theorem witness_BusyAgentStartsNothing :
    (permitted .tryReceive (by_ .app .fg submitting) = true ∧ ready .fg (by_ .app .fg submitting) = false) ∧
    (permitted .tryReceive (by_ .app .fg returningTx) = true ∧ ready .fg (by_ .app .fg returningTx) = false) ∧
    (let s := by_ .app .fg { assembling .fg 1 false with isrSeq := .busy (.onRxReady 0 0 .y6) };
      permitted (.submitPayload 0x42) s = true ∧ ready .fg s = false ∧ s.ports.assembly ≠ none) := by decide

/-- A command being issued at the grain `micro`. -/
def micro_ (p : Port) (a : Agent) (s : State) : State := s.setIssue ⟨p, a, .micro⟩

theorem mayRunMicro_of (i : Instr) (p : Port) (a : Agent) (s : State)
    (h : permitted i (micro_ p a s) = true ∧ ready a (micro_ p a s) = true) :
    MayRun i (micro_ p a s) ∧ (micro_ p a s).issue.grain = .micro := ⟨h, rfl⟩

theorem witness_MicroGrainOnlyEnters :
    (MayRun (.submit [0x41]) (micro_ .app .fg demo) ∧ (micro_ .app .fg demo).issue.grain = .micro) ∧
    (MayRun .tryReceive (micro_ .app .fg demo) ∧ (micro_ .app .fg demo).issue.grain = .micro) ∧
    (MayRun .drainReceived (micro_ .app .fg demo) ∧ (micro_ .app .fg demo).issue.grain = .micro) ∧
    (MayRun (.push .tx 0x41) (micro_ .ring .fg demo) ∧ (micro_ .ring .fg demo).issue.grain = .micro) ∧
    (MayRun (.push .rx 0x41) (micro_ .ring .isrRx demo) ∧ (micro_ .ring .isrRx demo).issue.grain = .micro) ∧
    (MayRun (.pop .rx) (micro_ .ring .fg demo) ∧ (micro_ .ring .fg demo).issue.grain = .micro) ∧
    (MayRun (.pop .tx) (micro_ .ring .isrTx demo) ∧ (micro_ .ring .isrTx demo).issue.grain = .micro) ∧
    (MayRun .onTxReady (micro_ .evt .plat demo) ∧ (micro_ .evt .plat demo).issue.grain = .micro) ∧
    MayRun .onRxReady (micro_ .evt .plat demo) ∧ (micro_ .evt .plat demo).issue.grain = .micro := by
  refine ⟨?_, ?_, ?_, ?_, ?_, ?_, ?_, ?_, ?_⟩ <;> exact mayRunMicro_of _ _ _ _ (by decide)

theorem witness_WholeRunIsItsMicroSteps :
    (by_ .app .fg demo).issue.grain = .whole ∧ (by_ .evt .plat demo).issue.grain = .whole ∧
    MayRun (.push .tx 0x41) (by_ .ring .fg demo) ∧ MayRun (.pop .tx) (by_ .ring .isrTx demo) ∧
    MayRun (.submit [0x41, 0x42]) (by_ .app .fg demo) ∧ MayRun .tryReceive (by_ .app .fg demo) ∧
    MayRun .drainReceived (by_ .app .fg demo) ∧ MayRun .onTxReady (by_ .evt .plat demo) ∧
    MayRun .onRxReady (by_ .evt .plat demo) := by
  refine ⟨rfl, rfl, ?_, ?_, ?_, ?_, ?_, ?_, ?_⟩ <;> exact mayRun_of _ _ _ _ (by decide)

/-! ### Encoding -/

/-- The longest command, and a payload word. -/
theorem witness_DecodeOfEncodeIsIdentity :
    (Instr.submit (List.replicate 255 0x41)).wellFormed = true ∧ (∀ b, Instr.submit (List.replicate 255 0x41) ≠ .submitPayload b) ∧
    (Instr.submitPayload 0xFF).wellFormed = true := ⟨by decide +kernel, (fun _ h => by cases h), rfl⟩

theorem witness_EncodeOfDecodeIsIdentity :
    decodeCommand .app [0x1001, 0x00FF, 0x2000] = .ok (.submit [0xFF], [0x2000]) := by decide +kernel

theorem witness_OpcodeRowsAreDisjoint :
    let q : Row := ⟨.push, 0x8000, 0xFE00⟩
    q ∈ operationRows ∧ q.selects 0x81FF = true := by decide

theorem witness_LengthIsKnownFromFirstWord :
    decodeCommand .app (0x1001 :: [0x00FF, 0x2000]) = .ok (.submit [0xFF], [0x2000]) := by decide +kernel

/-! ### Reset and the invariants -/

/-- The smallest and the largest ring, and a capacity out of range. -/
theorem witness_ConstructionLeavesResetState :
    (⟨2, 65536, true, 1, 1, 1, 0, 1⟩ : Config).Valid ∧ ¬ (⟨1, 8, false, 32, 16, 16, 0, 1⟩ : Config).Valid := by decide

theorem witness_ResetMeetsInvariants : (⟨2, 65536, true, 1, 1, 1, 0, 1⟩ : Config).Valid := by decide

theorem witness_EveryStepKeepsInvariant : StateInv demo ∧ StateInv lagging ∧ StateInv submitting :=
  ⟨demo_inv, lagging_inv, submitting_inv⟩

theorem witness_ViewsErrOnTheSafeSide : (StateInv demo ∧ demo.cfg.syncLag = false) ∧ StateInv lagging :=
  ⟨⟨demo_inv, rfl⟩, lagging_inv⟩

theorem witness_IndicesFitTheirWidth : StateInv lastCell ∧ lastCell.tx.writeIndex = 7 := ⟨lastCell_inv, rfl⟩

theorem demo_armKept : ArmKept demo := ⟨rfl, fun _ _ => ⟨rfl, fun _ => rfl⟩⟩

theorem lagging_armKept : ArmKept lagging := ⟨rfl, fun _ h => absurd h (by decide)⟩

theorem demo_budget : TxBudget demo := ⟨rfl, trivial⟩

/-- A step of FG in the arm window, and SY_TXW with a request. -/
theorem witness_DriverStepsKeepArmInvariant :
    (let s := { submitting with turns := [.micro .fg] };
      StateInv s ∧ ArmKept s ∧ directTurn (nextTurn s).1 = false ∧ ∃ t, step s = .next t) ∧
    (let s := { lagging with turns := [.sync .txw] };
      StateInv s ∧ ArmKept s ∧ directTurn (nextTurn s).1 = false ∧ ∃ t, step s = .next t) := by
  refine ⟨⟨?_, ⟨rfl, fun h => absurd h (by decide)⟩, rfl, ⟨_, rfl⟩⟩, ?_, ⟨rfl, fun _ h => absurd h (by decide)⟩, rfl, ⟨_, rfl⟩⟩
  · obtain ⟨h1, h2, h3, h4, h5, h6, h7, h8, h9⟩ := submitting_inv
    exact ⟨h1, h2, h3, h4, h5, h6, h7, h8, h9⟩
  · obtain ⟨h1, h2, h3, h4, h5, h6, h7, h8, h9⟩ := lagging_inv
    exact ⟨h1, h2, h3, h4, h5, h6, h7, h8, h9⟩

theorem witness_DataInTxRingIsArmed :
    StateInv demo ∧ ArmKept demo ∧ inArmWindow demo = false ∧ demo.txArmReq = false ∧ 0 < trueLen .tx demo :=
  ⟨demo_inv, demo_armKept, rfl, rfl, by decide⟩

/-- A step of FG, which may append, and one of the platform, which may not. -/
theorem witness_TransmitStreamOnlyGrows :
    (let s := { submitting with turns := [.micro .fg] };
      StateInv s ∧ TxBudget s ∧ directTurn (nextTurn s).1 = false ∧ ∃ t, step s = .next t) ∧
    (let s := { demo with turns := [.dispatch .txReady] };
      StateInv s ∧ TxBudget s ∧ directTurn (nextTurn s).1 = false ∧ foregroundTurn (nextTurn s).1 = false ∧
        ∃ t, step s = .next t) := by
  refine ⟨⟨?_, ⟨rfl, trivial⟩, rfl, ⟨_, rfl⟩⟩, ?_, demo_budget, rfl, rfl, ⟨_, rfl⟩⟩
  · obtain ⟨h1, h2, h3, h4, h5, h6, h7, h8, h9⟩ := submitting_inv
    exact ⟨h1, h2, h3, h4, h5, h6, h7, h8, h9⟩
  · obtain ⟨h1, h2, h3, h4, h5, h6, h7, h8, h9⟩ := demo_inv
    exact ⟨h1, h2, h3, h4, h5, h6, h7, h8, h9⟩

/-- The end of a transmission: everything sent, TX-ready up but masked (70 R285). -/
def allSent : State := { lab 4 8 4 false with plat := { Platform.reset with txFlag := true, lineOut := [0x41] } }

theorem allSent_inv : StateInv allSent := by
  obtain ⟨h1, h2, h3, h4, h5, h6, h7, h8, h9⟩ := empty_inv
  exact ⟨h1, h2, h3, h4, h5, h6, h7, h8, h9⟩

theorem witness_QuiescentMeansAllSent : StateInv allSent ∧ ArmKept allSent ∧ Quiescent allSent :=
  ⟨allSent_inv, ⟨rfl, fun _ _ => ⟨rfl, fun h => absurd rfl h⟩⟩, rfl, rfl, fun x => by cases x <;> rfl,
    fun x => by cases x <;> rfl, rfl, rfl, rfl, rfl⟩

/-- One byte in the TX ring, its interrupt armed and its flag up. -/
def oneToSend : State := { lab 4 8 4 false with
  tx := ring_ 6 7 [(6, 0x41)], txArmed := true, plat := { Platform.reset with txFlag := true } }

theorem oneToSend_inv : StateInv oneToSend :=
  ⟨by decide, ringOk_of (by decide), ringOk_of (by decide), fun _ => ⟨rfl, rfl, rfl, rfl, rfl⟩, by decide, by decide,
    by decide, trivial, trivial⟩

/-- The dispatch, the handler's nine micro-steps, the line, and the flag; then nothing. -/
def sending (n : Nat) : Turn :=
  if n = 0 then .dispatch .txReady
  else if n < 10 then .micro .isr
  else if n = 10 then .plat .txShift
  else if n = 11 then .plat .txFlag
  else .idle

/-- After that run the byte is sent, the interrupt disarmed, the flag up but masked, and no fair turn is enabled. -/
def sent : State := trajectory sending oneToSend 12

theorem sending_rests {n : Nat} (h : 12 ≤ n) : trajectory sending oneToSend n = sent := by
  induction n, h using Nat.le_induction with
  | base => rfl
  | succ n hn ih =>
    have h : sending n = .idle := by unfold sending; split_ifs <;> first | omega | rfl
    simp only [trajectory, h, runTurn, ih]

theorem sent_enables_nothing :
    (∀ t ∈ fairTurns, turnEnabled t sent = false) ∧ ∀ src, requested src sent = false := by
  have h : fairTurns.all (fun t => !turnEnabled t sent) = true ∧
      ([Source.txReady, .rxReady].all fun src => !requested src sent) = true := by decide +kernel
  refine ⟨fun t ht => by simpa using List.all_eq_true.mp h.1 t ht, fun src => ?_⟩
  simpa using List.all_eq_true.mp h.2 src (by cases src <;> simp)

theorem sending_run : DriverRun sending oneToSend := by
  refine ⟨fun n => ?_, fun n => ⟨n + 12, by omega, by rw [sending_rests (by omega)]; rfl⟩⟩
  unfold sending
  split_ifs <;> rfl

theorem sending_fair : WeaklyFair sending oneToSend := fun t ht n h => by
  have := h (n + 12) (by omega)
  rw [sending_rests (by omega), sent_enables_nothing.1 t ht] at this
  cases this

theorem sending_silent : LineFallsSilent sending oneToSend := by
  refine ⟨0, rfl, fun n _ => ?_⟩
  unfold sending
  split_ifs <;> exact ⟨(fun _ h => by cases h), (fun _ _ h => by cases h)⟩

theorem sending_pending : PendingIsDispatched sending oneToSend := fun src n _ _ =>
  ⟨n + 12, by omega, .inl (by rw [sending_rests (by omega)]; exact sent_enables_nothing.2 src)⟩

/-- A fair run with a byte to send, which it sends; it meets either of the two premises. -/
theorem witness_AcceptedBytesAreEventuallySent :
    StateInv oneToSend ∧ ArmKept oneToSend ∧ TxBudget oneToSend ∧ DriverRun sending oneToSend ∧
    WeaklyFair sending oneToSend ∧ LineFallsSilent sending oneToSend ∧ PendingIsDispatched sending oneToSend ∧
    inArmWindow (trajectory sending oneToSend 0) = false ∧ txStream oneToSend = [some 0x41] ∧
    sent.plat.lineOut = [0x41] :=
  ⟨oneToSend_inv, ⟨rfl, fun _ _ => ⟨rfl, fun _ => rfl⟩⟩, ⟨rfl, trivial⟩, sending_run, sending_fair, sending_silent,
    sending_pending, rfl, by decide, by decide +kernel⟩

/-- A turn of the interrupt side, and a turn of FG. -/
theorem witness_EachFieldHasOneWriter :
    (let s := { demo with turns := [.dispatch .rxReady] };
      StateInv s ∧ (∃ t, step s = .next t) ∧ (∀ p a g, (nextTurn s).1 = .command p a g → a ≠ .fg) ∧
        (nextTurn s).1 ≠ .micro .fg) ∧
    (let s := { submitting with turns := [.micro .fg] };
      StateInv s ∧ (∃ t, step s = .next t) ∧ (∀ p a g, (nextTurn s).1 = .command p a g → a = .fg ∨ a = .sync) ∧
        (nextTurn s).1 ≠ .micro .isr ∧ ∀ src, (nextTurn s).1 ≠ .dispatch src) := by
  refine ⟨⟨?_, ⟨_, rfl⟩, ?_, by decide⟩, ?_, ⟨_, rfl⟩, ?_, by decide, ?_⟩
  · obtain ⟨h1, h2, h3, h4, h5, h6, h7, h8, h9⟩ := demo_inv
    exact ⟨h1, h2, h3, h4, h5, h6, h7, h8, h9⟩
  · intro p a g h; cases h
  · obtain ⟨h1, h2, h3, h4, h5, h6, h7, h8, h9⟩ := submitting_inv
    exact ⟨h1, h2, h3, h4, h5, h6, h7, h8, h9⟩
  · intro p a g h; cases h
  · intro src h; cases h

theorem witness_ParametersNeverChange : ∃ t, step { submitting with turns := [.micro .fg] } = .next t := ⟨_, rfl⟩

/-! ### Turns -/

theorem witness_HandlerReturnSetsIdle :
    returningTx.isrSeq = .busy (.onTxReady 4 0 .x5) ∧ returningRx.isrSeq = .busy (.onRxReady 0 0 .y6) := ⟨rfl, rfl⟩

theorem witness_RunningHandlerExcludesOthers : returningTx.isrSeq ≠ .idle := by decide

theorem witness_SynchroniserCopiesWholeIndex :
    demo.cfg.syncLag = false ∧ (lagging.cfg.syncLag = true ∧ lagging.txArmReq = true) ∧
      ({ lagging with txArmReq := false } : State).cfg.syncLag = true := by decide

theorem witness_ArmIsBlindDisarmTestsEmptiness :
    (demo.cfg.syncLag = false ∧ demo.tx.wrSeen ≠ demo.tx.readIndex) ∧ lagging.cfg.syncLag = true ∧
    (let s := { lab 4 8 4 false with isrSeq := .busy (.onTxReady 4 0 .x1) };
      s.isrSeq = .busy (.onTxReady 4 0 .x1) ∧ s.tx.wrSeen = s.tx.readIndex) := by decide

theorem witness_PlatformStepsAreAsListed :
    (let s := { demo with plat := { demo.plat with txFifo := [0x41], lineIn := [0x43] } };
      s.plat.txFifo = 0x41 :: [] ∧ s.plat.lineIn = 0x43 :: [] ∧ s.plat.rxFifo.length < s.cfg.fifoRxCap) ∧
    (let s := { demo with plat := { demo.plat with rxFifo := [0x01, 0x02, 0x03, 0x04], lineIn := [0x43] } };
      s.plat.txFifo = [] ∧ s.plat.lineIn = 0x43 :: [] ∧ s.cfg.fifoRxCap ≤ s.plat.rxFifo.length) ∧
    demo.plat.lineIn = [] := by decide

/-- The ends of the range, on a capacity that is a power of two; `i` above, at and below `j`. -/
theorem witness_CircularIndexArithmetic :
    (0 < 8 ∧ 7 < 8 ∧ 8 = 2 ^ 3) ∧ (0 < 8 - 1 ∧ 7 = 8 - 1) ∧ (0 ≤ 7 ∧ ¬ 7 < 0) ∧ 0 < 7 := by decide

/-! ### Frames -/

theorem witness_PushAndPopFrame :
    ((by_ .ring .fg demo).issue.grain = .whole ∧ ∃ t, exec (.push .tx 0x43) (by_ .ring .fg demo) = .next t) ∧
    (by_ .ring .isrTx demo).issue.grain = .whole ∧ ∃ t, exec (.pop .tx) (by_ .ring .isrTx demo) = .next t :=
  ⟨⟨rfl, _, rfl⟩, rfl, _, rfl⟩

theorem witness_QueryAndCapabilityFrame :
    (∃ t, exec (.len .tx) (by_ .ring .fg demo) = .next t) ∧
    Instr.hwRxFifoRead.mnemonic.port = .cap ∧ ∃ t, exec .hwRxFifoRead (by_ .cap .isrRx demo) = .next t :=
  ⟨⟨_, rfl⟩, rfl, _, rfl⟩

theorem witness_ForegroundFrame :
    StateInv (by_ .app .fg demo) ∧ (by_ .app .fg demo).issue.grain = .whole ∧
    (∃ t, exec .tryReceive (by_ .app .fg demo) = .next t) ∧ (∃ t, exec .drainReceived (by_ .app .fg demo) = .next t) ∧
    ∃ t, exec (.submit [0x43, 0x44]) (by_ .app .fg demo) = .next t :=
  ⟨issued_inv demo_inv _ _, rfl, ⟨_, rfl⟩, ⟨_, rfl⟩, _, rfl⟩

theorem witness_HandlerFrame :
    StateInv (by_ .evt .plat demo) ∧ (by_ .evt .plat demo).issue.grain = .whole ∧
    (∃ t, exec .onTxReady (by_ .evt .plat demo) = .next t) ∧ ∃ t, exec .onRxReady (by_ .evt .plat demo) = .next t :=
  ⟨issued_inv demo_inv _ _, rfl, ⟨_, rfl⟩, _, rfl⟩

end Sys2Proof.Tests
end

section
/-! The widths of the index registers (00 R8, 10 R21, 10 R41). -/

namespace Sys2Proof.Machine

/-- A capacity is at most the number of values that its index width can write (00 R8). -/
theorem cap_le_two_pow_indexWidth (cap : Nat) : cap ≤ 2 ^ Config.indexWidth cap :=
  Nat.le_pow_clog Nat.one_lt_two cap

/-- A larger capacity bounds the indices of a ring as well. -/
theorem Ring.InRange.mono {cap n : Nat} {x : Ring} (h : x.InRange cap) (hn : cap ≤ n) : x.InRange n := by
  obtain ⟨hread, hwrite, hrd, hwr⟩ := h
  exact ⟨hread.trans_le hn, hwrite.trans_le hn, hrd.trans_le hn, hwr.trans_le hn⟩

/-- Settles O42: the invariant keeps the indices below the capacity (10 R41), and their width has room for that many
values (00 R8). -/
theorem indicesFitTheirWidth : Obligations.IndicesFitTheirWidth := by
  intro s r hinv
  have hrange : (s.ring r).InRange (s.cap r) := (hinv.ringOk r).inRange
  exact ⟨hrange, hrange.mono (cap_le_two_pow_indexWidth (s.cap r))⟩

end Sys2Proof.Machine
end

section
/-! What every turn is made of, RING and CAP commands from outside the driver included: atomic acts of which each keeps
the state invariant and writes only what its side owns (10 R22, 60 R245). -/

namespace Sys2Proof.Machine

/-! ## The fields of each side -/

/-- The fields that side `d` alone writes (10 R22, 60 R245) are the same in `t` as in `s`. -/
def SameOwned (d : Side) (s t : State) : Prop :=
  match d with
  | .fg =>
    t.tx.writeIndex = s.tx.writeIndex ∧ t.tx.storage = s.tx.storage ∧ t.rx.readIndex = s.rx.readIndex ∧
      t.fgSeq = s.fgSeq
  | .isr =>
    t.tx.readIndex = s.tx.readIndex ∧ t.rx.writeIndex = s.rx.writeIndex ∧ t.rx.storage = s.rx.storage ∧
      t.overrun = s.overrun ∧ t.isrSeq = s.isrSeq

theorem SameOwned.refl (d : Side) (s : State) : SameOwned d s s := by cases d <;> simp [SameOwned]

theorem SameOwned.trans {d : Side} {s t u : State} (h : SameOwned d s t) (h' : SameOwned d t u) : SameOwned d s u := by
  cases d <;> simp_all [SameOwned]

/-- From `s` to `t` side `d` has written no parameter and no field that the other side owns. -/
structure WritesOwn (d : Side) (s t : State) : Prop where
  cfg : t.cfg = s.cfg
  others : ∀ e, e ≠ d → SameOwned e s t

theorem WritesOwn.refl (d : Side) (s : State) : WritesOwn d s s := ⟨rfl, fun e _ => SameOwned.refl e s⟩

theorem WritesOwn.trans {d : Side} {s t u : State} (h : WritesOwn d s t) (h' : WritesOwn d t u) : WritesOwn d s u :=
  ⟨h'.cfg.trans h.cfg, fun e he => (h.others e he).trans (h'.others e he)⟩

/-- Side `d` may write its own sequencer and whatever no side owns. -/
theorem WritesOwn.of_rings {d : Side} {s t : State} (hc : t.cfg = s.cfg) (hr : t.rx = s.rx) (ht : t.tx = s.tx)
    (ho : t.overrun = s.overrun) (hs : ∀ e, e ≠ d → t.seq e = s.seq e) : WritesOwn d s t := by
  refine ⟨hc, fun e he => ?_⟩
  have := hs e he
  cases e
  · exact ⟨by rw [ht], by rw [ht], by rw [hr], this⟩
  · exact ⟨by rw [ht], by rw [hr], by rw [hr], ho, this⟩

theorem WritesOwn.fgSeq {s t : State} (h : WritesOwn .isr s t) : t.fgSeq = s.fgSeq := by
  obtain ⟨-, -, -, hseq⟩ := h.others .fg (by simp)
  exact hseq

theorem WritesOwn.isrSeq {s t : State} (h : WritesOwn .fg s t) : t.isrSeq = s.isrSeq := by
  obtain ⟨-, -, -, -, hseq⟩ := h.others .isr (by simp)
  exact hseq

theorem WritesOwn.setSeq (d : Side) (s : State) (q : Seq) : WritesOwn d s (s.setSeq d q) := by
  refine .of_rings (by simp) (by simp) (by simp) (by simp) fun e he => ?_
  cases d <;> cases e <;> first | rfl | exact absurd rfl he

theorem WritesOwn.ret {d : Side} {s t : State} (h : WritesOwn d s t) (a : Agent) (st : Status) (v : Value) :
    WritesOwn d s (t.ret a st v) :=
  h.trans (.of_rings rfl rfl rfl rfl fun _ _ => by simp)

/-! ## Micro-steps write what their side owns -/

/-- A PUSH never writes the reader's index (40 R124). -/
theorem pushStep_readIndex {r : RingId} {b : Byte} {p : PushStage} {s t : State} {o : PushNext}
    (h : pushStep r b p s = .ok (o, t)) : (t.ring r).readIndex = (s.ring r).readIndex := by
  rcases pushStep_cases r b p s t o h with ⟨-, -, -, rfl⟩ | ⟨-, -, -, rfl⟩ | ⟨l, -, -, -, rfl⟩ | ⟨l, -, -, rfl⟩
  · rfl
  · rfl
  · simp
  · simp [setWriteIndex_eq, Ring.publish]

/-- A POP writes neither the writer's index nor a cell (40 R127). -/
theorem popStep_writeIndex_storage {r : RingId} {p : PopStage} {s t : State} {o : PopNext}
    (h : popStep r p s = .ok (o, t)) :
    (t.ring r).writeIndex = (s.ring r).writeIndex ∧ (t.ring r).storage = (s.ring r).storage := by
  rcases popStep_cases r p s t o h with ⟨-, -, -, rfl⟩ | ⟨-, -, -, rfl⟩ | ⟨l, b, -, hm, -⟩ | ⟨l, b, -, -, rfl⟩
  · exact ⟨rfl, rfl⟩
  · exact ⟨rfl, rfl⟩
  · rcases (memRead_ok r l.ri b s t hm).2 with ⟨-, rfl⟩ | ⟨-, -, rfl⟩ <;> simp
  · simp [setReadIndex_eq, Ring.release]

theorem pushStep_writesOwn {r : RingId} {b : Byte} {p : PushStage} {s t : State} {o : PushNext}
    (h : pushStep r b p s = .ok (o, t)) : WritesOwn (taskSide (.push r b p)) s t := by
  have ho := pushStep_onlyRing r b p s t o h
  have hi := pushStep_readIndex h
  refine ⟨ho.cfg, fun e he => ?_⟩
  cases r <;> cases e
  · have ht : t.tx = s.tx := ho.other .tx (by simp)
    exact ⟨by rw [ht], by rw [ht], hi, ho.fgSeq⟩
  · exact absurd rfl he
  · exact absurd rfl he
  · have hr : t.rx = s.rx := ho.other .rx (by simp)
    exact ⟨hi, by rw [hr], by rw [hr], ho.overrun, ho.isrSeq⟩

theorem popStep_writesOwn {r : RingId} {p : PopStage} {s t : State} {o : PopNext}
    (h : popStep r p s = .ok (o, t)) : WritesOwn (taskSide (.pop r p)) s t := by
  have ho := popStep_onlyRing r p s t o h
  obtain ⟨hw, hm⟩ := popStep_writeIndex_storage h
  refine ⟨ho.cfg, fun e he => ?_⟩
  cases r <;> cases e
  · exact absurd rfl he
  · have ht : t.tx = s.tx := ho.other .tx (by simp)
    exact ⟨by rw [ht], hw, hm, ho.overrun, ho.isrSeq⟩
  · have hr : t.rx = s.rx := ho.other .rx (by simp)
    exact ⟨hw, hm, by rw [hr], ho.fgSeq⟩
  · exact absurd rfl he

theorem armTx_writesOwn (d : Side) (s : State) : WritesOwn d s (armTx s) := by
  unfold armTx
  split <;> exact .of_rings rfl rfl rfl rfl fun _ _ => by simp [setTxInterrupt]

theorem disarmTx_writesOwn (d : Side) (s : State) : WritesOwn d s (disarmTx s) := by
  unfold disarmTx
  split
  · exact .of_rings rfl rfl rfl rfl fun _ _ => by simp [setTxInterrupt]
  · exact .refl d s

theorem callTxWrite_writesOwn (d : Side) (b : Byte) (s : State) : WritesOwn d s (callTxWrite b s) := by
  unfold callTxWrite
  split <;> exact .of_rings rfl rfl rfl rfl fun _ _ => by simp

theorem callRxRead_writesOwn (d : Side) (s : State) : WritesOwn d s (callRxRead s) := by
  unfold callRxRead
  split <;> exact .of_rings rfl rfl rfl rfl fun _ _ => by simp

theorem countOverrun_writesOwn (s : State) : WritesOwn .isr s (countOverrun s) := by
  refine ⟨rfl, fun e he => ?_⟩
  cases e
  · exact ⟨rfl, rfl, rfl, rfl⟩
  · exact absurd rfl he

/-- A micro-step of an operation writes what the operation's side owns, from every state. -/
theorem taskStep_writesOwn {task : Task} {s u : State} {q : Seq} (h : taskStep task s = .ok (q, u)) :
    WritesOwn (taskSide task) s u := by
  cases task with
  | submit bytes k stage =>
    cases stage with
    | s1 p =>
      simp only [taskStep, submitStep] at h
      split at h
      · cases h; exact .refl _ _
      · split at h <;> cases h <;> exact pushStep_writesOwn (by assumption)
    | s2 =>
      cases h
      refine WritesOwn.ret ?_ _ _ _
      split
      · exact armTx_writesOwn _ _
      · exact .refl _ _
  | tryReceive stage =>
    simp only [taskStep, tryReceiveStep] at h
    split at h <;> cases h
    · exact popStep_writesOwn (by assumption)
    · exact (popStep_writesOwn (by assumption)).ret _ _ _
    · exact (popStep_writesOwn (by assumption)).ret _ _ _
  | drainReceived out stage =>
    simp only [taskStep, drainReceivedStep] at h
    split at h <;> cases h
    · exact popStep_writesOwn (by assumption)
    · exact (popStep_writesOwn (by assumption)).ret _ _ _
    · exact popStep_writesOwn (by assumption)
  | push r b stage =>
    simp only [taskStep, directPushStep] at h
    split at h <;> cases h
    · exact pushStep_writesOwn (by assumption)
    · exact (pushStep_writesOwn (by assumption)).ret _ _ _
    · exact (pushStep_writesOwn (by assumption)).ret _ _ _
  | pop r stage =>
    simp only [taskStep, directPopStep] at h
    split at h <;> cases h
    · exact popStep_writesOwn (by assumption)
    · exact (popStep_writesOwn (by assumption)).ret _ _ _
    · exact (popStep_writesOwn (by assumption)).ret _ _ _
  | onTxReady free sent stage =>
    cases stage with
    | x0 => cases h; exact .of_rings rfl rfl rfl rfl fun _ _ => by simp [callFreeSlots]
    | x1 =>
      simp only [taskStep, onTxReadyStep] at h
      split at h
      · cases h; exact disarmTx_writesOwn _ _
      · split at h <;> cases h <;> exact .refl _ _
    | x3 p =>
      simp only [taskStep, onTxReadyStep] at h
      split at h <;> cases h <;> exact popStep_writesOwn (r := .tx) (by assumption)
    | x3w b => cases h; exact callTxWrite_writesOwn _ _ _
    | x4 => cases h; exact .of_rings rfl rfl rfl rfl fun _ _ => by simp [callClearTxFlag]
    | x5 => cases h; exact ((WritesOwn.refl _ _).ret _ _ _).trans (.setSeq .isr _ _)
  | onRxReady n i stage =>
    cases stage with
    | y0 => cases h; exact .of_rings rfl rfl rfl rfl fun _ _ => by simp [callOccupancy]
    | y2 => cases h; exact callRxRead_writesOwn _ _
    | y3 b p =>
      simp only [taskStep, onRxReadyStep] at h
      split at h <;> cases h
      · exact pushStep_writesOwn (r := .rx) (by assumption)
      · exact (pushStep_writesOwn (r := .rx) (by assumption)).trans (countOverrun_writesOwn _)
      · exact pushStep_writesOwn (r := .rx) (by assumption)
    | y4 => cases h; exact .of_rings rfl rfl rfl rfl fun _ _ => by simp [callClearRxOvf]
    | y5 => cases h; exact .of_rings rfl rfl rfl rfl fun _ _ => by simp [callClearRxFlag]
    | y6 => cases h; exact ((WritesOwn.refl _ _).ret _ _ _).trans (.setSeq .isr _ _)

/-- A micro-step that answers, taken apart. -/
theorem microStep_cases {d : Side} {s t : State} (h : microStep d s = .ok t) :
    (s.seq d = .idle ∧ t = s) ∨
      ∃ task q u, s.seq d = .busy task ∧ taskStep task s = .ok (q, u) ∧ t = u.setSeq d q := by
  unfold microStep at h
  split at h
  case h_1 hs => cases h; exact .inl ⟨hs, rfl⟩
  case h_2 task hs =>
    split at h
    case h_1 q u hu => cases h; exact .inr ⟨task, q, u, hs, hu, rfl⟩
    case h_2 => cases h

theorem microStep_cfg {d : Side} {s t : State} (h : microStep d s = .ok t) : t.cfg = s.cfg := by
  rcases microStep_cases h with ⟨-, rfl⟩ | ⟨task, q, u, -, hu, rfl⟩
  · rfl
  · simpa using (taskStep_writesOwn hu).cfg

/-- An operation in order runs in its own sequencer. -/
theorem Task.Ok.side {d : Side} {s : State} {task : Task} (h : task.Ok d s) : taskSide task = d := by
  cases task with
  | push r b stage => exact h.1
  | pop r stage => exact h.1
  | _ => exact h.1.symm

/-- In a state in order the operation in progress is in order. -/
theorem StateInv.taskOk {s : State} (h : StateInv s) {d : Side} {task : Task} (hs : s.seq d = .busy task) :
    task.Ok d s := by
  have hd : SeqOk d s := by
    cases d
    · exact h.fg
    · exact h.isr
  simpa only [SeqOk, hs] using hd

/-- An operation in progress, in a state in order, writes what its sequencer's side owns. -/
theorem StateInv.taskStep_writesOwn {s u : State} {d : Side} {task : Task} {q : Seq} (hi : StateInv s)
    (hs : s.seq d = .busy task) (h : taskStep task s = .ok (q, u)) : WritesOwn d s u := by
  have hw := Machine.taskStep_writesOwn h
  rwa [(hi.taskOk hs).side] at hw

theorem microStep_writesOwn {d : Side} {s t : State} (hi : StateInv s) (h : microStep d s = .ok t) :
    WritesOwn d s t := by
  rcases microStep_cases h with ⟨-, rfl⟩ | ⟨task, q, u, hs, hu, rfl⟩
  · exact .refl d t
  · exact (hi.taskStep_writesOwn hs hu).trans (.setSeq d u q)

/-- A synchroniser step writes view copies, which no side owns (20 R73). -/
theorem syncStep_sameOwned (x : SyncStep) (s : State) :
    (syncStep x s).cfg = s.cfg ∧ ∀ d, SameOwned d s (syncStep x s) := by
  cases x with
  | txw => simp only [syncStep]; split <;> exact ⟨rfl, fun d => by cases d <;> simp [SameOwned, setTxInterrupt]⟩
  | _ => exact ⟨rfl, fun d => by cases d <;> simp [SameOwned, syncStep]⟩

/-! ## Acts -/

/-- From `s` to `t` neither a parameter, a ring, a sequencer, the counter nor the request bit differs, and no hardware
FIFO outgrows its capacity: bookkeeping, capability calls, the platform's steps. -/
structure Outer (s t : State) : Prop where
  cfg : t.cfg = s.cfg
  rx : t.rx = s.rx
  tx : t.tx = s.tx
  armReq : t.txArmReq = s.txArmReq
  overrun : t.overrun = s.overrun
  fgSeq : t.fgSeq = s.fgSeq
  isrSeq : t.isrSeq = s.isrSeq
  txFifo : s.plat.txFifo.length ≤ s.cfg.fifoTxCap → t.plat.txFifo.length ≤ s.cfg.fifoTxCap
  rxFifo : s.plat.rxFifo.length ≤ s.cfg.fifoRxCap → t.plat.rxFifo.length ≤ s.cfg.fifoRxCap

theorem Outer.sameOwned {s t : State} (h : Outer s t) (d : Side) : SameOwned d s t := by
  cases d
  · exact ⟨by rw [h.tx], by rw [h.tx], by rw [h.rx], h.fgSeq⟩
  · exact ⟨by rw [h.tx], by rw [h.rx], by rw [h.rx], h.overrun, h.isrSeq⟩

theorem callTxWrite_outer (b : Byte) (s : State) : Outer s (callTxWrite b s) := by
  unfold callTxWrite
  split
  case isTrue hl => exact ⟨rfl, rfl, rfl, rfl, rfl, rfl, rfl, fun _ => by simp; omega, id⟩
  case isFalse => exact ⟨rfl, rfl, rfl, rfl, rfl, rfl, rfl, id, id⟩

theorem callRxRead_outer (s : State) : Outer s (callRxRead s) := by
  unfold callRxRead
  split
  case h_1 => exact ⟨rfl, rfl, rfl, rfl, rfl, rfl, rfl, id, id⟩
  case h_2 hl => exact ⟨rfl, rfl, rfl, rfl, rfl, rfl, rfl, id, fun _ => by simp_all; omega⟩

theorem platStep_outer (x : PlatStep) (s : State) : Outer s (platStep x s) := by
  cases x with
  | txShift =>
    simp only [platStep]
    split
    case h_1 => exact ⟨rfl, rfl, rfl, rfl, rfl, rfl, rfl, id, id⟩
    case h_2 hl => exact ⟨rfl, rfl, rfl, rfl, rfl, rfl, rfl, fun _ => by simp_all; omega, id⟩
  | rxArrive =>
    simp only [platStep]
    split
    case h_1 => exact ⟨rfl, rfl, rfl, rfl, rfl, rfl, rfl, id, id⟩
    case h_2 =>
      split
      case isTrue hl => exact ⟨rfl, rfl, rfl, rfl, rfl, rfl, rfl, id, fun _ => by simp; omega⟩
      case isFalse => exact ⟨rfl, rfl, rfl, rfl, rfl, rfl, rfl, id, id⟩
  | _ => exact ⟨rfl, rfl, rfl, rfl, rfl, rfl, rfl, id, id⟩

/-- One atomic act of the machine, in which only the sequencers of `mv` may move. -/
inductive Act (mv : Side → Prop) (s : State) : State → Prop
  | outer {t : State} (h : Outer s t) : Act mv s t
  | enter (d : Side) (k : Task) (hd : mv d) (hk : ∀ u : State, k.Ok d u) : Act mv s (s.setSeq d (.busy k))
  | micro (d : Side) {t : State} (hd : mv d) (h : microStep d s = .ok t) : Act mv s t
  | sync (x : SyncStep) (h : syncEnabled x s = true) : Act mv s (syncStep x s)

abbrev Acts (mv : Side → Prop) : State → State → Prop := Relation.ReflTransGen (Act mv)

theorem Acts.outer {mv : Side → Prop} {s t : State} (h : Outer s t) : Acts mv s t := .single (.outer h)

theorem Act.cfg {mv : Side → Prop} {s t : State} (h : Act mv s t) : t.cfg = s.cfg := by
  cases h with
  | outer h => exact h.cfg
  | enter d k hd hk => simp
  | micro d hd h => exact microStep_cfg h
  | sync x h => exact (syncStep_sameOwned x s).1

theorem Act.inv {mv : Side → Prop} {s t : State} (hi : StateInv s) (h : Act mv s t) : StateInv t := by
  cases h with
  | outer h =>
    exact hi.same h.cfg h.rx h.tx h.armReq h.fgSeq h.isrSeq h.overrun (h.txFifo hi.txFifo) (h.rxFifo hi.rxFifo)
  | enter d k hd hk =>
    cases d
    · exact hi.of_fgMoved (.refl hi.base) (.busy k) (hk _)
    · exact hi.of_isrMoved (.refl hi.base) (.busy k) (hk _)
  | micro d hd h =>
    obtain ⟨u, hu, hiu⟩ := microStep_keeps hi d
    rw [h] at hu
    cases hu
    exact hiu
  | sync x h => exact syncStep_keeps hi x (by simp [syncEnabled] at h; exact h.1)

/-- An act in which side `d` does not move leaves what `d` owns. -/
theorem Act.sameOwned {mv : Side → Prop} {s t : State} (hi : StateInv s) (h : Act mv s t) {d : Side} (hd : ¬ mv d) :
    SameOwned d s t := by
  have other : ∀ e, mv e → d ≠ e := fun e he hde => hd (hde ▸ he)
  cases h with
  | outer h => exact h.sameOwned d
  | enter e k he hk => exact (WritesOwn.setSeq e s _).others d (other e he)
  | micro e he h => exact (microStep_writesOwn hi h).others d (other e he)
  | sync x h => exact (syncStep_sameOwned x s).2 d

theorem Acts.cfg {mv : Side → Prop} {s t : State} (h : Acts mv s t) : t.cfg = s.cfg := by
  induction h with
  | refl => rfl
  | tail _ a ih => exact a.cfg.trans ih

theorem Acts.inv {mv : Side → Prop} {s t : State} (hi : StateInv s) (h : Acts mv s t) : StateInv t := by
  induction h with
  | refl => exact hi
  | tail _ a ih => exact a.inv ih

theorem Acts.sameOwned {mv : Side → Prop} {s t : State} (hi : StateInv s) (h : Acts mv s t) {d : Side} (hd : ¬ mv d) :
    SameOwned d s t := by
  induction h with
  | refl => exact .refl d s
  | tail c a ih => exact ih.trans (a.sameOwned (Acts.inv hi c) hd)

/-! ## A step is a chain of acts, and faults only from a state out of order -/

/-- The outcome is a next state that acts of `mv` lead to; only from a state out of order may it be a fault. -/
def Leads (mv : Side → Prop) (s : State) : Host.Outcome State Fault Refusal → Prop
  | .next t => Acts mv s t
  | .fault _ => ¬ StateInv s
  | .refused _ => False

theorem Leads.here {mv : Side → Prop} (s : State) : Leads mv s (.next s) := Relation.ReflTransGen.refl

theorem Leads.outer {mv : Side → Prop} {s t : State} (h : Outer s t) : Leads mv s (.next t) := Acts.outer h

theorem Leads.after {mv : Side → Prop} {s t : State} {o : Host.Outcome State Fault Refusal} (h : Acts mv s t)
    (ho : Leads mv t o) : Leads mv s o := by
  cases o with
  | next u => exact h.trans ho
  | fault e => exact fun hi => ho (h.inv hi)
  | refused e => exact ho

theorem outcome_microStep_leads {mv : Side → Prop} {d : Side} (hd : mv d) (s : State) :
    Leads mv s (outcome (microStep d s)) := by
  cases hm : microStep d s with
  | ok t => exact .single (.micro d hd hm)
  | error e =>
    intro hi
    obtain ⟨t, ht, -⟩ := microStep_keeps hi d
    rw [hm] at ht
    cases ht

theorem outcome_runSeq_leads {mv : Side → Prop} {d : Side} (hd : mv d) (n : Nat) (s : State) :
    Leads mv s (outcome (runSeq d n s)) := by
  induction n generalizing s with
  | zero => exact .here s
  | succ n ih =>
    have hm := outcome_microStep_leads hd s
    simp only [runSeq]
    split
    case h_1 => exact .here s
    case h_2 =>
      split
      case h_1 t ht => exact .after (.single (.micro d hd ht)) (ih t)
      case h_2 e he => rw [he] at hm; exact hm

theorem launch_leads {mv : Side → Prop} (k : Task) (n : Nat) (s : State) (hd : mv (taskSide k))
    (hk : ∀ u : State, k.Ok (taskSide k) u) : Leads mv s (launch k n s) := by
  have he : Acts mv s (s.setSeq (taskSide k) (.busy k)) := .single (.enter (taskSide k) k hd hk)
  simp only [launch]
  split
  case h_1 => exact he
  case h_2 => exact .after he (outcome_runSeq_leads hd n _)

theorem ret_outer (s : State) (a : Agent) (st : Status) (v : Value) : Outer s (s.ret a st v) :=
  ⟨rfl, rfl, rfl, rfl, rfl, rfl, rfl, id, id⟩

theorem setPorts_outer (s : State) (p : Ports) : Outer s (s.setPorts p) :=
  ⟨rfl, rfl, rfl, rfl, rfl, rfl, rfl, id, id⟩

theorem setIssue_outer (s : State) (x : Issue) : Outer s (s.setIssue x) :=
  ⟨rfl, rfl, rfl, rfl, rfl, rfl, rfl, id, id⟩

theorem answer_leads {mv : Side → Prop} {s t : State} (h : Outer s t) (st : Status) (v : Value) :
    Leads mv s (answer st v t) := .after (.outer h) (.outer (ret_outer t _ st v))

theorem guarded_leads {mv : Side → Prop} {i : Instr} {s : State} {run : State → Host.Outcome State Fault Refusal}
    (h : MayRun i s → Leads mv s (run s)) : Leads mv s (guarded i s run) := by
  rcases guarded_cases i s run with ⟨hm, e⟩ | ⟨-, e⟩ | ⟨-, e⟩ <;> rw [e]
  · exact h hm
  · exact .here s
  · exact .outer (ret_outer s _ _ _)

/-- A capability operation: one call, and its answer. -/
theorem guarded_answer_leads {mv : Side → Prop} {i : Instr} {s : State} {call : State → State} {v : State → Value}
    (h : Outer s (call s)) : Leads mv s (guarded i s fun t => answer .ok (v t) (call t)) :=
  guarded_leads fun _ => answer_leads h .ok (v s)

/-- The sequencers that an agent's command may move (60 R242). -/
def agentMoves (a : Agent) : Side → Prop
  | .fg => a = .fg
  | .isr => a ≠ .fg ∧ a ≠ .sync

/-- The agent of an operation on its own side moves it. -/
theorem agentMoves_producer (r : RingId) (b : Byte) (p : PushStage) :
    agentMoves (producer r) (taskSide (.push r b p)) := by
  cases r
  · exact ⟨by simp [producer], by simp [producer]⟩
  · exact rfl

theorem agentMoves_consumer (r : RingId) (p : PopStage) : agentMoves (consumer r) (taskSide (.pop r p)) := by
  cases r
  · exact rfl
  · exact ⟨by simp [consumer], by simp [consumer]⟩

/-- A handler is started by an agent other than FG and SYNC. -/
theorem agentMoves_handler {i : Instr} {s : State} (h : MayRun i s) (hi : i.mnemonic.port = .evt) :
    agentMoves s.issue.agent .isr := by
  have hp := h.1
  cases i with
  | onTxReady | onRxReady =>
    simp only [permitted, mayIssue, Bool.and_eq_true, Bool.or_eq_true, beq_iff_eq] at hp
    rcases hp.2 with ha | ha <;> rw [ha] <;> exact ⟨by simp, by simp⟩
  | _ => cases hi

theorem execSubmit_leads (bytes : List Byte) (s : State) :
    Leads (agentMoves s.issue.agent) s (execSubmit bytes s) :=
  guarded_leads fun hm => launch_leads _ _ _ (agent_submit hm) fun u => submitRound_ok bytes 0 (Nat.zero_le _) u

theorem joinAssembly_leads (a : Assembly) (w : Option Byte) (s : State) :
    Leads (agentMoves s.issue.agent) s (joinAssembly a w s) := by
  unfold joinAssembly
  extract_lets a'
  split
  case isTrue =>
    unfold finishAssembly
    extract_lets s'
    split
    case isTrue => exact answer_leads (setPorts_outer s _) _ _
    case isFalse => exact .after (.outer (setPorts_outer s _)) (execSubmit_leads a'.got s')
  case isFalse => exact .outer (setPorts_outer s _)

theorem execSubmitPayload_leads (b : Byte) (s : State) :
    Leads (agentMoves s.issue.agent) s (execSubmitPayload b s) := by
  have refused := answer_leads (mv := agentMoves s.issue.agent) (setPorts_outer s s.ports) .illegal .none
  unfold execSubmitPayload
  split
  case h_1 => exact refused
  case h_2 a ha =>
    split
    case isTrue => exact refused
    case isFalse =>
      split
      case isTrue => exact joinAssembly_leads a (some b) s
      case isFalse => exact .here s

/-- Every operation, whoever issues it, moves only the issuing agent's sequencer. -/
theorem exec_leads (i : Instr) (s : State) : Leads (agentMoves s.issue.agent) s (exec i s) := by
  cases i with
  | submit bytes => exact execSubmit_leads bytes s
  | tryReceive => exact guarded_leads fun hm => launch_leads _ _ _ (agent_try hm) fun _ => ⟨rfl, trivial⟩
  | drainReceived => exact guarded_leads fun hm => launch_leads _ _ _ (agent_drain hm) fun _ => ⟨rfl, trivial⟩
  | onTxReady =>
    exact guarded_leads fun hm => launch_leads _ _ _ (agentMoves_handler hm rfl) fun _ => ⟨rfl, trivial⟩
  | onRxReady =>
    exact guarded_leads fun hm => launch_leads _ _ _ (agentMoves_handler hm rfl) fun _ => ⟨rfl, trivial⟩
  | push r b =>
    exact guarded_leads fun hm =>
      launch_leads _ _ _ (agent_push hm ▸ agentMoves_producer r b .p1) fun _ => ⟨rfl, trivial⟩
  | pop r =>
    exact guarded_leads fun hm =>
      launch_leads _ _ _ (agent_pop hm ▸ agentMoves_consumer r .c1) fun _ => ⟨rfl, trivial⟩
  | len r | isEmpty r | isFull r => exact guarded_leads fun _ => .outer (ret_outer s _ _ _)
  | hwTxFifoWrite b => dsimp only [exec]; exact guarded_answer_leads (callTxWrite_outer b s)
  | hwRxFifoRead => dsimp only [exec]; exact guarded_answer_leads (callRxRead_outer s)
  | hwTxFifoFreeSlots | hwRxFifoOccupancy | hwSetTxInterruptEnabled e | hwClearTxInterruptFlag
  | hwClearRxInterruptFlag | hwClearRxOverflowFlag =>
    dsimp only [exec]
    exact guarded_answer_leads ⟨rfl, rfl, rfl, rfl, rfl, rfl, rfl, id, id⟩
  | submitPayload b => exact execSubmitPayload_leads b s

theorem rejectCommand_leads {mv : Side → Prop} (p : Port) (e : DecodeError) (s : State) :
    Leads mv s (rejectCommand p e s) := by
  cases e with
  | noWord => exact .here s
  | payloadMissing n => exact .after (.outer (setPorts_outer s _)) (.outer (setPorts_outer _ _))
  | _ => exact answer_leads (setPorts_outer s _) _ _

theorem payloadCommand_leads (a : Assembly) (s : State) :
    Leads (agentMoves s.issue.agent) s (payloadCommand a s) := by
  unfold payloadCommand
  split
  case h_1 => exact .here s
  case h_2 =>
    have ht : Acts (agentMoves s.issue.agent) s (takeWords .app 1 s) := .outer (setPorts_outer s _)
    split
    case h_1 b hb => exact .after ht (exec_leads _ (takeWords .app 1 s))
    case h_2 => exact .after ht (joinAssembly_leads a none (takeWords .app 1 s))

theorem runCommand_leads (p : Port) (a : Agent) (g : Grain) (s : State) :
    Leads (agentMoves a) s (runCommand p a g s) := by
  have hs : Acts (agentMoves a) s (s.setIssue ⟨p, a, g⟩) := .outer (setIssue_outer s _)
  unfold runCommand
  split
  case isTrue hen =>
    dsimp only
    split
    case h_1 asm _ => exact .after hs (payloadCommand_leads asm (s.setIssue ⟨.app, a, g⟩))
    case h_2 =>
      split
      case h_1 i rest _ => exact .after (hs.trans (Acts.outer (setPorts_outer _ _))) (exec_leads i _)
      case h_2 e _ => exact .after hs (rejectCommand_leads _ e _)
  case isFalse => exact .here s

/-- The sequencers that a turn may move. -/
def turnMoves : Turn → Side → Prop
  | .command _ a _, d => agentMoves a d
  | .micro e, d => d = e
  | .dispatch _, d => d = .isr
  | _, _ => False

theorem runTurn_leads (x : Turn) (s : State) : Leads (turnMoves x) s (runTurn x s) := by
  cases x with
  | command p a g => exact runCommand_leads p a g s
  | micro d =>
    simp only [runTurn]
    split
    · exact outcome_microStep_leads (mv := turnMoves (.micro d)) rfl s
    · exact .here s
  | dispatch src =>
    simp only [runTurn]
    split
    · exact .single (.enter .isr (handlerTask src) rfl fun _ => by cases src <;> exact ⟨rfl, trivial⟩)
    · exact .here s
  | sync x =>
    simp only [runTurn]
    split
    case isTrue hx => exact .single (.sync x hx)
    case isFalse => exact .here s
  | plat x =>
    simp only [runTurn]
    split
    · exact .outer (platStep_outer x s)
    · exact .here s
  | post p ws => exact .outer (setPorts_outer s _)
  | feed l => exact .outer ⟨rfl, rfl, rfl, rfl, rfl, rfl, rfl, id, id⟩
  | idle => exact .here s

theorem nextTurn_outer (s : State) : Outer s (nextTurn s).2 := by
  unfold nextTurn
  split <;> exact ⟨rfl, rfl, rfl, rfl, rfl, rfl, rfl, id, id⟩

theorem step_leads (s : State) : Leads (turnMoves (nextTurn s).1) s (step s) :=
  .after (.outer (nextTurn_outer s)) (runTurn_leads (nextTurn s).1 (nextTurn s).2)

theorem step_acts {s t : State} (h : step s = .next t) : Acts (turnMoves (nextTurn s).1) s t := by
  have hl := step_leads s
  rw [h] at hl
  exact hl

/-- Settles O40: a step from a state in order cannot fault, and each act that it leads by keeps the invariant. -/
theorem everyStepKeepsInvariant : Obligations.EveryStepKeepsInvariant := by
  intro s hi
  have hl := step_leads s
  cases hs : step s with
  | next t => exact ⟨t, rfl, (step_acts hs).inv hi⟩
  | fault e => rw [hs] at hl; exact absurd hi hl
  | refused e => rw [hs] at hl; exact hl.elim

/-- Settles O47: a turn's acts move only the sequencers that the turn names, and write only what their side owns. -/
theorem eachFieldHasOneWriter : Obligations.EachFieldHasOneWriter := by
  intro s t hi hs
  have ha := step_acts hs
  refine ⟨fun hcmd hmicro => ha.sameOwned hi (d := .fg) ?_, fun hcmd hmicro hdisp => ha.sameOwned hi (d := .isr) ?_⟩
  · intro hmv
    cases hx : (nextTurn s).1 with
    | command p a g => rw [hx] at hmv; exact hcmd p a g hx hmv
    | micro e => rw [hx] at hmv hmicro; exact hmicro (congrArg Turn.micro hmv.symm)
    | dispatch src => rw [hx] at hmv; cases hmv
    | _ => rw [hx] at hmv; exact hmv
  · intro hmv
    cases hx : (nextTurn s).1 with
    | command p a g => rw [hx] at hmv; exact (hcmd p a g hx).elim hmv.1 hmv.2
    | micro e => rw [hx] at hmv hmicro; exact hmicro (congrArg Turn.micro hmv.symm)
    | dispatch src => exact hdisp src hx
    | _ => rw [hx] at hmv; exact hmv

/-- Settles O48: no act changes a parameter. -/
theorem parametersNeverChange : Obligations.ParametersNeverChange := fun _ _ hs => (step_acts hs).cfg

end Sys2Proof.Machine
end

section
/-! The abstract queue of a ring (10 R43): a cell write leaves it, a publication appends to it, a release takes its
head. -/

namespace Sys2Proof.Machine

/-- The live cells of a ring of capacity `cap`, oldest first (10 R43). -/
def Ring.queue (cap : Nat) (x : Ring) : List (Option Byte) :=
  (List.range (dist cap x.writeIndex x.readIndex)).map fun j => x.storage.read ((x.readIndex + j) % cap)

theorem liveCells_eq_queue (r : RingId) (s : State) : liveCells r s = (s.ring r).queue (s.cap r) := rfl

/-! ## How a length changes -/

theorem dist_inc_left {cap a b : Nat} (ha : a < cap) (hb : b < cap) (h : dist cap a b < cap - 1) :
    dist cap (inc cap a) b = dist cap a b + 1 := by
  rw [dist_eq cap a b ha hb] at *
  rw [dist_eq _ _ _ (inc_lt cap a ha) hb, inc_eq cap a ha]
  split_ifs at * <;> omega

theorem dist_inc_right {cap a b : Nat} (ha : a < cap) (hb : b < cap) (h : a ≠ b) :
    dist cap a b = dist cap a (inc cap b) + 1 := by
  rw [dist_eq cap a b ha hb, dist_eq _ _ _ ha (inc_lt cap b hb), inc_eq cap b hb]
  split_ifs <;> omega

/-- The distance from `b` to `a`, gone from `b`, ends at `a`. -/
theorem add_dist_mod {cap a b : Nat} (ha : a < cap) (hb : b < cap) : (b + dist cap a b) % cap = a := by
  rw [add_mod_eq cap b _ hb (dist_lt cap a b (by omega)), dist_eq cap a b ha hb]
  split_ifs <;> omega

/-- The producer sees at least as many bytes as there are (40 R130). -/
theorem Ring.Ok.dist_le_span {cap : Nat} {x : Ring} (h : x.Ok cap) :
    dist cap x.writeIndex x.readIndex ≤ x.span cap := by
  obtain ⟨h1, h2, h3, h4⟩ := h.inRange
  have ho := h.ordered
  unfold Ring.Ordered Ring.span at *
  rw [dist_eq _ _ _ h1 h3, dist_eq _ _ _ h4 h1, dist_eq _ _ _ h2 h4] at *
  rw [dist_eq _ _ _ h2 h1]
  split_ifs at * <;> omega

/-- What the consumer sees is there. -/
theorem Ring.Ok.nonempty_of_seen {cap : Nat} {x : Ring} (h : x.Ok cap) (hne : x.wrSeen ≠ x.readIndex) :
    x.writeIndex ≠ x.readIndex :=
  h.syncWrite_kept.2.1 hne

/-! ## How the queue changes -/

/-- P2 writes no live cell (40 R126). -/
theorem Ring.Ok.queue_write_cell {cap : Nat} {x : Ring} (h : x.Ok cap) (b : Byte) :
    Ring.queue cap { x with storage := x.storage.write x.writeIndex b } = x.queue cap := by
  refine List.map_congr_left fun j hj => ?_
  exact Memory.read_write_other _ _ _ _ (Ring.live_ne_write cap x h.inRange j (List.mem_range.mp hj))

/-- P3 appends the byte of the cell it publishes (40 R125). -/
theorem Ring.Ok.queue_publish {cap : Nat} {x : Ring} (h : x.Ok cap) (lag : Bool) (ho : x.span cap < cap - 1) {b : Byte}
    (hb : x.storage.read x.writeIndex = some b) :
    (x.publish lag (inc cap x.writeIndex)).queue cap = x.queue cap ++ [some b] := by
  obtain ⟨hr, hw, -, -⟩ := h.inRange
  have hlen := dist_inc_left hw hr (Nat.lt_of_le_of_lt h.dist_le_span ho)
  simp only [Ring.queue, Ring.publish, hlen, List.range_succ, List.map_append, List.map_cons, List.map_nil,
    add_dist_mod hw hr, hb]

/-- C3 takes the head of the queue (40 R128). -/
theorem Ring.Ok.queue_release {cap : Nat} {x : Ring} (h : x.Ok cap) (lag : Bool) (hne : x.wrSeen ≠ x.readIndex)
    {b : Byte} (hb : x.storage.read x.readIndex = some b) :
    x.queue cap = some b :: (x.release lag (inc cap x.readIndex)).queue cap := by
  obtain ⟨hr, hw, -, -⟩ := h.inRange
  have hlen := dist_inc_right hw hr (h.nonempty_of_seen hne)
  have shift : ∀ j, (x.readIndex + (j + 1)) % cap = (inc cap x.readIndex + j) % cap := fun j => by
    rw [inc, Nat.mod_add_mod]; congr 1; omega
  simp only [Ring.queue, Ring.release, hlen, List.range_succ_eq_map, List.map_cons, List.map_map, Nat.add_zero,
    Nat.mod_eq_of_lt hr, hb, Function.comp_def, Nat.succ_eq_add_one, shift]

/-- The cell that the consumer reads next holds a byte. -/
theorem Ring.Ok.head_written {cap : Nat} {x : Ring} (h : x.Ok cap) (hne : x.wrSeen ≠ x.readIndex) :
    ∃ b, x.storage.read x.readIndex = some b := by
  obtain ⟨hr, hw, -, -⟩ := h.inRange
  have hpos := dist_inc_right hw hr (h.nonempty_of_seen hne)
  have hl := h.live 0 (by omega)
  rw [Nat.add_zero, Nat.mod_eq_of_lt hr] at hl
  exact Option.isSome_iff_exists.mp hl

/-! ## The queue under micro-steps of PUSH and POP -/

/-- What a micro-step of `PUSH b` adds to the queue. -/
def PushNext.added (b : Byte) : PushNext → List Byte
  | .accepted => [b]
  | _ => []

/-- What a micro-step of `POP` takes from the queue. -/
def PopNext.taken : PopNext → List Byte
  | .took b => [b]
  | _ => []

/-- Only the accepting micro-step of PUSH changes the queue, and it appends the byte. -/
theorem pushStep_queue {r : RingId} {b : Byte} {p : PushStage} {s t : State} {o : PushNext}
    (hr : (s.ring r).Ok (s.cap r)) (hp : p.Ok (s.cap r) (s.ring r) b) (h : pushStep r b p s = .ok (o, t)) :
    liveCells r t = liveCells r s ++ (o.added b).map some := by
  rcases pushStep_cases r b p s t o h with
    ⟨-, -, rfl, rfl⟩ | ⟨-, -, rfl, rfl⟩ | ⟨l, rfl, -, rfl, rfl⟩ | ⟨l, rfl, rfl, rfl⟩
  · simp [PushNext.added]
  · simp [PushNext.added]
  · obtain ⟨hwi, -, -⟩ := hp
    simpa [liveCells_eq_queue, PushNext.added, hwi] using hr.queue_write_cell b
  · obtain ⟨hwi, hnx, hroom, hcell⟩ := hp
    rw [hwi] at hnx hcell
    simpa [liveCells_eq_queue, PushNext.added, setWriteIndex_eq, hnx] using hr.queue_publish _ hroom hcell

/-- Only the taking micro-step of POP changes the queue, and it takes the head. -/
theorem popStep_queue {r : RingId} {p : PopStage} {s t : State} {o : PopNext}
    (hr : (s.ring r).Ok (s.cap r)) (hp : p.Ok (s.ring r)) (h : popStep r p s = .ok (o, t)) :
    liveCells r s = o.taken.map some ++ liveCells r t := by
  rcases popStep_cases r p s t o h with
    ⟨-, -, rfl, rfl⟩ | ⟨-, -, rfl, rfl⟩ | ⟨l, b, rfl, hm, rfl⟩ | ⟨l, b, rfl, rfl, rfl⟩
  · rfl
  · rfl
  · rcases (memRead_ok r l.ri b s t hm).2 with ⟨-, rfl⟩ | ⟨-, -, rfl⟩ <;> simp [liveCells_eq_queue, PopNext.taken]
  · obtain ⟨hri, hne, hcell⟩ := hp
    rw [hri] at hcell
    simpa [liveCells_eq_queue, PopNext.taken, setReadIndex_eq, hri] using hr.queue_release _ hne hcell

/-! ## PUSH and POP whole -/

/-- An accepted PUSH runs to its end: the byte is stored and published (40 R124). -/
theorem exec_push_accepted {r : RingId} {b : Byte} {s : State} (hm : MayRunWhole (.push r b) s)
    (hw : (s.ring r).writeIndex < s.cap r) (hf : inc (s.cap r) (s.ring r).writeIndex ≠ (s.ring r).rdSeen) :
    exec (.push r b) s =
      .next ((s.setRing r (ringStored (s.cap r) s.cfg.syncLag [b] (s.ring r))).ret (producer r) .ok .none) := by
  obtain ⟨l, u, e1, e2, e3⟩ := pushStep_accept r b s hw hf
  have hidle : ((s.setRing r (ringStored (s.cap r) s.cfg.syncLag [b] (s.ring r))).ret (producer r) .ok .none).seq
      (taskSide (.push r b .p1)) = .idle := by simpa using push_seq_idle hm.1 .p1
  calc exec (.push r b) s
      = launch (.push r b .p1) 3 s := guarded_run hm.1 _
    _ = outcome (runSeq (taskSide (.push r b .p1)) 3 (s.setSeq _ (.busy (.push r b .p1)))) := launch_whole hm.2 _ _
    _ = _ := by
      rw [runSeq_step _ 2 (by simp only [taskStep, directPushStep, e1]; rfl),
        runSeq_step _ 1 (by simp only [taskStep, directPushStep, e2]; rfl),
        runSeq_step _ 0 (by simp only [taskStep, directPushStep, e3]; rfl), setSeq_idle hidle]
      rfl

/-- A POP that finds a byte runs to its end: the byte is returned and its cell released (40 R127). -/
theorem exec_pop_taken {r : RingId} {b : Byte} {s : State} (hm : MayRunWhole (.pop r) s)
    (hr : (s.ring r).readIndex < s.cap r) (hne : (s.ring r).wrSeen ≠ (s.ring r).readIndex)
    (hb : s.cell r (s.ring r).readIndex = some b) :
    exec (.pop r) s =
      .next ((s.setRing r (ringConsumed (s.cap r) s.cfg.syncLag 1 (s.ring r))).ret (consumer r) .ok (.byte b)) := by
  obtain ⟨l, e1, e2, e3⟩ := popStep_take r s b hr hne hb
  have hidle : ((s.setRing r (ringConsumed (s.cap r) s.cfg.syncLag 1 (s.ring r))).ret (consumer r) .ok
      (.byte b)).seq (taskSide (.pop r .c1)) = .idle := by simpa using pop_seq_idle hm.1 .c1
  calc exec (.pop r) s
      = launch (.pop r .c1) 3 s := guarded_run hm.1 _
    _ = outcome (runSeq (taskSide (.pop r .c1)) 3 (s.setSeq _ (.busy (.pop r .c1)))) := launch_whole hm.2 _ _
    _ = _ := by
      rw [runSeq_step _ 2 (by simp only [taskStep, directPopStep, e1]; rfl),
        runSeq_step _ 1 (by simp only [taskStep, directPopStep, e2]; rfl),
        runSeq_step _ 0 (by simp only [taskStep, directPopStep, e3]; rfl), setSeq_idle hidle]
      rfl

/-- Storing one byte is its cell write, then its publication. -/
theorem ringStored_one_eq_publish (cap : Nat) (lag : Bool) (b : Byte) (x : Ring) :
    ringStored cap lag [b] x =
      Ring.publish lag (inc cap x.writeIndex) { x with storage := x.storage.write x.writeIndex b } := by
  rw [ringStored_one]; rfl

/-- Consuming one byte is its release. -/
theorem ringConsumed_one_eq_release (cap : Nat) (lag : Bool) (x : Ring) :
    ringConsumed cap lag 1 x = x.release lag (inc cap x.readIndex) := by
  rw [ringConsumed_one]; rfl

/-- Storing one byte appends it to the queue. -/
theorem Ring.Ok.queue_stored {cap : Nat} {x : Ring} (h : x.Ok cap) (lag : Bool) (ho : x.span cap < cap - 1) (b : Byte) :
    (ringStored cap lag [b] x).queue cap = x.queue cap ++ [some b] := by
  rw [ringStored_one_eq_publish, ← h.queue_write_cell b]
  exact (h.write_cell b).queue_publish lag ho (Memory.read_write_same _ _ _)

/-- Settles O5: storing a byte appends it to the queue, consuming one takes the head. -/
theorem pushAppendsPopRemovesHead : Obligations.PushAppendsPopRemovesHead := by
  intro r b s t hi
  have hok := hi.ringOk r
  obtain ⟨hr, hw, hrd, hwr⟩ := hok.inRange
  refine ⟨fun hm he hlen => ?_, fun hm he hlen => ?_⟩
  · have hroom : (s.ring r).span (s.cap r) < s.cap r - 1 := by
      have hspan := Ring.span_eq _ _ hok.inRange hok.ordered
      exact Nat.lt_of_le_of_ne hok.ordered fun hfull => hlen (hspan.symm.trans hfull)
    have hnot : inc (s.cap r) (s.ring r).writeIndex ≠ (s.ring r).rdSeen :=
      fun hfull => hlen ((inc_eq_iff_full _ _ _ (hi.cap_ge r) hw hrd).mp hfull)
    rw [exec_push_accepted hm hw hnot] at he
    cases he
    simpa [liveCells_eq_queue] using hok.queue_stored s.cfg.syncLag hroom b
  · have hne : (s.ring r).wrSeen ≠ (s.ring r).readIndex :=
      fun hempty => hlen ((dist_eq_zero _ _ _ hwr hr).mpr hempty)
    obtain ⟨c, hc⟩ := hok.head_written hne
    rw [exec_pop_taken hm hr hne hc] at he
    cases he
    refine ⟨c, by simp, ?_⟩
    simpa [liveCells_eq_queue, ringConsumed_one_eq_release] using hok.queue_release s.cfg.syncLag hne hc

end Sys2Proof.Machine
end

section
/-! The transmit side under the moves of the driver: no wakeup is lost (10 R44, 42 R172), and no byte accepted for
transmission is (10 R43, 20 R71). -/

namespace Sys2Proof.Machine

/-! ## Operations on the RX ring leave the transmit side alone -/

/-- The TX ring, the armed flag and its request, and the platform's transmit line are the same. -/
structure SameTx (s t : State) : Prop where
  tx : t.tx = s.tx
  armed : t.txArmed = s.txArmed
  armReq : t.txArmReq = s.txArmReq
  txFifo : t.plat.txFifo = s.plat.txFifo
  lineOut : t.plat.lineOut = s.plat.lineOut
  freeReports : t.plat.freeReports = s.plat.freeReports

theorem SameTx.of_onlyRing {s t : State} (h : OnlyRing .rx s t) : SameTx s t :=
  ⟨h.other .tx (by simp), h.armed, h.armReq, by rw [h.plat], by rw [h.plat], by rw [h.plat]⟩

theorem SameTx.ret {s t : State} (h : SameTx s t) (a : Agent) (st : Status) (v : Value) : SameTx s (t.ret a st v) :=
  ⟨h.tx, h.armed, h.armReq, h.txFifo, h.lineOut, h.freeReports⟩

/-- An operation on the RX ring, whoever runs it. -/
def RxTask : Task → Prop
  | .tryReceive _ => True
  | .drainReceived _ _ => True
  | .push r _ _ => r = .rx
  | .pop r _ => r = .rx
  | .onRxReady _ _ _ => True
  | _ => False

/-- The content of a sequencer that runs nothing on the TX ring. -/
def RxSeq (q : Seq) : Prop := ∀ task, q = .busy task → RxTask task

theorem RxSeq.idle : RxSeq .idle := by simp [RxSeq]

theorem RxSeq.busy {task : Task} (h : RxTask task) : RxSeq (.busy task) := by simpa [RxSeq] using h

theorem callRxRead_sameTx (s : State) : SameTx s (callRxRead s) := by
  unfold callRxRead
  split <;> exact ⟨rfl, rfl, rfl, rfl, rfl, rfl⟩

/-- A micro-step of an operation on the RX ring leaves the transmit side alone, and the operation stays one. -/
theorem taskStep_rxTask {task : Task} {s u : State} {q : Seq} (hk : RxTask task) (h : taskStep task s = .ok (q, u)) :
    SameTx s u ∧ RxSeq q := by
  have push : ∀ {b p o t}, pushStep .rx b p s = .ok (o, t) → SameTx s t :=
    fun hp => .of_onlyRing (pushStep_onlyRing _ _ _ _ _ _ hp)
  have pop : ∀ {p o t}, popStep .rx p s = .ok (o, t) → SameTx s t :=
    fun hp => .of_onlyRing (popStep_onlyRing _ _ _ _ _ hp)
  cases task with
  | tryReceive stage =>
    simp only [taskStep, tryReceiveStep] at h
    split at h <;> cases h
    · exact ⟨pop (by assumption), .busy trivial⟩
    · exact ⟨(pop (by assumption)).ret _ _ _, .idle⟩
    · exact ⟨(pop (by assumption)).ret _ _ _, .idle⟩
  | drainReceived out stage =>
    simp only [taskStep, drainReceivedStep] at h
    split at h <;> cases h
    · exact ⟨pop (by assumption), .busy trivial⟩
    · exact ⟨(pop (by assumption)).ret _ _ _, .idle⟩
    · exact ⟨pop (by assumption), .busy trivial⟩
  | push r b stage =>
    cases hk
    simp only [taskStep, directPushStep] at h
    split at h <;> cases h
    · exact ⟨push (by assumption), .busy rfl⟩
    · exact ⟨(push (by assumption)).ret _ _ _, .idle⟩
    · exact ⟨(push (by assumption)).ret _ _ _, .idle⟩
  | pop r stage =>
    cases hk
    simp only [taskStep, directPopStep] at h
    split at h <;> cases h
    · exact ⟨pop (by assumption), .busy rfl⟩
    · exact ⟨(pop (by assumption)).ret _ _ _, .idle⟩
    · exact ⟨(pop (by assumption)).ret _ _ _, .idle⟩
  | onRxReady n i stage =>
    cases stage with
    | y0 => cases h; exact ⟨⟨rfl, rfl, rfl, rfl, rfl, rfl⟩, .busy trivial⟩
    | y2 => cases h; exact ⟨callRxRead_sameTx s, .busy trivial⟩
    | y3 b p =>
      simp only [taskStep, onRxReadyStep] at h
      split at h <;> cases h
      · exact ⟨push (by assumption), .busy trivial⟩
      · obtain ⟨h1, h2, h3, h4, h5, h6⟩ := push (by assumption)
        exact ⟨⟨h1, h2, h3, h4, h5, h6⟩, .busy trivial⟩
      · exact ⟨push (by assumption), .busy trivial⟩
    | y4 => cases h; exact ⟨⟨rfl, rfl, rfl, rfl, rfl, rfl⟩, .busy trivial⟩
    | y5 => cases h; exact ⟨⟨rfl, rfl, rfl, rfl, rfl, rfl⟩, .busy trivial⟩
    | y6 => cases h; exact ⟨⟨rfl, rfl, rfl, rfl, rfl, rfl⟩, .idle⟩
  | submit bytes k stage => exact hk.elim
  | onTxReady free sent stage => exact hk.elim

/-! ## Micro-steps of the operations on the TX ring -/

/-- What SUBMIT goes on with after a micro-step of its push (41 R140, R141). -/
def submitNext (bytes : List Byte) (k : Nat) : PushNext → Task
  | .more p => .submit bytes k (.s1 p)
  | .overflow => .submit bytes k .s2
  | .accepted => submitRound bytes (k + 1)

/-- SUBMIT in S1 takes a micro-step of a PUSH of its next byte. -/
theorem taskStep_submit_s1 {bytes : List Byte} {k : Nat} {p : PushStage} {b : Byte} {s u : State} {q : Seq}
    (hb : bytes[k]? = some b) (h : taskStep (.submit bytes k (.s1 p)) s = .ok (q, u)) :
    ∃ o, pushStep .tx b p s = .ok (o, u) ∧ q = .busy (submitNext bytes k o) := by
  simp only [taskStep, submitStep, hb] at h
  split at h <;> cases h <;> exact ⟨_, by assumption, rfl⟩

/-- A direct PUSH takes a micro-step of PUSH, and returns the result that ends it. -/
theorem taskStep_push {r : RingId} {b : Byte} {p : PushStage} {s u : State} {q : Seq}
    (h : taskStep (.push r b p) s = .ok (q, u)) :
    ∃ o t, pushStep r b p s = .ok (o, t) ∧ (u = t ∨ ∃ st, u = t.ret (producer r) st .none) := by
  simp only [taskStep, directPushStep] at h
  split at h <;> cases h
  · exact ⟨_, _, by assumption, .inl rfl⟩
  · exact ⟨_, _, by assumption, .inr ⟨_, rfl⟩⟩
  · exact ⟨_, _, by assumption, .inr ⟨_, rfl⟩⟩

/-- A direct POP takes a micro-step of POP, and returns the result that ends it. -/
theorem taskStep_pop {r : RingId} {p : PopStage} {s u : State} {q : Seq}
    (h : taskStep (.pop r p) s = .ok (q, u)) :
    ∃ o t, popStep r p s = .ok (o, t) ∧ (u = t ∨ ∃ st v, u = t.ret (consumer r) st v) := by
  simp only [taskStep, directPopStep] at h
  split at h <;> cases h
  · exact ⟨_, _, by assumption, .inl rfl⟩
  · exact ⟨_, _, by assumption, .inr ⟨_, _, rfl⟩⟩
  · exact ⟨_, _, by assumption, .inr ⟨_, _, rfl⟩⟩

/-- What ON_TX_READY goes on with after a micro-step of its pop (42 R160). -/
def txPopNext (free sent : Nat) : PopNext → Task
  | .more p => .onTxReady free sent (.x3 p)
  | .empty => .onTxReady free sent .x1
  | .took b => .onTxReady free sent (.x3w b)

/-- ON_TX_READY in X3 takes a micro-step of a POP. -/
theorem taskStep_onTxReady_x3 {free sent : Nat} {p : PopStage} {s u : State} {q : Seq}
    (h : taskStep (.onTxReady free sent (.x3 p)) s = .ok (q, u)) :
    ∃ o, popStep .tx p s = .ok (o, u) ∧ q = .busy (txPopNext free sent o) := by
  simp only [taskStep, onTxReadyStep] at h
  split at h <;> cases h <;> exact ⟨_, by assumption, rfl⟩

/-! ## The arm invariant -/

/-- FG runs neither a SUBMIT nor a direct PUSH of the TX ring. -/
theorem inArmWindow_of_rxSeq {s : State} (h : RxSeq s.fgSeq) : inArmWindow s = false := by
  unfold inArmWindow
  split
  case h_1 hs => exact (h _ hs).elim
  case h_2 => rfl

theorem directTxPush_of_rxSeq {s : State} (h : RxSeq s.fgSeq) : directTxPush s = false := by
  unfold directTxPush
  split
  case h_1 hs => exact absurd (h _ hs) (by simp [RxTask])
  case h_2 => rfl

/-- The interrupt side sees the whole TX ring, and is armed unless the ring is empty: what `ArmKept` says outside a
SUBMIT's window with no request waiting. -/
def SeenAndArmed (s : State) : Prop :=
  s.tx.wrSeen = s.tx.writeIndex ∧ (s.tx.writeIndex ≠ s.tx.readIndex → s.txArmed = true)

theorem ArmKept.seenAndArmed {s : State} (h : ArmKept s) (hw : inArmWindow s = false) (ha : s.txArmReq = false) :
    SeenAndArmed s := h.2 hw ha

theorem inArmWindow_congr {s t : State} (h : t.fgSeq = s.fgSeq) : inArmWindow t = inArmWindow s := by
  simp only [inArmWindow, h]

theorem directTxPush_congr {s t : State} (h : t.fgSeq = s.fgSeq) : directTxPush t = directTxPush s := by
  simp only [directTxPush, h]

/-- A change that FG's sequencer has no part in keeps the arm invariant if it keeps what that says. -/
theorem ArmKept.of_fgSeq {s t : State} (h : ArmKept s) (hf : t.fgSeq = s.fgSeq) (ha : t.txArmReq = s.txArmReq)
    (hk : SeenAndArmed s → SeenAndArmed t) : ArmKept t := by
  obtain ⟨hd, hw⟩ := h
  refine ⟨(directTxPush_congr hf).trans hd, fun hwt hat => hk ?_⟩
  exact hw ((inArmWindow_congr hf).symm.trans hwt) (ha.symm.trans hat)

theorem SeenAndArmed.congr {s t : State} (h : SeenAndArmed s) (ht : t.tx = s.tx) (ha : t.txArmed = s.txArmed) :
    SeenAndArmed t := by
  simpa only [SeenAndArmed, ht, ha] using h

/-- A synchroniser step keeps the arm invariant; SY_TXW shows the whole ring and delivers the request (20 R73, R74). -/
theorem ArmKept.syncStep {s : State} (h : ArmKept s) (x : SyncStep) : ArmKept (syncStep x s) := by
  cases x with
  | txw =>
    cases hreq : s.txArmReq with
    | true =>
      refine ⟨by simpa [Machine.syncStep, hreq, setTxInterrupt, directTxPush] using h.1, fun _ _ => ?_⟩
      simp [Machine.syncStep, hreq, setTxInterrupt]
    | false =>
      refine h.of_fgSeq (by simp [Machine.syncStep, hreq]) (by simp [Machine.syncStep, hreq]) fun hs => ?_
      simpa [SeenAndArmed, Machine.syncStep, hreq] using hs.2
  | txr => exact h.of_fgSeq rfl rfl id
  | rxw => exact h.of_fgSeq rfl rfl id
  | rxr => exact h.of_fgSeq rfl rfl id

theorem platStep_armKept {s : State} (h : ArmKept s) (x : PlatStep) : ArmKept (platStep x s) := by
  have same : ∀ p, ArmKept (s.setPlat p) := fun p => h.of_fgSeq rfl rfl id
  cases x with
  | txShift => simp only [platStep]; split <;> [exact h; exact same _]
  | rxArrive => simp only [platStep]; split <;> [exact h; (split <;> exact same _)]
  | _ => exact same _

/-- A micro-step of PUSH that does not accept changes no index and no view. -/
theorem pushStep_indices {r : RingId} {b : Byte} {p : PushStage} {s t : State} {o : PushNext}
    (h : pushStep r b p s = .ok (o, t)) (ho : o ≠ .accepted) :
    (t.ring r).writeIndex = (s.ring r).writeIndex ∧ (t.ring r).readIndex = (s.ring r).readIndex ∧
      (t.ring r).wrSeen = (s.ring r).wrSeen := by
  rcases pushStep_cases r b p s t o h with ⟨-, -, -, rfl⟩ | ⟨-, -, -, rfl⟩ | ⟨l, -, -, -, rfl⟩ | ⟨l, -, hacc, -⟩
  · simp
  · simp
  · simp
  · exact absurd hacc ho

/-- After a micro-step of its push a SUBMIT is outside the window only if it has accepted no byte, and then the indices
and the flag are as before. -/
theorem armKept_submit_s1 {s u : State} {bytes : List Byte} {k : Nat} {b : Byte} {p : PushStage} {o : PushNext}
    (h : ArmKept s) (hs : s.fgSeq = .busy (.submit bytes k (.s1 p))) (hp : pushStep .tx b p s = .ok (o, u)) :
    ArmKept (u.setSeq .fg (.busy (submitNext bytes k o))) := by
  have hone := pushStep_onlyRing _ _ _ _ _ _ hp
  refine ⟨by cases o <;> rfl, fun hw hreq => ?_⟩
  have hno : o ≠ .accepted := by
    rintro rfl
    simp [inArmWindow, submitNext, submitRound] at hw
  have hk : k = 0 := by cases o <;> simp_all [inArmWindow, submitNext]
  have hws : inArmWindow s = false := by simp [inArmWindow, hs, hk]
  have hseen : SeenAndArmed s := h.seenAndArmed hws (hone.armReq.symm.trans (by simpa using hreq))
  obtain ⟨hwrite, hread, hview⟩ := pushStep_indices hp hno
  simp only [State.ring_tx] at hwrite hread hview
  simpa [SeenAndArmed, hwrite, hread, hview, hone.armed] using hseen

/-- The end of SUBMIT arms, or requests it, if a byte was accepted (42 R170). -/
theorem armKept_submit_s2 {s : State} {bytes : List Byte} {k : Nat} (hi : StateInv s) (h : ArmKept s)
    (hs : s.fgSeq = .busy (.submit bytes k .s2)) :
    ArmKept (((if 1 ≤ k then armTx s else s).ret .fg .ok (.nat k)).setSeq .fg .idle) := by
  refine ⟨rfl, fun _ hreq => ?_⟩
  split at hreq
  case isTrue hk =>
    rw [if_pos hk]
    cases hl : s.cfg.syncLag with
    | true => simp [armTx, hl] at hreq
    | false =>
      obtain ⟨-, -, -, hseen, -⟩ := hi.views hl
      simpa [SeenAndArmed, armTx, hl, setTxInterrupt] using hseen
  case isFalse hk =>
    rw [if_neg hk]
    have hws : inArmWindow s = false := by simp [inArmWindow, hs, hk]
    exact (h.seenAndArmed hws (by simpa using hreq)).congr rfl rfl

/-- FG's micro-steps keep the arm invariant. -/
theorem armKept_fgMicro {s u : State} {task : Task} {q : Seq} (hi : StateInv s) (h : ArmKept s)
    (hs : s.fgSeq = .busy task) (he : taskStep task s = .ok (q, u)) : ArmKept (u.setSeq .fg q) := by
  have hok : task.Ok .fg s := hi.taskOk hs
  have rxTask : RxTask task → ArmKept (u.setSeq .fg q) := fun hk => by
    obtain ⟨hsame, hq⟩ := taskStep_rxTask hk he
    have hws : inArmWindow s = false := inArmWindow_of_rxSeq (hs ▸ RxSeq.busy hk)
    refine ⟨directTxPush_of_rxSeq hq, fun _ hreq => ?_⟩
    exact (h.seenAndArmed hws (hsame.armReq.symm.trans (by simpa using hreq))).congr (by simpa using hsame.tx)
      (by simpa using hsame.armed)
  cases task with
  | submit bytes k stage =>
    cases stage with
    | s1 p =>
      obtain ⟨-, -, b, hb, -⟩ := hok
      obtain ⟨o, hp, rfl⟩ := taskStep_submit_s1 hb he
      exact armKept_submit_s1 h hs hp
    | s2 => cases he; exact armKept_submit_s2 hi h hs
  | tryReceive stage => exact rxTask trivial
  | drainReceived out stage => exact rxTask trivial
  | push r b stage =>
    cases r with
    | rx => exact rxTask rfl
    | tx => have hd := h.1; simp [directTxPush, hs] at hd
  | pop r stage =>
    cases r with
    | rx => exact rxTask rfl
    | tx => cases hok.1
  | onTxReady free sent stage => cases hok.1
  | onRxReady n i stage => cases hok.1

/-- A POP of the TX ring moves only `read_index`, and only where the consumer saw a byte, so that the interrupt was
armed. -/
theorem seenAndArmed_popStep {s t : State} {p : PopStage} {o : PopNext} (hi : StateInv s) (hp : p.Ok s.tx)
    (h : popStep .tx p s = .ok (o, t)) (hs : SeenAndArmed s) : SeenAndArmed t := by
  rcases popStep_cases .tx p s t o h with ⟨-, -, -, rfl⟩ | ⟨-, -, -, rfl⟩ | ⟨l, b, -, hm, -⟩ | ⟨l, b, rfl, -, rfl⟩
  · exact hs
  · exact hs
  · rcases (memRead_ok .tx l.ri b s t hm).2 with ⟨-, rfl⟩ | ⟨-, -, rfl⟩ <;> exact hs
  · obtain ⟨-, hne, -⟩ := hp
    exact ⟨hs.1, fun _ => hs.2 (hi.tx.nonempty_of_seen hne)⟩

theorem callTxWrite_txArmed (b : Byte) (s : State) : (callTxWrite b s).txArmed = s.txArmed := by
  unfold callTxWrite
  split <;> rfl

/-- The handlers' micro-steps keep the arm invariant: DISARM_TX clears only where the handler sees the ring empty. -/
theorem armKept_isrMicro {s u : State} {task : Task} {q : Seq} (hi : StateInv s) (h : ArmKept s)
    (hs : s.isrSeq = .busy task) (he : taskStep task s = .ok (q, u)) : ArmKept (u.setSeq .isr q) := by
  have hok : task.Ok .isr s := hi.taskOk hs
  have hfg : (u.setSeq .isr q).fgSeq = s.fgSeq := (hi.taskStep_writesOwn (d := .isr) hs he).fgSeq
  have same : u.txArmReq = s.txArmReq → (SeenAndArmed s → SeenAndArmed u) → ArmKept (u.setSeq .isr q) :=
    fun hreq hk => h.of_fgSeq hfg (by simpa using hreq) fun hsa => (hk hsa).congr (by simp) (by simp)
  have rxTask : RxTask task → ArmKept (u.setSeq .isr q) := fun hk => by
    obtain ⟨hsame, -⟩ := taskStep_rxTask hk he
    exact same hsame.armReq fun hsa => hsa.congr hsame.tx hsame.armed
  cases task with
  | submit bytes k stage => cases hok.1
  | tryReceive stage => cases hok.1
  | drainReceived out stage => cases hok.1
  | push r b stage =>
    cases r with
    | rx => exact rxTask rfl
    | tx => cases hok.1
  | pop r stage =>
    cases r with
    | rx => cases hok.1
    | tx =>
      obtain ⟨o, t, hpop, hu⟩ := taskStep_pop he
      have hseen := seenAndArmed_popStep hi hok.2 hpop
      have hreq := (popStep_onlyRing _ _ _ _ _ hpop).armReq
      rcases hu with rfl | ⟨st, v, rfl⟩ <;> exact same hreq hseen
  | onRxReady n i stage => exact rxTask trivial
  | onTxReady free sent stage =>
    obtain ⟨-, hstage⟩ := hok
    cases stage with
    | x0 => cases he; exact same rfl id
    | x1 =>
      simp only [taskStep, onTxReadyStep] at he
      split at he
      case isTrue hempty =>
        cases he
        have hrd : s.tx.wrSeen = s.tx.readIndex := by simpa [txSeenEmpty] using hempty
        refine same (by simp [disarmTx, hempty, setTxInterrupt]) fun hsa => ?_
        have heq : s.tx.writeIndex = s.tx.readIndex := hsa.1.symm.trans hrd
        simpa [SeenAndArmed, disarmTx, hempty, setTxInterrupt, heq] using hrd
      case isFalse => split at he <;> cases he <;> exact same rfl id
    | x3 p =>
      obtain ⟨-, -, hp⟩ := hstage
      obtain ⟨o, hpop, -⟩ := taskStep_onTxReady_x3 he
      exact same (popStep_onlyRing _ _ _ _ _ hpop).armReq (seenAndArmed_popStep hi hp hpop)
    | x3w b =>
      cases he
      have hout := callTxWrite_outer b s
      exact same hout.armReq fun hsa => hsa.congr hout.tx (callTxWrite_txArmed b s)
    | x4 => cases he; exact same rfl id
    | x5 => cases he; exact same rfl id

/-- Every move of the driver keeps the arm invariant. -/
theorem Move.armKept {fg : Bool} {s t : State} (hi : StateInv s) (m : Move fg s t) (h : ArmKept s) : ArmKept t := by
  cases m with
  | book b => exact h.of_fgSeq b.fgSeq b.armReq fun hs => hs.congr b.tx b.armed
  | fgEnter k hf hid hisr hk hok h0 =>
    have hws : inArmWindow s = false := inArmWindow_of_rxSeq (hid ▸ RxSeq.idle)
    refine ⟨?_, fun _ hreq => h.seenAndArmed hws hreq⟩
    cases k with
    | push r b stage => exact hk.elim
    | _ => rfl
  | isrEnter src hid => exact h.of_fgSeq rfl rfl id
  | fgMicro hf hs he => exact armKept_fgMicro hi h hs he
  | isrMicro hs he => exact armKept_isrMicro hi h hs he
  | sync x hx => exact h.syncStep x
  | plat x hx => exact platStep_armKept h x
  | feed l => exact h.of_fgSeq rfl rfl id

/-- Settles O43: a step of the driver is a chain of moves, and each keeps the arm invariant. -/
theorem driverStepsKeepArmInvariant : Obligations.DriverStepsKeepArmInvariant := by
  intro s t hi h hd hs
  have hchain := chain_ind (fun s t => ArmKept s → ArmKept t) (fun _ => id) (fun _ _ _ h1 h2 => h2 ∘ h1)
    (fun _ _ hi m => m.armKept hi) hi (step_chain hd hs)
  exact hchain.1 h

/-- Settles O44: data in the ring is a difference of its indices. -/
theorem dataInTxRingIsArmed : Obligations.DataInTxRingIsArmed := by
  intro s _ h hw hreq hlen
  obtain ⟨-, harmed⟩ := h.seenAndArmed hw hreq
  refine harmed fun heq => ?_
  simp [trueLen, heq, dist_self] at hlen

end Sys2Proof.Machine
end

section
/-! The transmit stream under the moves of the driver (10 R43, 20 R71, 43 R191). -/

namespace Sys2Proof.Machine

/-- The budget is kept and the stream only grows, and not at all where FG does not step. -/
def StreamKept (fg : Bool) (s t : State) : Prop :=
  TxBudget s → TxBudget t ∧ ∃ bs : List Byte, txStream t = txStream s ++ bs.map some ∧ (fg = false → bs = [])

theorem StreamKept.refl (fg : Bool) (s : State) : StreamKept fg s s := fun h => ⟨h, [], by simp, fun _ => rfl⟩

theorem StreamKept.trans {fg : Bool} {s t u : State} (h : StreamKept fg s t) (h' : StreamKept fg t u) :
    StreamKept fg s u := by
  intro hs
  obtain ⟨ht, bs, hbs, hfg⟩ := h hs
  obtain ⟨hu, cs, hcs, hfg'⟩ := h' ht
  exact ⟨hu, bs ++ cs, by rw [hcs, hbs, List.map_append, List.append_assoc], fun h0 => by simp [hfg h0, hfg' h0]⟩

/-! ## What the budget and the stream read -/

/-- The budget depends on the handlers' sequencer and the transmit FIFO alone, and a shorter FIFO meets it too. -/
theorem TxBudget.mono {s t : State} (h : TxBudget s) (hc : t.cfg = s.cfg) (hi : t.isrSeq = s.isrSeq)
    (hr : t.plat.freeReports = s.plat.freeReports) (hl : t.plat.txFifo.length ≤ s.plat.txFifo.length) : TxBudget t := by
  obtain ⟨hrep, hbud⟩ := h
  refine ⟨hr.trans hrep, ?_⟩
  rw [hi, hc]
  split at hbud <;> omega

theorem inFlight_congr {s t : State} (h : t.isrSeq = s.isrSeq) : inFlight t = inFlight s := by simp only [inFlight, h]

/-- The live cells depend on the two indices, the cells and the capacity, and on no view. -/
theorem liveCells_congr {r : RingId} {s t : State} (hc : t.cfg = s.cfg)
    (hw : (t.ring r).writeIndex = (s.ring r).writeIndex) (hr : (t.ring r).readIndex = (s.ring r).readIndex)
    (hm : (t.ring r).storage = (s.ring r).storage) : liveCells r t = liveCells r s := by
  have hcap : t.cap r = s.cap r := by cases r <;> simp [State.cap, hc]
  simp only [liveCells_eq_queue, Ring.queue, hw, hr, hm, hcap]

theorem liveCells_congr_ring {r : RingId} {s t : State} (hc : t.cfg = s.cfg) (h : t.ring r = s.ring r) :
    liveCells r t = liveCells r s :=
  liveCells_congr hc (by rw [h]) (by rw [h]) (by rw [h])

/-- A change with no part in the handlers' sequencer and the transmit line: the stream grows by what the ring does. -/
theorem StreamKept.of_ring {fg : Bool} {s t : State} (hc : t.cfg = s.cfg) (hi : t.isrSeq = s.isrSeq)
    (hr : t.plat.freeReports = s.plat.freeReports) (hf : t.plat.txFifo = s.plat.txFifo)
    (hl : t.plat.lineOut = s.plat.lineOut) (bs : List Byte)
    (hbs : liveCells .tx t = liveCells .tx s ++ bs.map some) (hfg : fg = false → bs = []) : StreamKept fg s t := by
  refine fun h => ⟨h.mono hc hi hr (by rw [hf]), bs, ?_, hfg⟩
  simp only [txStream, hf, hl, inFlight_congr hi, hbs, List.append_assoc]

/-- A change with no part in the TX ring either. -/
theorem StreamKept.of_same {fg : Bool} {s t : State} (hc : t.cfg = s.cfg) (hi : t.isrSeq = s.isrSeq)
    (hr : t.plat.freeReports = s.plat.freeReports) (hf : t.plat.txFifo = s.plat.txFifo)
    (hl : t.plat.lineOut = s.plat.lineOut) (ht : t.tx = s.tx) : StreamKept fg s t :=
  .of_ring hc hi hr hf hl [] (by simpa using liveCells_congr_ring (r := .tx) hc ht) fun _ => rfl

/-! ## FG -/

/-- FG's micro-steps: a SUBMIT's or a direct PUSH's accepted byte joins the ring, and nothing else happens to the
stream. -/
theorem streamKept_fgMicro {s u : State} {task : Task} {q : Seq} (hi : StateInv s) (hs : s.fgSeq = .busy task)
    (he : taskStep task s = .ok (q, u)) : StreamKept true s (u.setSeq .fg q) := by
  have hok : task.Ok .fg s := hi.taskOk hs
  have rxTask : RxTask task → StreamKept true s u := fun hk => by
    obtain ⟨hsame, -⟩ := taskStep_rxTask hk he
    have hw := hi.taskStep_writesOwn (d := .fg) hs he
    exact .of_same hw.cfg hw.isrSeq hsame.freeReports hsame.txFifo hsame.lineOut hsame.tx
  have push : ∀ {b p o t}, p.Ok s.cfg.txCap s.tx b → pushStep .tx b p s = .ok (o, t) → StreamKept true s t :=
    fun {b p o t} hp hpush => by
      have hone := pushStep_onlyRing _ _ _ _ _ _ hpush
      exact .of_ring hone.cfg hone.isrSeq (by rw [hone.plat]) (by rw [hone.plat]) (by rw [hone.plat]) (o.added b)
        (pushStep_queue hi.tx hp hpush) (by simp)
  refine StreamKept.trans (t := u) ?_ (.of_same (by simp) (by simp) (by simp) (by simp) (by simp) (by simp))
  cases task with
  | submit bytes k stage =>
    cases stage with
    | s1 p =>
      obtain ⟨-, -, b, hb, hp⟩ := hok
      obtain ⟨o, hpush, -⟩ := taskStep_submit_s1 hb he
      exact push hp hpush
    | s2 =>
      cases he
      split
      case isTrue =>
        unfold armTx
        split <;> exact .of_same rfl rfl rfl rfl rfl rfl
      case isFalse => exact .of_same rfl rfl rfl rfl rfl rfl
  | tryReceive stage => exact rxTask trivial
  | drainReceived out stage => exact rxTask trivial
  | push r b stage =>
    cases r with
    | rx => exact rxTask rfl
    | tx =>
      obtain ⟨o, t, hpush, hu⟩ := taskStep_push he
      rcases hu with rfl | ⟨st, rfl⟩
      · exact push hok.2 hpush
      · exact (push hok.2 hpush).trans (.of_same rfl rfl rfl rfl rfl rfl)
  | pop r stage =>
    cases r with
    | rx => exact rxTask rfl
    | tx => cases hok.1
  | onTxReady free sent stage => cases hok.1
  | onRxReady n i stage => cases hok.1

/-! ## The handlers -/

/-- Neither an ON_TX_READY nor a direct POP of the TX ring: nothing is in flight and no slot is spoken for. -/
theorem inFlight_of_rxSeq {s : State} (h : RxSeq s.isrSeq) : inFlight s = [] := by
  unfold inFlight
  split
  case h_1 hs => exact (h _ hs).elim
  case h_2 => rfl

/-- With a truthful platform, a handlers' sequencer in order that runs nothing on the TX ring meets the budget. -/
theorem txBudget_of_rxSeq {s : State} (hi : StateInv s) (hr : s.plat.freeReports = []) (h : RxSeq s.isrSeq) :
    TxBudget s := by
  refine ⟨hr, ?_⟩
  split
  case h_1 => trivial
  case h_2 hs => exact (h _ hs).elim
  case h_3 hs =>
    cases h _ hs
    exact absurd (hi.taskOk (d := .isr) hs).1 (by simp [taskSide, taskAgent, consumer])
  case h_4 => trivial

/-- The budget of ON_TX_READY after X0. -/
theorem txBudget_onTxReady {s : State} {free sent : Nat} {stage : TxStage}
    (hs : s.isrSeq = .busy (.onTxReady free sent stage)) (h0 : stage ≠ .x0) :
    TxBudget s ↔ s.plat.freeReports = [] ∧ free - sent + s.plat.txFifo.length ≤ s.cfg.fifoTxCap := by
  cases stage <;> simp_all [TxBudget]

/-- A step of ON_TX_READY after X0 that leaves the platform's FIFOs alone: with the same locals it keeps the budget. -/
theorem TxBudget.onTxReady {s u : State} {free sent : Nat} {stage stage' : TxStage} (h : TxBudget s)
    (hs : s.isrSeq = .busy (.onTxReady free sent stage)) (h0 : stage ≠ .x0) (h0' : stage' ≠ .x0) (hc : u.cfg = s.cfg)
    (hr : u.plat.freeReports = s.plat.freeReports) (hf : u.plat.txFifo = s.plat.txFifo) :
    TxBudget (u.setSeq .isr (.busy (.onTxReady free sent stage'))) := by
  rw [txBudget_onTxReady (State.setSeq_isr_isrSeq _ _) h0']
  simpa [hc, hr, hf] using (txBudget_onTxReady hs h0).mp h

/-- A handler's step keeps the budget and moves no byte in or out of the stream. -/
theorem StreamKept.of_handler {fg : Bool} {s t : State} (hb : TxBudget s → TxBudget t)
    (hstream : TxBudget s → txStream t = txStream s) : StreamKept fg s t :=
  fun h => ⟨hb h, [], by simpa using hstream h, fun _ => rfl⟩

/-- X3's pop takes the head of the ring, and its last micro-step has it in flight. -/
theorem streamKept_x3 {fg : Bool} {s u : State} {free sent : Nat} {p : PopStage} {o : PopNext} (hi : StateInv s)
    (hs : s.isrSeq = .busy (.onTxReady free sent (.x3 p))) (hp : p.Ok s.tx) (h : popStep .tx p s = .ok (o, u)) :
    StreamKept fg s (u.setSeq .isr (.busy (txPopNext free sent o))) := by
  have hone := popStep_onlyRing _ _ _ _ _ h
  have hq := popStep_queue (r := .tx) hi.tx hp h
  refine .of_handler (fun hb => ?_) fun _ => ?_
  · cases o <;> exact hb.onTxReady hs (by simp) (by simp) hone.cfg (by rw [hone.plat]) (by rw [hone.plat])
  · have hlive : ∀ q, liveCells .tx (u.setSeq .isr q) = liveCells .tx u :=
      fun q => liveCells_congr_ring (by simp) (by simp)
    have hfl : inFlight s = [] := by simp [inFlight, hs]
    have hfl' : inFlight (u.setSeq .isr (.busy (txPopNext free sent o))) = o.taken.map some := by cases o <;> rfl
    simp only [txStream, hfl, hfl', hlive, hq, State.setSeq_plat, hone.plat, List.append_nil, List.append_assoc]

/-- X3's write finds a free slot, within the budget, and the byte in flight joins the hardware FIFO (43 R191). -/
theorem streamKept_x3w {fg : Bool} {s : State} {free sent : Nat} {b : Byte}
    (hs : s.isrSeq = .busy (.onTxReady free sent (.x3w b))) (hlt : sent < free) :
    StreamKept fg s ((callTxWrite b s).setSeq .isr (.busy (.onTxReady free (sent + 1) .x1))) := by
  have slots : TxBudget s → s.plat.freeReports = [] ∧ free - sent + s.plat.txFifo.length ≤ s.cfg.fifoTxCap :=
    (txBudget_onTxReady hs (by simp)).mp
  have write : TxBudget s →
      callTxWrite b s = (s.setPlat { s.plat with txFifo := s.plat.txFifo ++ [b] }).emit (.write b) := fun hb => by
    obtain ⟨-, hslots⟩ := slots hb
    rw [callTxWrite, if_pos (by omega)]
  refine .of_handler (fun hb => ?_) fun hb => ?_
  · obtain ⟨hr, hslots⟩ := slots hb
    rw [write hb, txBudget_onTxReady (State.setSeq_isr_isrSeq _ _) (by simp)]
    exact ⟨hr, by simp; omega⟩
  · rw [write hb]
    have hlive : ∀ q p c, liveCells .tx (((s.setPlat p).emit c).setSeq .isr q) = liveCells .tx s :=
      fun q p c => liveCells_congr_ring rfl rfl
    simp [txStream, inFlight, hs, hlive]

/-- With nothing in flight before and after, the stream reads only the TX ring and the transmit line. -/
theorem txStream_congr {s u : State} {q : Seq} (hc : u.cfg = s.cfg) (ht : u.tx = s.tx)
    (hf : u.plat.txFifo = s.plat.txFifo) (hl : u.plat.lineOut = s.plat.lineOut) (h : inFlight s = [])
    (h' : inFlight (u.setSeq .isr q) = []) : txStream (u.setSeq .isr q) = txStream s := by
  have hlive : liveCells .tx (u.setSeq .isr q) = liveCells .tx s :=
    liveCells_congr_ring (by simpa using hc) (by simpa using ht)
  simp only [txStream, h, h', hlive, State.setSeq_plat, hf, hl]

/-- The handlers' micro-steps: ON_TX_READY moves bytes from the ring to the hardware FIFO, in order. -/
theorem streamKept_isrMicro {fg : Bool} {s u : State} {task : Task} {q : Seq} (hi : StateInv s)
    (hs : s.isrSeq = .busy task) (he : taskStep task s = .ok (q, u)) : StreamKept fg s (u.setSeq .isr q) := by
  have hok : task.Ok .isr s := hi.taskOk hs
  have hcfg : u.cfg = s.cfg := (taskStep_writesOwn he).cfg
  have rxTask : RxTask task → StreamKept fg s (u.setSeq .isr q) := fun hk => by
    obtain ⟨hsame, hq⟩ := taskStep_rxTask hk he
    have hinv : StateInv (u.setSeq .isr q) := move_inv (fg := fg) hi (.isrMicro hs he)
    refine .of_handler (fun hb => txBudget_of_rxSeq hinv ?_ hq) fun _ => ?_
    · simpa using hsame.freeReports.trans hb.1
    · exact txStream_congr hcfg hsame.tx hsame.txFifo hsame.lineOut
        (inFlight_of_rxSeq (hs ▸ RxSeq.busy hk)) (inFlight_of_rxSeq hq)
  cases task with
  | submit bytes k stage => cases hok.1
  | tryReceive stage => cases hok.1
  | drainReceived out stage => cases hok.1
  | push r b stage =>
    cases r with
    | rx => exact rxTask rfl
    | tx => cases hok.1
  | pop r stage =>
    cases r with
    | rx => cases hok.1
    | tx => exact fun hb => absurd hb.2 (by simp [hs])
  | onRxReady n i stage => exact rxTask trivial
  | onTxReady free sent stage =>
    obtain ⟨-, hstage⟩ := hok
    cases stage with
    | x0 =>
      cases he
      refine .of_handler (fun hb => ?_) fun _ => txStream_congr rfl rfl rfl rfl ?_ rfl
      · rw [txBudget_onTxReady (State.setSeq_isr_isrSeq _ _) (by simp)]
        have hfifo := hi.txFifo
        simp [callFreeSlots, freeAnswer, hb.1]
        omega
      · simp [inFlight, hs]
    | x1 =>
      have hfl : inFlight s = [] := by simp [inFlight, hs]
      have quiet : ∀ stage', stage' ≠ .x0 → (∀ b, stage' ≠ .x3w b) → u.tx = s.tx → u.plat = s.plat →
          StreamKept fg s (u.setSeq .isr (.busy (.onTxReady free sent stage'))) := fun stage' h0 hw ht hp => by
        refine .of_handler (fun hb => hb.onTxReady hs (by simp) h0 hcfg (by rw [hp]) (by rw [hp])) fun _ => ?_
        refine txStream_congr hcfg ht (by rw [hp]) (by rw [hp]) hfl ?_
        cases stage' <;> first | rfl | exact absurd rfl (hw _)
      simp only [taskStep, onTxReadyStep] at he
      split at he
      case isTrue hempty =>
        cases he
        exact quiet .x4 (by simp) (by simp) (by simp [disarmTx, hempty, setTxInterrupt])
          (by simp [disarmTx, hempty, setTxInterrupt])
      case isFalse =>
        split at he <;> cases he
        · exact quiet .x4 (by simp) (by simp) rfl rfl
        · exact quiet (.x3 .c1) (by simp) (by simp) rfl rfl
    | x3 p =>
      obtain ⟨-, -, hp⟩ := hstage
      obtain ⟨o, hpop, rfl⟩ := taskStep_onTxReady_x3 he
      exact streamKept_x3 hi hs hp hpop
    | x3w b => cases he; exact streamKept_x3w hs hstage
    | x4 =>
      cases he
      refine .of_handler (fun hb => hb.onTxReady hs (by simp) (by simp) rfl rfl rfl) fun _ => ?_
      exact txStream_congr rfl rfl rfl rfl (by simp [inFlight, hs]) rfl
    | x5 =>
      cases he
      refine .of_handler (fun hb => ⟨hb.1, trivial⟩) fun _ => ?_
      exact txStream_congr rfl rfl rfl rfl (by simp [inFlight, hs]) rfl

/-! ## The synchroniser and the platform -/

theorem streamKept_syncStep {fg : Bool} (s : State) (x : SyncStep) : StreamKept fg s (syncStep x s) := by
  obtain ⟨hcfg, hown⟩ := syncStep_sameOwned x s
  obtain ⟨hwrite, hcells, -, -⟩ := hown .fg
  obtain ⟨hread, -, -, -, hisr⟩ := hown .isr
  have hplat : (syncStep x s).plat = s.plat := by
    cases x with
    | txw => simp only [syncStep]; split <;> rfl
    | _ => rfl
  refine .of_ring hcfg hisr (by rw [hplat]) (by rw [hplat]) (by rw [hplat]) [] ?_ fun _ => rfl
  simpa using liveCells_congr (r := .tx) hcfg hwrite hread hcells

/-- PL_TX_SHIFT moves a byte from the FIFO to the line; no other platform step touches the transmit side (43 R206). -/
theorem streamKept_platStep {fg : Bool} (s : State) (x : PlatStep) : StreamKept fg s (platStep x s) := by
  cases x with
  | txShift =>
    simp only [platStep]
    split
    case h_1 => exact .refl fg s
    case h_2 b l hl =>
      refine .of_handler (fun hb => hb.mono rfl rfl rfl (by simp [hl])) fun _ => ?_
      have hlive : ∀ p, liveCells .tx (s.setPlat p) = liveCells .tx s := fun p => liveCells_congr_ring rfl rfl
      have hfl : ∀ p, inFlight (s.setPlat p) = inFlight s := fun p => inFlight_congr rfl
      simp [txStream, hl, hlive, hfl]
  | rxArrive =>
    simp only [platStep]
    split
    case h_1 => exact .refl fg s
    case h_2 => split <;> exact .of_same rfl rfl rfl rfl rfl rfl
  | _ => exact .of_same rfl rfl rfl rfl rfl rfl

/-- Every move of the driver keeps the budget, and only appends to the stream. -/
theorem Move.streamKept {fg : Bool} {s t : State} (hi : StateInv s) (m : Move fg s t) : StreamKept fg s t := by
  cases m with
  | book b => exact .of_same b.cfg b.isrSeq (by rw [b.plat]) (by rw [b.plat]) (by rw [b.plat]) b.tx
  | fgEnter k hf hid hisr hk hok h0 => exact .of_same rfl rfl rfl rfl rfl rfl
  | isrEnter src hid =>
    have hfl : inFlight s = [] := by simp [inFlight, hid]
    refine .of_handler (fun hb => ⟨hb.1, by cases src <;> trivial⟩) fun _ => ?_
    exact txStream_congr rfl rfl rfl rfl hfl (by cases src <;> rfl)
  | fgMicro hf hs he => subst hf; exact streamKept_fgMicro hi hs he
  | isrMicro hs he => exact streamKept_isrMicro hi hs he
  | sync x hx => exact streamKept_syncStep s x
  | plat x hx => exact streamKept_platStep s x
  | feed l => exact .of_same rfl rfl rfl rfl rfl rfl

/-- Settles O45: a step of the driver is a chain of moves, each of which keeps the budget and only appends. -/
theorem transmitStreamOnlyGrows : Obligations.TransmitStreamOnlyGrows := by
  intro s t hi hb hd hs
  obtain ⟨hkept, -⟩ := chain_ind (StreamKept (foregroundTurn (nextTurn s).1)) (StreamKept.refl _)
    (fun _ _ _ => StreamKept.trans) (fun _ _ hi m => m.streamKept hi) hi (step_chain hd hs)
  exact hkept hb

end Sys2Proof.Machine
end

section
/-! The grain `micro` (10 R36, log 5), and construction and reset (10 R45, 70 R261). -/

namespace Sys2Proof.Machine

/-- At the grain `micro` a command that may run is only entered into its sequencer. -/
theorem guarded_launch_micro {i : Instr} {s : State} (hg : s.issue.grain = .micro) (hm : MayRun i s) (k : Task)
    (n : Nat) : guarded i s (launch k n) = .next (s.setSeq (taskSide k) (.busy k)) := by
  rw [guarded_run hm, launch_micro hg]

/-- Settles O30: each of these commands is a checked launch of its task, which the grain `micro` only enters. -/
theorem microGrainOnlyEnters : Obligations.MicroGrainOnlyEnters := by
  intro s hg
  exact ⟨fun bytes hm => guarded_launch_micro hg hm (submitRound bytes 0) _,
    fun hm => guarded_launch_micro hg hm (.tryReceive .c1) _,
    fun hm => guarded_launch_micro hg hm (.drainReceived [] .c1) _,
    fun b hm => guarded_launch_micro hg hm (.push .tx b .p1) _,
    fun b hm => guarded_launch_micro hg hm (.push .rx b .p1) _,
    fun hm => guarded_launch_micro hg hm (.pop .rx .c1) _,
    fun hm => guarded_launch_micro hg hm (.pop .tx .c1) _,
    fun hm => guarded_launch_micro hg hm (handlerTask .txReady) _,
    fun hm => guarded_launch_micro hg hm (handlerTask .rxReady) _⟩

theorem construct_valid {c : Config} (h : c.Valid) : construct c = .next (State.resetWith c) := if_pos h

theorem construct_invalid {c : Config} (h : ¬ c.Valid) : construct c = .refused (.illegalParameters c) := if_neg h

theorem resetWith_ring (c : Config) (r : RingId) : (State.resetWith c).ring r = Ring.reset := by cases r <;> rfl

/-- Both sides see the rings empty after reset. -/
theorem callerLen_reset (c : Config) (r : RingId) (a : Agent) : callerLen r a (State.resetWith c) = 0 := by
  simp [callerLen, producerLen, consumerLen, resetWith_ring, Ring.reset, dist_self]

/-- Settles O38: construction tests the ranges and answers the reset state. -/
theorem constructionLeavesResetState : Obligations.ConstructionLeavesResetState := by
  refine fun c => ⟨fun hc => ⟨State.resetWith c, construct_valid hc, rfl, fun r => ?_, rfl, rfl, rfl, rfl, rfl, rfl,
    rfl, rfl, rfl, rfl, rfl, rfl, callerLen_reset c⟩, construct_invalid⟩
  rw [resetWith_ring]
  refine ⟨rfl, rfl, rfl, rfl, fun i => ?_⟩
  rw [State.cell, resetWith_ring]
  exact Memory.read_nil i

/-- An empty ring is in order, whatever its capacity. -/
theorem Ring.reset_ok {cap : Nat} (h : 0 < cap) : Ring.reset.Ok cap where
  inRange := ⟨h, h, h, h⟩
  ordered := by simp [Ring.Ordered, Ring.span, Ring.reset, dist_self]
  live := by simp [Ring.LiveWritten, Ring.reset, dist_self]
  storage := ⟨rfl, by simp [Ring.reset]⟩

theorem resetWith_inv {c : Config} (h : c.Valid) : StateInv (State.resetWith c) where
  cfg := h
  rx := Ring.reset_ok (Nat.lt_of_lt_of_le Nat.zero_lt_two h.1.1)
  tx := Ring.reset_ok (Nat.lt_of_lt_of_le Nat.zero_lt_two h.2.1.1)
  views := fun _ => ⟨rfl, rfl, rfl, rfl, rfl⟩
  overrun := Nat.zero_le _
  txFifo := Nat.zero_le _
  rxFifo := Nat.zero_le _
  fg := trivial
  isr := trivial

theorem resetWith_armKept (c : Config) : ArmKept (State.resetWith c) :=
  ⟨rfl, fun _ _ => ⟨rfl, fun hne => absurd rfl hne⟩⟩

/-- Settles O39: empty rings, idle sequencers and empty FIFOs meet all three invariants. -/
theorem resetMeetsInvariants : Obligations.ResetMeetsInvariants :=
  ⟨rfl, by decide, fun c hc => ⟨resetWith_inv hc, resetWith_armKept c, rfl, trivial⟩⟩

end Sys2Proof.Machine
end

section
/-! Agents that may not start: an agent with an operation in progress, and every agent but SYNC beside a running handler
(20 R82, 60 R234). -/

namespace Sys2Proof.Machine

theorem permitted_port {i : Instr} {s : State} (h : permitted i s = true) : s.issue.port = i.mnemonic.port := by
  simp only [permitted, Bool.and_eq_true, beq_iff_eq] at h
  exact h.1.symm

/-- The payload word of an agent that may not start an operation waits, like any other command (log 11). -/
theorem execSubmitPayload_waits {b : Byte} {s : State} {a : Assembly} (ha : s.ports.assembly = some a)
    (hp : s.issue.port = .app) (hr : ready s.issue.agent s = false) : execSubmitPayload b s = .next s := by
  have hnot : ¬ (s.issue.agent = a.agent ∧ ready a.agent s = true) := by
    rintro ⟨hagent, hready⟩
    rw [← hagent, hr] at hready
    cases hready
  simp only [execSubmitPayload, ha, hp, ne_eq, not_true_eq_false, if_false, if_neg hnot]

/-- Settles O29: the check of every operation lets the command wait, and so does that of a payload word. -/
theorem busyAgentStartsNothing : Obligations.BusyAgentStartsNothing := by
  intro i s hp hr hasm
  by_cases hb : ∃ b, i = .submitPayload b
  · obtain ⟨a, ha⟩ := Option.ne_none_iff_exists'.mp (hasm hb)
    obtain ⟨b, rfl⟩ := hb
    exact execSubmitPayload_waits ha (permitted_port hp) hr
  · obtain ⟨run, hrun⟩ := exec_guarded i s fun b hi => hb ⟨b, hi⟩
    rw [hrun, guarded_waits hp hr]

/-- Beside a running handler only SYNC is ready. -/
theorem ready_beside_handler {a : Agent} {s : State} (h : s.isrSeq ≠ .idle) (ha : a ≠ .sync) : ready a s = false := by
  cases hr : ready a s with
  | false => rfl
  | true => exact absurd (ready_isr hr ha) h

theorem runTurn_micro_disabled {d : Side} {s : State} (h : microEnabled d s = false) :
    runTurn (.micro d) s = .next s := by
  simp [runTurn, h]

theorem runCommand_disabled {p : Port} {a : Agent} {g : Grain} {s : State} (h : commandEnabled p a s = false) :
    runCommand p a g s = .next s := by
  simp [runCommand, h]

/-- Settles O52: no such turn is enabled while the handlers' sequencer is busy. -/
theorem runningHandlerExcludesOthers : Obligations.RunningHandlerExcludesOthers := by
  intro s h
  refine ⟨runTurn_micro_disabled (by simp [microEnabled, h]), fun p a g ha => ?_, fun src => ?_⟩
  · exact runCommand_disabled (by simp [commandEnabled, ready_beside_handler h ha])
  · simp [runTurn, dispatchEnabled, h]

end Sys2Proof.Machine
end

section
/-! The synchroniser's steps (20 R73 to R75), and the arm and disarm of the TX interrupt (42 R170, R171). -/

namespace Sys2Proof.Machine

theorem runTurn_sync (x : SyncStep) (s : State) :
    runTurn (.sync x) s = .next (if syncEnabled x s then syncStep x s else s) := rfl

theorem Ring.copyRead_of_eq {x : Ring} (h : x.rdSeen = x.readIndex) : { x with rdSeen := x.readIndex } = x := by
  cases x; cases h; rfl

theorem Ring.copyWrite_of_eq {x : Ring} (h : x.wrSeen = x.writeIndex) : { x with wrSeen := x.writeIndex } = x := by
  cases x; cases h; rfl

/-- A synchroniser step that is not enabled under lag would change nothing (20 R73): its index is copied already, and no
request waits. -/
theorem syncStep_disabled {s : State} (hl : s.cfg.syncLag = true) {x : SyncStep} (h : syncEnabled x s = false) :
    syncStep x s = s := by
  simp only [syncEnabled, hl, Bool.true_and] at h
  cases x with
  | txw =>
    obtain ⟨hidx, hreq⟩ : s.tx.wrSeen = s.tx.writeIndex ∧ s.txArmReq = false := by simpa using h
    have hcopy : s.setRing .tx { s.tx with wrSeen := s.tx.writeIndex } = s := by
      rw [Ring.copyWrite_of_eq hidx]; exact State.setRing_self s .tx
    simp [syncStep, hcopy, hreq]
  | txr => rw [syncStep, Ring.copyRead_of_eq (by simpa using h)]; exact State.setRing_self s .tx
  | rxw => rw [syncStep, Ring.copyWrite_of_eq (by simpa using h)]; exact State.setRing_self s .rx
  | rxr => rw [syncStep, Ring.copyRead_of_eq (by simpa using h)]; exact State.setRing_self s .rx

/-- Under lag a turn of the synchroniser is its step, whatever the views. -/
theorem runTurn_sync_lag {s : State} (hl : s.cfg.syncLag = true) (x : SyncStep) :
    runTurn (.sync x) s = .next (syncStep x s) := by
  rw [runTurn_sync]
  split
  case isTrue => rfl
  case isFalse hoff => rw [syncStep_disabled hl (by simpa using hoff)]

/-- Settles O53: without lag no synchroniser step is enabled; under lag each turn is its step. -/
theorem synchroniserCopiesWholeIndex : Obligations.SynchroniserCopiesWholeIndex := by
  refine fun s => ⟨fun hl x => ?_, fun hl => ⟨runTurn_sync_lag hl .txr, runTurn_sync_lag hl .rxw,
    runTurn_sync_lag hl .rxr, fun hreq => ?_, fun hreq => ?_⟩⟩
  · simp [runTurn_sync, syncEnabled, hl]
  · simp [runTurn_sync_lag hl, syncStep, hreq, State.setRing]
  · simp [runTurn_sync_lag hl, syncStep, hreq, State.setRing, setTxInterrupt, State.setArmed, State.emit,
      State.setArmReq]

theorem armTx_direct {s : State} (h : s.cfg.syncLag = false) : armTx s = setTxInterrupt true s := by simp [armTx, h]

theorem armTx_lag {s : State} (h : s.cfg.syncLag = true) : armTx s = s.setArmReq true := by simp [armTx, h]

theorem txSeenEmpty_iff (s : State) : txSeenEmpty s = true ↔ s.tx.wrSeen = s.tx.readIndex := by simp [txSeenEmpty]

theorem disarmTx_empty {s : State} (h : s.tx.wrSeen = s.tx.readIndex) : disarmTx s = setTxInterrupt false s :=
  if_pos ((txSeenEmpty_iff s).mpr h)

theorem disarmTx_nonempty {s : State} (h : s.tx.wrSeen ≠ s.tx.readIndex) : disarmTx s = s :=
  if_neg (mt (txSeenEmpty_iff s).mp h)

/-- A micro-step turn of a handler is the next micro-step of its operation. -/
theorem runTurn_micro_isr {s u : State} {task : Task} {q : Seq} (hs : s.isrSeq = .busy task)
    (h : taskStep task s = .ok (q, u)) : runTurn (.micro .isr) s = .next (u.setSeq .isr q) := by
  simp [runTurn, microEnabled, microStep, State.seq, hs, h, outcome]

/-- Step X1 on a ring seen empty disarms and goes on to the acknowledge (42 R160, R171). -/
theorem taskStep_x1_empty {free sent : Nat} {s : State} (h : s.tx.wrSeen = s.tx.readIndex) :
    taskStep (.onTxReady free sent .x1) s = .ok (.busy (.onTxReady free sent .x4), setTxInterrupt false s) := by
  simp only [taskStep, onTxReadyStep, (txSeenEmpty_iff s).mpr h, if_true, disarmTx_empty h]

/-- Settles O54: the two branches of ARM_TX, the two of DISARM_TX, and the micro-step X1 that takes the second. -/
theorem armIsBlindDisarmTestsEmptiness : Obligations.ArmIsBlindDisarmTestsEmptiness := fun _ =>
  ⟨fun hl => armTx_direct hl, fun hl => armTx_lag hl, fun he => disarmTx_empty he, fun hne => disarmTx_nonempty hne,
    fun _ _ hs he => runTurn_micro_isr hs (taskStep_x1_empty he)⟩

end Sys2Proof.Machine
end

section
/-! A run of micro-steps with no other agent between them, as turns of the schedule (log 5). -/

namespace Sys2Proof.Machine

/-! ## An operation in progress stays the same operation -/

/-- The ring that an operation works on. -/
def Task.ring : Task → RingId
  | .submit _ _ _ => .tx
  | .tryReceive _ => .rx
  | .drainReceived _ _ => .rx
  | .push r _ _ => r
  | .pop r _ => r
  | .onTxReady _ _ _ => .tx
  | .onRxReady _ _ _ => .rx

/-- The content of a sequencer that runs nothing but operations of agent `a` on ring `r`. -/
def Seq.Runs (a : Agent) (r : RingId) (q : Seq) : Prop := ∀ task, q = .busy task → taskAgent task = a ∧ task.ring = r

theorem Seq.Runs.idle (a : Agent) (r : RingId) : Seq.Runs a r .idle := fun _ h => by cases h

theorem Seq.Runs.busy (task : Task) : Seq.Runs (taskAgent task) task.ring (.busy task) := fun _ h => by
  cases h; exact ⟨rfl, rfl⟩

/-- A micro-step goes on with the agent's operation on the same ring, or ends it. -/
theorem taskStep_runs {task : Task} {s u : State} {q : Seq} (h : taskStep task s = .ok (q, u)) :
    q.Runs (taskAgent task) task.ring := by
  cases task with
  | submit bytes k stage =>
    cases stage with
    | s1 p =>
      simp only [taskStep, submitStep] at h
      split at h
      · cases h; exact .busy _
      · split at h <;> cases h <;> exact .busy _
    | s2 => cases h; exact .idle _ _
  | tryReceive stage =>
    simp only [taskStep, tryReceiveStep] at h
    split at h <;> cases h
    · exact .busy _
    · exact .idle _ _
    · exact .idle _ _
  | drainReceived out stage =>
    simp only [taskStep, drainReceivedStep] at h
    split at h <;> cases h
    · exact .busy _
    · exact .idle _ _
    · exact .busy _
  | push r b stage =>
    simp only [taskStep, directPushStep] at h
    split at h <;> cases h
    · exact .busy _
    · exact .idle _ _
    · exact .idle _ _
  | pop r stage =>
    simp only [taskStep, directPopStep] at h
    split at h <;> cases h
    · exact .busy _
    · exact .idle _ _
    · exact .idle _ _
  | onTxReady free sent stage =>
    cases stage with
    | x0 | x3w b | x4 => cases h; exact .busy _
    | x1 =>
      simp only [taskStep, onTxReadyStep] at h
      split at h
      · cases h; exact .busy _
      · split at h <;> cases h <;> exact .busy _
    | x3 p => simp only [taskStep, onTxReadyStep] at h; split at h <;> cases h <;> exact .busy _
    | x5 => cases h; exact .idle _ _
  | onRxReady n i stage =>
    cases stage with
    | y0 | y2 | y4 | y5 => cases h; exact .busy _
    | y3 b p => simp only [taskStep, onRxReadyStep] at h; split at h <;> cases h <;> exact .busy _
    | y6 => cases h; exact .idle _ _

/-! ## A run is its turns -/

/-- A sequencer in which one micro-step turn is one micro-step: the handlers' always; FG's while no handler runs and
it is FG's own operation that is in progress. -/
def Alone (d : Side) (s : State) : Prop :=
  d = .fg → s.isrSeq = .idle ∧ ∀ task, s.fgSeq = .busy task → taskAgent task = .fg

theorem Alone.microEnabled {d : Side} {s : State} (h : Alone d s) {task : Task} (hs : s.seq d = .busy task) :
    microEnabled d s = true := by
  cases d with
  | fg =>
    obtain ⟨hidle, -⟩ := h rfl
    have hs' : s.fgSeq = .busy task := hs
    simp [Machine.microEnabled, hidle, hs']
  | isr =>
    have hs' : s.isrSeq = .busy task := hs
    simp [Machine.microEnabled, hs']

theorem microEnabled_of_idle {d : Side} {s : State} (hs : s.seq d = .idle) : microEnabled d s = false := by
  cases d with
  | fg => have hs' : s.fgSeq = .idle := hs; simp [microEnabled, hs']
  | isr => have hs' : s.isrSeq = .idle := hs; simp [microEnabled, hs']

theorem Alone.microStep {d : Side} {s t : State} (h : Alone d s) (hm : microStep d s = .ok t) : Alone d t := by
  rintro rfl
  obtain ⟨hidle, hfg⟩ := h rfl
  rcases microStep_cases hm with ⟨-, rfl⟩ | ⟨task, q, u, hs, hu, rfl⟩
  · exact ⟨hidle, hfg⟩
  · have hagent : taskAgent task = .fg := hfg task hs
    have hside : taskSide task = .fg := if_pos hagent
    have hw := taskStep_writesOwn hu
    rw [hside] at hw
    refine ⟨by simpa using hw.isrSeq.trans hidle, fun task' hq => ?_⟩
    exact (taskStep_runs hu task' (by simpa using hq)).1.trans hagent

/-- Turns of an idle sequencer change nothing (log 4). -/
theorem microTurns_idle {d : Side} {s : State} (hs : s.seq d = .idle) (n : Nat) : microTurns d n s = .next s := by
  induction n with
  | zero => rfl
  | succ n ih => simp only [microTurns, runTurn_micro_disabled (microEnabled_of_idle hs), ih]

/-- A run of at most `n` micro-steps is `n` micro-step turns: those after its end change nothing. -/
theorem outcome_runSeq_eq_microTurns (d : Side) (n : Nat) (s : State) (h : Alone d s) :
    outcome (runSeq d n s) = microTurns d n s := by
  induction n generalizing s with
  | zero => rfl
  | succ n ih =>
    cases hs : s.seq d with
    | idle => rw [runSeq_idle d _ s hs, microTurns_idle hs]; rfl
    | busy task =>
      simp only [runSeq, microTurns, runTurn, hs, h.microEnabled hs, if_true]
      cases hm : microStep d s with
      | ok t => exact ih t (h.microStep hm)
      | error e => rfl

/-- A command of the grain `whole` that may run is a run of its task's micro-steps. -/
theorem guarded_launch_run {i : Instr} {s : State} (hm : MayRunWhole i s) (k : Task) (n : Nat) :
    guarded i s (launch k n) = outcome (runSeq (taskSide k) n (s.setSeq (taskSide k) (.busy k))) := by
  rw [guarded_run hm.1, launch_whole hm.2]

/-- A command of the grain `whole` that may run is entered into its sequencer and takes its micro-steps as turns. -/
theorem guarded_launch_whole {i : Instr} {s : State} (hg : s.issue.grain = .whole) (hm : MayRun i s) {k : Task}
    (hk : taskAgent k = .fg → s.issue.agent = .fg) (n : Nat) :
    guarded i s (launch k n) = microTurns (taskSide k) n (s.setSeq (taskSide k) (.busy k)) := by
  rw [guarded_launch_run ⟨hm, hg⟩]
  refine outcome_runSeq_eq_microTurns _ n _ fun hside => ?_
  have hfg : taskAgent k = .fg := by by_contra hne; simp [taskSide, hne] at hside
  rw [hside]
  have hr := hm.2
  rw [hk hfg] at hr
  refine ⟨by simpa using (ready_fg hr).2, fun task hq => ?_⟩
  cases hq
  exact hfg

/-- Settles O31: each of these commands is a checked launch of its task, whose run is its turns. -/
theorem wholeRunIsItsMicroSteps : Obligations.WholeRunIsItsMicroSteps := by
  intro s hg
  exact ⟨fun bytes hm => guarded_launch_whole hg hm (k := submitRound bytes 0) (fun _ => agent_submit hm) _,
    fun r b hm => guarded_launch_whole hg hm (k := .push r b .p1) (fun h => (agent_push hm).trans h) _,
    fun r hm => guarded_launch_whole hg hm (k := .pop r .c1) (fun h => (agent_pop hm).trans h) _,
    fun hm => guarded_launch_whole hg hm (k := .tryReceive .c1) (fun _ => agent_try hm) _,
    fun hm => guarded_launch_whole hg hm (k := .drainReceived [] .c1) (fun _ => agent_drain hm) _,
    fun hm => guarded_launch_whole hg hm (k := handlerTask .txReady) (fun h => by cases h) _,
    fun hm => guarded_launch_whole hg hm (k := handlerTask .rxReady) (fun h => by cases h) _⟩

end Sys2Proof.Machine
end

section
/-! The two rings are independent (20 R81): with the other ring replaced, an operation of one ring does the same and
leaves the replacement as it stands. -/

namespace Sys2Proof.Machine

/-! ## Replacing a ring of the state -/

theorem State.setRing_comm {r q : RingId} (h : r ≠ q) (s : State) (x y : Ring) :
    (s.setRing q x).setRing r y = (s.setRing r y).setRing q x := by
  cases r <;> cases q <;> first | rfl | exact absurd rfl h

@[simp] theorem State.setRing_setSeq (s : State) (q : RingId) (x : Ring) (d : Side) (c : Seq) :
    (s.setRing q x).setSeq d c = (s.setSeq d c).setRing q x := by
  cases q <;> cases d <;> rfl

@[simp] theorem State.setRing_ret (s : State) (q : RingId) (x : Ring) (a : Agent) (st : Status) (v : Value) :
    (s.setRing q x).ret a st v = (s.ret a st v).setRing q x := by
  cases q <;> rfl

theorem State.setRing_cell_other {r q : RingId} (h : r ≠ q) (s : State) (x : Ring) (i : Nat) :
    (s.setRing q x).cell r i = s.cell r i := by
  simp only [State.cell, State.setRing_ring_other s q r x h]

/-- What is done with a state is done with one ring of it replaced. -/
def CommutesRing (q : RingId) (f : State → State) : Prop := ∀ s x, f (s.setRing q x) = (f s).setRing q x

/-- An answer with one ring of its state replaced. -/
def answerWithRing {α : Type} (q : RingId) (x : Ring) :
    Except Fault (α × State) → Except Fault (α × State) :=
  Except.map (Prod.map id (·.setRing q x))

@[simp] theorem answerWithRing_ok {α : Type} (q : RingId) (x : Ring) (a : α) (s : State) :
    answerWithRing q x (.ok (a, s)) = .ok (a, s.setRing q x) := rfl

@[simp] theorem answerWithRing_error {α : Type} (q : RingId) (x : Ring) (e : Fault) :
    answerWithRing (α := α) q x (.error e) = .error e := rfl

/-! ## Micro-steps -/

theorem memWrite_setRing_other {r q : RingId} (h : r ≠ q) (i : Nat) (b : Byte) (s : State) (x : Ring) :
    memWrite r i b (s.setRing q x) = (memWrite r i b s).map (·.setRing q x) := by
  simp only [memWrite, State.setRing_cap, State.setRing_ring_other s q r x h, State.setRing_comm h]
  split <;> rfl

theorem memRead_setRing_other {r q : RingId} (h : r ≠ q) (i : Nat) (s : State) (x : Ring) :
    memRead r i (s.setRing q x) = answerWithRing q x (memRead r i s) := by
  simp only [memRead, State.setRing_cap, State.setRing_cell_other h, State.setRing_freeCount]
  split
  · cases s.cell r i with
    | some b => rfl
    | none => cases q <;> rfl
  · rfl

theorem pushStep_setRing_other {r q : RingId} (h : r ≠ q) (b : Byte) (p : PushStage) (s : State) (x : Ring) :
    pushStep r b p (s.setRing q x) = answerWithRing q x (pushStep r b p s) := by
  cases p with
  | p1 => simp only [pushStep, State.setRing_ring_other s q r x h, State.setRing_cap]; split <;> rfl
  | p2 l => simp only [pushStep, memWrite_setRing_other h]; cases memWrite r l.wi b s <;> rfl
  | p3 l =>
    simp only [pushStep, setWriteIndex_eq, State.setRing_ring_other s q r x h, State.setRing_cfg, State.setRing_comm h,
      answerWithRing_ok]

theorem popStep_setRing_other {r q : RingId} (h : r ≠ q) (p : PopStage) (s : State) (x : Ring) :
    popStep r p (s.setRing q x) = answerWithRing q x (popStep r p s) := by
  cases p with
  | c1 => simp only [popStep, State.setRing_ring_other s q r x h]; split <;> rfl
  | c2 l => simp only [popStep, memRead_setRing_other h]; cases memRead r l.ri s <;> rfl
  | c3 l b =>
    simp only [popStep, setReadIndex_eq, State.setRing_ring_other s q r x h, State.setRing_cfg, State.setRing_cap,
      State.setRing_comm h, answerWithRing_ok]

theorem armTx_commutesRing (q : RingId) : CommutesRing q armTx := fun s x => by
  simp only [armTx, State.setRing_cfg]
  split <;> cases q <;> rfl

theorem callTxWrite_commutesRing (q : RingId) (b : Byte) : CommutesRing q (callTxWrite b) := fun s x => by
  simp only [callTxWrite, State.setRing_plat, State.setRing_cfg]
  split <;> cases q <;> rfl

theorem callRxRead_commutesRing (q : RingId) : CommutesRing q callRxRead := fun s x => by
  simp only [callRxRead, readAnswer, State.setRing_plat, State.setRing_freeCount]
  cases s.plat.rxFifo <;> cases q <;> rfl

theorem txSeenEmpty_setRing_rx (s : State) (x : Ring) : txSeenEmpty (s.setRing .rx x) = txSeenEmpty s := rfl

/-- DISARM_TX reads the TX ring alone. -/
theorem disarmTx_setRing_rx (s : State) (x : Ring) : disarmTx (s.setRing .rx x) = (disarmTx s).setRing .rx x := by
  rw [disarmTx, disarmTx, txSeenEmpty_setRing_rx]
  cases txSeenEmpty s <;> rfl

/-- A micro-step reads and writes no ring but its operation's. -/
theorem taskStep_setRing_other {task : Task} {q : RingId} (h : task.ring ≠ q) (s : State) (x : Ring) :
    taskStep task (s.setRing q x) = answerWithRing q x (taskStep task s) := by
  cases task with
  | submit bytes k stage =>
    cases stage with
    | s1 p =>
      simp only [taskStep, submitStep]
      cases bytes[k]? with
      | none => rfl
      | some b =>
        simp only [pushStep_setRing_other (r := .tx) h]
        rcases pushStep .tx b p s with e | ⟨o, t⟩
        · rfl
        · cases o <;> rfl
    | s2 =>
      simp only [taskStep, submitStep, armTx_commutesRing q s x]
      split <;> cases q <;> rfl
  | tryReceive stage =>
    simp only [taskStep, tryReceiveStep, popStep_setRing_other (r := .rx) h]
    rcases popStep .rx stage s with e | ⟨o, t⟩
    · rfl
    · cases o <;> simp
  | drainReceived out stage =>
    simp only [taskStep, drainReceivedStep, popStep_setRing_other (r := .rx) h]
    rcases popStep .rx stage s with e | ⟨o, t⟩
    · rfl
    · cases o <;> simp
  | push r b stage =>
    simp only [taskStep, directPushStep, pushStep_setRing_other (r := r) h]
    rcases pushStep r b stage s with e | ⟨o, t⟩
    · rfl
    · cases o <;> simp
  | pop r stage =>
    simp only [taskStep, directPopStep, popStep_setRing_other (r := r) h]
    rcases popStep r stage s with e | ⟨o, t⟩
    · rfl
    · cases o <;> simp
  | onTxReady free sent stage =>
    cases q with
    | tx => exact absurd rfl h
    | rx =>
      cases stage with
      | x1 =>
        simp only [taskStep, onTxReadyStep, disarmTx_setRing_rx, txSeenEmpty_setRing_rx]
        cases txSeenEmpty s with
        | true => rfl
        | false => by_cases hf : sent = free <;> simp [hf]
      | x3 p =>
        simp only [taskStep, onTxReadyStep, popStep_setRing_other (r := .tx) h]
        rcases popStep .tx p s with e | ⟨o, t⟩
        · rfl
        · cases o <;> rfl
      | x3w b => simp only [taskStep, onTxReadyStep, callTxWrite_commutesRing .rx b s x, answerWithRing_ok]
      | _ => rfl
  | onRxReady n i stage =>
    cases q with
    | rx => exact absurd rfl h
    | tx =>
      cases stage with
      | y2 =>
        simp only [taskStep, onRxReadyStep, callRxRead_commutesRing .tx s x, answerWithRing_ok]
        rfl
      | y3 b p =>
        simp only [taskStep, onRxReadyStep, pushStep_setRing_other (r := .rx) h]
        rcases pushStep .rx b p s with e | ⟨o, t⟩
        · rfl
        · cases o <;> rfl
      | _ => rfl

/-! ## Runs and commands -/

/-- So does a run of micro-steps of a sequencer whose operation works on another ring. -/
theorem runSeq_setRing_other {d : Side} {q : RingId} (n : Nat) (s : State) (x : Ring)
    (h : ∀ task, s.seq d = .busy task → task.ring ≠ q) :
    runSeq d n (s.setRing q x) = (runSeq d n s).map (·.setRing q x) := by
  induction n generalizing s with
  | zero => rfl
  | succ n ih =>
    cases hs : s.seq d with
    | idle => rw [runSeq_idle d _ s hs, runSeq_idle d _ (s.setRing q x) (by simpa using hs)]; rfl
    | busy task =>
      have hring : task.ring ≠ q := h task hs
      simp only [runSeq, microStep, State.setRing_seq, hs, taskStep_setRing_other hring]
      rcases hu : taskStep task s with e | ⟨c, u⟩
      · rfl
      · simp only [answerWithRing_ok, State.setRing_setSeq]
        refine ih _ fun task' hq => ?_
        rw [(taskStep_runs hu task' (by simpa using hq)).2]
        exact hring

theorem outcome_map_setRing (q : RingId) (x : Ring) (e : Except Fault State) :
    outcome (e.map (·.setRing q x)) = withRing q x (outcome e) := by
  cases e <;> rfl

theorem launch_setRing_other {k : Task} {q : RingId} (h : k.ring ≠ q) (n : Nat) (s : State) (x : Ring) :
    launch k n (s.setRing q x) = withRing q x (launch k n s) := by
  simp only [launch, State.setRing_issue, State.setRing_setSeq]
  split
  case h_1 => rfl
  case h_2 =>
    rw [runSeq_setRing_other, outcome_map_setRing]
    intro task hq
    cases (State.setSeq_seq_same s _ _).symm.trans hq
    exact h

/-- The check reads no ring. -/
theorem guarded_setRing {i : Instr} {q : RingId} {s : State} {x : Ring}
    {run run' : State → Host.Outcome State Fault Refusal} (h : run' (s.setRing q x) = withRing q x (run s)) :
    guarded i (s.setRing q x) run' = withRing q x (guarded i s run) := by
  have hpermitted : permitted i (s.setRing q x) = permitted i s := by simp [permitted]
  have hready : ∀ a, ready a (s.setRing q x) = ready a s := fun a => by cases a <;> simp [ready]
  simp only [guarded, hpermitted, hready, State.setRing_issue, State.setRing_ret, h]
  cases permitted i s with
  | false => rfl
  | true => cases ready s.issue.agent s <;> rfl

/-- A command that launches an operation of one ring, at any grain, does nothing with the other. -/
theorem guarded_launch_setRing_other {i : Instr} {k : Task} {q : RingId} (h : k.ring ≠ q) (n : Nat) (s : State)
    (x : Ring) : guarded i (s.setRing q x) (launch k n) = withRing q x (guarded i s (launch k n)) :=
  guarded_setRing (launch_setRing_other h n s x)

/-- A length query reads its own ring alone. -/
theorem callerLen_setRing_other {r q : RingId} (h : r ≠ q) (a : Agent) (s : State) (x : Ring) :
    callerLen r a (s.setRing q x) = callerLen r a s := by
  simp only [callerLen, producerLen, consumerLen, State.setRing_cap, State.setRing_ring_other s q r x h]

/-- The operations on the RING port use one ring. -/
theorem exec_ring_setRing_other {r q : RingId} (h : r ≠ q) (s : State) (x : Ring) :
    (∀ b, exec (.push r b) (s.setRing q x) = withRing q x (exec (.push r b) s)) ∧
    exec (.pop r) (s.setRing q x) = withRing q x (exec (.pop r) s) ∧
    exec (.len r) (s.setRing q x) = withRing q x (exec (.len r) s) ∧
    exec (.isEmpty r) (s.setRing q x) = withRing q x (exec (.isEmpty r) s) ∧
    exec (.isFull r) (s.setRing q x) = withRing q x (exec (.isFull r) s) := by
  have query : ∀ i v v', v' = v →
      guarded i (s.setRing q x) (answer .ok v') = withRing q x (guarded i s (answer .ok v)) := by
    rintro i v _ rfl
    refine guarded_setRing ?_
    simp [answer, withRing]
  refine ⟨fun b => guarded_launch_setRing_other (k := .push r b .p1) h 3 s x,
    guarded_launch_setRing_other (k := .pop r .c1) h 3 s x, query _ _ _ ?_, query _ _ _ ?_, query _ _ _ ?_⟩ <;>
  simp only [callerLen_setRing_other h, State.setRing_issue, State.setRing_cap]

/-- Settles O49: no micro-step of an operation of one ring reads or writes the other, and no check and no query does. -/
theorem ringsAreIndependent : Obligations.RingsAreIndependent := by
  intro s x
  obtain ⟨pushRx, popRx, lenRx, emptyRx, fullRx⟩ := exec_ring_setRing_other (r := .rx) (q := .tx) (by simp) s x
  obtain ⟨pushTx, popTx, lenTx, emptyTx, fullTx⟩ := exec_ring_setRing_other (r := .tx) (q := .rx) (by simp) s x
  constructor
  · rintro i (hi | ⟨b, rfl⟩)
    · have driver : ∀ j k n, k.ring = .rx →
          guarded j (s.setRing .tx x) (launch k n) = withRing .tx x (guarded j s (launch k n)) :=
        fun j k n hk => guarded_launch_setRing_other (by simp [hk]) n s x
      simp only [List.mem_cons, List.not_mem_nil, or_false] at hi
      rcases hi with rfl | rfl | rfl | rfl | rfl | rfl | rfl
      · exact driver _ (.tryReceive .c1) _ rfl
      · exact driver _ (.drainReceived [] .c1) _ rfl
      · exact driver _ (handlerTask .rxReady) _ rfl
      · exact popRx
      · exact lenRx
      · exact emptyRx
      · exact fullRx
    · exact pushRx b
  · have driver : ∀ j k n, k.ring = .tx →
        guarded j (s.setRing .rx x) (launch k n) = withRing .rx x (guarded j s (launch k n)) :=
      fun j k n hk => guarded_launch_setRing_other (by simp [hk]) n s x
    rintro i (hi | ⟨b, rfl⟩ | ⟨bytes, rfl⟩)
    · simp only [List.mem_cons, List.not_mem_nil, or_false] at hi
      rcases hi with rfl | rfl | rfl | rfl | rfl
      · exact driver _ (handlerTask .txReady) _ rfl
      · exact popTx
      · exact lenTx
      · exact emptyTx
      · exact fullTx
    · exact pushTx b
    · exact driver _ (submitRound bytes 0) _ rfl

end Sys2Proof.Machine
end

section
/-! The ring operations and the foreground operations run as a whole, in closed form (40 R124, R127; 41 R140, R145,
R147). -/

namespace Sys2Proof.Machine

/-! ## A whole run and its end -/

/-- A command whose run ends with its sequencer idle, as it was before, leaves the state around that sequencer. -/
theorem guarded_launch_ends {i : Instr} {s u : State} (hm : MayRunWhole i s) {k : Task} {n : Nat}
    (hidle : u.seq (taskSide k) = .idle)
    (hrun : runSeq (taskSide k) n (s.setSeq (taskSide k) (.busy k)) = .ok (u.setSeq (taskSide k) .idle)) :
    guarded i s (launch k n) = .next u := by
  rw [guarded_launch_run hm, hrun, setSeq_idle hidle]; rfl

theorem guarded_launch_faults {i : Instr} {s : State} {e : Fault} (hm : MayRunWhole i s) {k : Task} {n : Nat}
    (hrun : runSeq (taskSide k) n (s.setSeq (taskSide k) (.busy k)) = .error e) :
    guarded i s (launch k n) = .fault e := by
  rw [guarded_launch_run hm, hrun]; rfl

/-- A run whose first micro-step faults is that fault. -/
theorem runSeq_fault {d : Side} {n : Nat} {t : Task} {s : State} {e : Fault} (h : taskStep t s = .error e) :
    runSeq d (n + 1) (s.setSeq d (.busy t)) = .error e := by
  rw [runSeq_busy, h]

/-! ## PUSH and POP -/

theorem memWrite_noCell {r : RingId} {i : Nat} {s : State} (h : s.cap r ≤ i) (b : Byte) :
    memWrite r i b s = .error (.noSuchCell r i) :=
  if_neg (Nat.not_lt.mpr h)

theorem memRead_noCell {r : RingId} {i : Nat} {s : State} (h : s.cap r ≤ i) :
    memRead r i s = .error (.noSuchCell r i) :=
  if_neg (Nat.not_lt.mpr h)

/-- A PUSH into a ring that its producer sees full is rejected. -/
theorem exec_push_full {r : RingId} {b : Byte} {s : State} (hm : MayRunWhole (.push r b) s)
    (hf : inc (s.cap r) (s.ring r).writeIndex = (s.ring r).rdSeen) :
    exec (.push r b) s = .next (s.ret (producer r) .overflow .none) := by
  refine guarded_launch_ends hm (by simpa using push_seq_idle hm.1 .p1) ?_
  rw [runSeq_step _ 2 (by simp only [taskStep, directPushStep, pushStep_full r b s hf]; rfl), runSeq_setSeq_idle]

/-- A PUSH whose cell does not exist faults (log 14). -/
theorem exec_push_noCell {r : RingId} {b : Byte} {s : State} (hm : MayRunWhole (.push r b) s)
    (hf : inc (s.cap r) (s.ring r).writeIndex ≠ (s.ring r).rdSeen) (hw : s.cap r ≤ (s.ring r).writeIndex) :
    exec (.push r b) s = .fault (.noSuchCell r (s.ring r).writeIndex) := by
  refine guarded_launch_faults hm ?_
  rw [runSeq_step _ 2 (by simp only [taskStep, directPushStep, pushStep, if_neg hf]; rfl)]
  exact runSeq_fault (by simp only [taskStep, directPushStep, pushStep, memWrite_noCell hw])

/-- A POP of a ring that its consumer sees empty returns EMPTY. -/
theorem exec_pop_empty {r : RingId} {s : State} (hm : MayRunWhole (.pop r) s)
    (he : (s.ring r).wrSeen = (s.ring r).readIndex) :
    exec (.pop r) s = .next (s.ret (consumer r) .empty .none) := by
  refine guarded_launch_ends hm (by simpa using pop_seq_idle hm.1 .c1) ?_
  rw [runSeq_step _ 2 (by simp only [taskStep, directPopStep, popStep_empty r s he]; rfl), runSeq_setSeq_idle]

/-- A POP of a cell that nothing has written returns a free value (20 R63, log 2). -/
theorem exec_pop_unwritten {r : RingId} {s : State} (hm : MayRunWhole (.pop r) s)
    (hr : (s.ring r).readIndex < s.cap r) (hne : (s.ring r).wrSeen ≠ (s.ring r).readIndex)
    (hb : s.cell r (s.ring r).readIndex = none) :
    exec (.pop r) s =
      .next (((s.setRing r (ringConsumed (s.cap r) s.cfg.syncLag 1 (s.ring r))).setFreeCount (s.freeCount + 1)).ret
        (consumer r) .ok (.byte (Config.freeByte s.freeCount))) := by
  have hread : memRead r (s.ring r).readIndex s =
      .ok (Config.freeByte s.freeCount, s.setFreeCount (s.freeCount + 1)) := by simp [memRead, hr, hb]
  have hrelease : setReadIndex r (inc (s.cap r) (s.ring r).readIndex) (s.setFreeCount (s.freeCount + 1)) =
      (s.setRing r (ringConsumed (s.cap r) s.cfg.syncLag 1 (s.ring r))).setFreeCount (s.freeCount + 1) := by
    rw [setReadIndex_eq, ringConsumed_one_eq_release]; cases r <;> rfl
  refine guarded_launch_ends hm (by simpa using pop_seq_idle hm.1 .c1) ?_
  rw [runSeq_step _ 2 (by simp only [taskStep, directPopStep, popStep, if_neg hne]; rfl),
    runSeq_step _ 1 (by simp only [taskStep, directPopStep, popStep, hread]; rfl),
    runSeq_step _ 0 (by simp only [taskStep, directPopStep, popStep, State.setFreeCount_cap, hrelease]; rfl)]
  rfl

/-- A POP whose cell does not exist faults (log 14). -/
theorem exec_pop_noCell {r : RingId} {s : State} (hm : MayRunWhole (.pop r) s)
    (hne : (s.ring r).wrSeen ≠ (s.ring r).readIndex) (hr : s.cap r ≤ (s.ring r).readIndex) :
    exec (.pop r) s = .fault (.noSuchCell r (s.ring r).readIndex) := by
  refine guarded_launch_faults hm ?_
  rw [runSeq_step _ 2 (by simp only [taskStep, directPopStep, popStep, if_neg hne]; rfl)]
  exact runSeq_fault (by simp only [taskStep, directPopStep, popStep, memRead_noCell hr])

/-! ## The foreground operations -/

/-- A foreground operation runs only while both sequencers are idle. -/
theorem MayRunWhole.app_idle {i : Instr} {s : State} (h : MayRunWhole i s) (hi : i.mnemonic.port = .app) :
    s.seq .fg = .idle := by
  obtain ⟨hidle, -⟩ := MayRun.app_idle h.1 hi
  exact hidle

theorem armTx_seq (s : State) (d : Side) : (armTx s).seq d = s.seq d := by
  unfold armTx
  split <;> simp [setTxInterrupt]

/-- SUBMIT stores the first bytes, as many as fit, arms if there is one, and returns its length (41 R140 to R142). -/
theorem exec_submit_whole {bytes : List Byte} {s : State} (hi : StateInv s) (hm : MayRunWhole (.submit bytes) s) :
    let bs := bytes.take (roomSeen .tx s)
    let t := s.setRing .tx (ringStored s.cfg.txCap s.cfg.syncLag bs s.tx)
    exec (.submit bytes) s = .next ((if bs = [] then t else armTx t).ret .fg .ok (.nat bs.length)) := by
  intro bs t
  have harm : (if 1 ≤ 0 + bs.length then armTx t else t) = if bs = [] then t else armTx t := by
    cases bs <;> simp
  have hidle : t.seq .fg = .idle := hm.app_idle rfl
  refine guarded_launch_ends hm ?_ ?_
  · change (if bs = [] then t else armTx t).seq .fg = .idle
    split
    · exact hidle
    · exact (armTx_seq t .fg).trans hidle
  · have hrun := runSeq_submit bytes bytes.length 0 s (3 * bytes.length + 1) (Nat.zero_add _) le_rfl (hi.cap_ge .tx)
      hi.tx.inRange
    rw [List.drop_zero] at hrun
    refine hrun.trans ?_
    rw [harm, Nat.zero_add]
    rfl

/-- TRY_RECEIVE from a ring that FG sees empty returns EMPTY (41 R145). -/
theorem exec_tryReceive_empty {s : State} (hm : MayRunWhole .tryReceive s) (he : s.rx.wrSeen = s.rx.readIndex) :
    exec .tryReceive s = .next (s.ret .fg .empty .none) := by
  refine guarded_launch_ends hm (hm.app_idle rfl) ?_
  rw [runSeq_step _ 2 (by simp only [taskStep, tryReceiveStep, popStep_empty .rx s he]; rfl), runSeq_setSeq_idle]

/-- TRY_RECEIVE from a ring with a byte in its next cell returns that byte and releases the cell (41 R145). -/
theorem exec_tryReceive_taken {b : Byte} {s : State} (hm : MayRunWhole .tryReceive s)
    (hr : s.rx.readIndex < s.cfg.rxCap) (hne : s.rx.wrSeen ≠ s.rx.readIndex)
    (hb : s.cell .rx s.rx.readIndex = some b) :
    exec .tryReceive s =
      .next ((s.setRing .rx (ringConsumed s.cfg.rxCap s.cfg.syncLag 1 s.rx)).ret .fg .ok (.byte b)) := by
  obtain ⟨l, e1, e2, e3⟩ := popStep_take .rx s b hr hne hb
  refine guarded_launch_ends hm (hm.app_idle rfl) ?_
  rw [runSeq_step _ 2 (by simp only [taskStep, tryReceiveStep, e1]; rfl),
    runSeq_step _ 1 (by simp only [taskStep, tryReceiveStep, e2]; rfl),
    runSeq_step _ 0 (by simp only [taskStep, tryReceiveStep, e3]; rfl)]
  rfl

/-- The consumer sees fewer bytes than the ring has cells. -/
theorem StateInv.consumerLen_lt_cap {s : State} (h : StateInv s) (r : RingId) : consumerLen r s < s.cap r :=
  dist_lt _ _ _ (Nat.lt_of_lt_of_le Nat.zero_lt_two (h.cap_ge r))

/-- DRAIN_RECEIVED returns all the bytes that FG sees, and releases their cells (41 R147). -/
theorem exec_drainReceived_whole {s : State} (hi : StateInv s) (hm : MayRunWhole .drainReceived s) :
    ∃ bs : List Byte, bs.map some = cellsFromRead .rx (consumerLen .rx s) s ∧
      exec .drainReceived s =
        .next ((s.setRing .rx (ringConsumed s.cfg.rxCap s.cfg.syncLag bs.length s.rx)).ret .fg .ok (.bytes bs)) := by
  obtain ⟨bs, hbs⟩ := cellsFromRead_written .rx hi
  have hlen : bs.length = consumerLen .rx s := by simpa [cellsFromRead] using congrArg List.length hbs
  have hfuel : 3 * consumerLen .rx s + 1 ≤ 3 * s.cfg.rxCap + 1 := by
    have := hi.consumerLen_lt_cap .rx
    simp only [State.cap_rx] at this
    omega
  refine ⟨bs, hbs, guarded_launch_ends hm (hm.app_idle rfl) ?_⟩
  refine (runSeq_drain _ [] bs s _ hfuel rfl hi.rx.inRange hbs).trans ?_
  rw [hlen, List.nil_append]
  rfl

end Sys2Proof.Machine
end

section
/-! The interrupt operations run as a whole, in closed form (42 R160, R174). -/

namespace Sys2Proof.Machine

/-- ON_TX_READY: it asks for the budget, moves as many bytes as the ring and the budget allow, disarms if that empties
the ring, and acknowledges (42 R160 to R165). -/
theorem exec_onTxReady_whole {s : State} (hi : StateInv s) (hm : MayRunWhole .onTxReady s) :
    let f := freeAnswer s
    let N := consumerLen .tx s
    ∃ bs : List Byte, bs.map some = cellsFromRead .tx (min N f) s ∧
      exec .onTxReady s = .next
        { s with
          tx := ringConsumed s.cfg.txCap s.cfg.syncLag bs.length s.tx
          txArmed := if N ≤ f then false else s.txArmed
          plat := { s.plat with
            freeReports := s.plat.freeReports.tail
            txFifo := s.plat.txFifo ++ bs.take (s.cfg.fifoTxCap - s.plat.txFifo.length)
            txFlag := false }
          trace := s.trace ++ [.freeSlots f] ++ bs.map .write ++ (if N ≤ f then [.setEnabled false] else []) ++
            [.clearTxFlag]
          results := s.results ++ [⟨.isrTx, .ok, .none⟩] } := by
  intro f N
  obtain ⟨all, hall⟩ := cellsFromRead_written .tx hi
  have hbs : (all.take (min N f)).map some = cellsFromRead .tx (min N f) s := by
    rw [List.map_take, hall, ← cellsFromRead_take .tx _ _ s (Nat.min_le_left N f)]
  have hfuel : 5 * min N f + 3 ≤ 5 * s.cfg.txCap + 3 := by
    have : N < s.cfg.txCap := hi.consumerLen_lt_cap .tx
    omega
  refine ⟨all.take (min N f), hbs, guarded_launch_ends hm (onTxReady_isr_idle hm.1) ?_⟩
  change runSeq .isr _ _ = .ok (State.setSeq _ .isr .idle)
  generalize all.take (min N f) = bs at hbs
  have hstart : taskStep (handlerTask .txReady) s = .ok (.busy (.onTxReady f 0 .x1), callFreeSlots s) := rfl
  refine (runSeq_step .isr _ hstart).trans ?_
  refine (runSeq_txDrain (min N f) f 0 bs (callFreeSlots s) _ hfuel hi.tx.inRange (Nat.zero_le f) rfl hbs).trans ?_
  have hN : consumerLen .tx (callFreeSlots s) = N := rfl
  rw [hN, Nat.sub_zero]
  by_cases hle : N ≤ f <;>
    simp [f, hle, txSent, callClearTxFlag, callFreeSlots, setTxInterrupt, State.setSeq, State.setArmed, State.setPlat,
      State.emit, State.ret]

/-- ON_RX_READY: it asks for the occupancy, reads as many bytes, stores those that fit, counts the rest, and acknowledges
(42 R174 to R178). -/
theorem exec_onRxReady_whole {s : State} (hi : StateInv s) (hm : MayRunWhole .onRxReady s) :
    let n := occAnswer s
    let f := roomSeen .rx s
    let bs := readBytes n s
    exec .onRxReady s = .next
      { s with
        rx := ringStored s.cfg.rxCap s.cfg.syncLag (bs.take f) s.rx
        overrun := min (s.overrun + (n - f)) s.cfg.overrunMax
        plat := { s.plat with
          occReports := s.plat.occReports.tail
          rxFifo := s.plat.rxFifo.drop n
          rxOvfFlag := false
          rxFlag := false }
        trace := s.trace ++ [.occupancy n] ++ bs.map .read ++ [.clearRxOvf, .clearRxFlag]
        results := s.results ++ [⟨.isrRx, .ok, .none⟩]
        freeCount := s.freeCount + (n - s.plat.rxFifo.length) } := by
  intro n f bs
  refine guarded_launch_ends hm (onRxReady_isr_idle hm.1) ?_
  change runSeq .isr _ _ = .ok (State.setSeq _ .isr .idle)
  have hstart : taskStep (handlerTask .rxReady) s = .ok (.busy (rxRound n 0), callOccupancy s) := rfl
  refine (runSeq_step .isr _ hstart).trans ?_
  refine (runSeq_rxFill n n 0 (callOccupancy s) _ le_rfl (Nat.zero_add n) (hi.cap_ge .rx) hi.rx.inRange
    hi.overrun).trans ?_
  have hroom : roomSeen .rx (callOccupancy s) = f := rfl
  have hread : readBytes n (callOccupancy s) = bs := rfl
  simp only [rxTaken, hroom, hread]
  simp [n, callClearRxFlag, callClearRxOvf, callOccupancy, State.setSeq, State.setPlat, State.emit, State.ret]

end Sys2Proof.Machine
end

section
/-! What the operations run as a whole leave unchanged (60 R245; 20 R60 to R63). -/

namespace Sys2Proof.Machine

/-! ## What storing and consuming leave of a ring -/

/-- From `x` to `y` only the consumer's registers may differ: `read_index` and its view copy. -/
structure Ring.SameProducer (x y : Ring) : Prop where
  writeIndex : y.writeIndex = x.writeIndex
  wrSeen : y.wrSeen = x.wrSeen
  storage : y.storage = x.storage

/-- From `x` to `y` only the producer's registers and the cells of `w` may differ. -/
structure Ring.SameConsumer (w : Nat → Prop) (x y : Ring) : Prop where
  readIndex : y.readIndex = x.readIndex
  rdSeen : y.rdSeen = x.rdSeen
  cells : ∀ a, ¬ w a → y.storage.read a = x.storage.read a

theorem Ring.SameProducer.refl (x : Ring) : x.SameProducer x := ⟨rfl, rfl, rfl⟩

theorem Ring.SameConsumer.refl (w : Nat → Prop) (x : Ring) : x.SameConsumer w x := ⟨rfl, rfl, fun _ _ => rfl⟩

theorem ringConsumed_sameProducer (cap : Nat) (lag : Bool) (n : Nat) (x : Ring) :
    x.SameProducer (ringConsumed cap lag n x) := ⟨rfl, rfl, rfl⟩

/-- The cells that `n` bytes stored from `i` on go to (40 R125). -/
def storedCells (cap i n a : Nat) : Prop := ∃ j < n, a = (i + j) % cap

/-- A run of writes leaves every cell that it does not come by. -/
theorem writeRun_read_other {cap : Nat} (bs : List Byte) {i : Nat} (m : Memory) (hi : i < cap) {a : Nat}
    (ha : ¬ storedCells cap i bs.length a) : (writeRun cap i bs m).read a = m.read a := by
  induction bs generalizing i m with
  | nil => rfl
  | cons b bs ih =>
    have hfirst : a ≠ i := by
      rintro rfl
      exact ha ⟨0, Nat.succ_pos _, by rw [Nat.add_zero, Nat.mod_eq_of_lt hi]⟩
    have hrest : ¬ storedCells cap (inc cap i) bs.length a := by
      rintro ⟨j, hj, rfl⟩
      refine ha ⟨j + 1, Nat.succ_lt_succ hj, ?_⟩
      rw [inc, Nat.mod_add_mod]
      congr 1
      omega
    rw [writeRun, ih _ (inc_lt cap i hi) hrest, Memory.read_write_other m i a b hfirst]

theorem ringStored_sameConsumer {cap : Nat} (lag : Bool) (bs : List Byte) {x : Ring} (h : x.writeIndex < cap) :
    x.SameConsumer (storedCells cap x.writeIndex bs.length) (ringStored cap lag bs x) :=
  ⟨rfl, rfl, fun _ ha => writeRun_read_other bs x.storage h ha⟩

/-! ## The results -/

def State.setResults (s : State) (l : List Returned) : State := { s with results := l }

@[simp] theorem State.setResults_ring (s : State) (l : List Returned) (r : RingId) :
    (s.setResults l).ring r = s.ring r := by cases r <;> rfl

@[simp] theorem State.setResults_cell (s : State) (l : List Returned) (r : RingId) (i : Nat) :
    (s.setResults l).cell r i = s.cell r i := by cases r <;> rfl

/-- Every command but a payload word runs, or changes nothing but the results. -/
theorem exec_next_cases {i : Instr} {s t : State} (hb : ∀ b, i ≠ .submitPayload b) (h : exec i s = .next t) :
    MayRun i s ∨ ∃ l, t = s.setResults l := by
  obtain ⟨run, hrun⟩ := exec_guarded i s hb
  rw [hrun] at h
  rcases guarded_cases i s run with ⟨hm, -⟩ | ⟨-, e⟩ | ⟨-, e⟩
  · exact .inl hm
  · rw [e] at h; cases h; exact .inr ⟨s.results, rfl⟩
  · rw [e] at h; cases h; exact .inr ⟨_, rfl⟩

/-! ## PUSH and POP -/

/-- A state with one ring, the free-value counter and the results replaced: all that a whole PUSH or POP changes. -/
def withRingOp (r : RingId) (y : Ring) (n : Nat) (l : List Returned) (s : State) : State :=
  ((s.setRing r y).setFreeCount n).setResults l

theorem withRingOp_self (r : RingId) (l : List Returned) (s : State) :
    withRingOp r (s.ring r) s.freeCount l s = s.setResults l := by
  rw [withRingOp, State.setRing_self]; rfl

theorem withRingOp_ring_other {r q : RingId} (h : q ≠ r) (y : Ring) (n : Nat) (l : List Returned) (s : State) :
    (withRingOp r y n l s).ring q = s.ring q := by
  simp [withRingOp, State.setRing_ring_other s r q y h]

theorem withRingOp_ret (r : RingId) (y : Ring) (s : State) (a : Agent) (st : Status) (v : Value) :
    (s.setRing r y).ret a st v = withRingOp r y s.freeCount (s.results ++ [⟨a, st, v⟩]) s := by
  cases r <;> rfl

theorem withRingOp_onlyRing (r : RingId) (y : Ring) (n : Nat) (l : List Returned) (s : State) :
    OnlyRing r (s.setResults l) (withRingOp r y n l s) := by
  have hother : ∀ q, q ≠ r → (withRingOp r y n l s).ring q = (s.setResults l).ring q := fun q hq => by
    rw [withRingOp_ring_other hq, State.setResults_ring]
  cases r <;> exact ⟨rfl, hother, rfl, rfl, rfl, rfl, rfl, rfl, rfl, rfl, rfl, rfl, rfl⟩

@[simp] theorem withRingOp_ring_same (r : RingId) (y : Ring) (n : Nat) (l : List Returned) (s : State) :
    (withRingOp r y n l s).ring r = y := by simp [withRingOp]

/-- A whole PUSH that answers changes its ring, as its producer may, and the results. -/
theorem exec_push_next {r : RingId} {b : Byte} {s t : State} (hg : s.issue.grain = .whole)
    (h : exec (.push r b) s = .next t) :
    ∃ y l, t = withRingOp r y s.freeCount l s ∧ (s.ring r).SameConsumer (· = (s.ring r).writeIndex) y := by
  rcases exec_next_cases (by simp) h with hm | ⟨l, rfl⟩
  · by_cases hf : inc (s.cap r) (s.ring r).writeIndex = (s.ring r).rdSeen
    · rw [exec_push_full ⟨hm, hg⟩ hf] at h
      cases h
      exact ⟨_, _, (withRingOp_self r _ s).symm, .refl _ _⟩
    · by_cases hw : (s.ring r).writeIndex < s.cap r
      · rw [exec_push_accepted ⟨hm, hg⟩ hw hf] at h
        cases h
        refine ⟨_, _, withRingOp_ret r _ s _ _ _, ?_⟩
        rw [ringStored_one]
        exact ⟨rfl, rfl, fun a ha => Memory.read_write_other _ _ a b ha⟩
      · rw [exec_push_noCell ⟨hm, hg⟩ hf (Nat.le_of_not_lt hw)] at h
        cases h
  · exact ⟨_, _, (withRingOp_self r l s).symm, .refl _ _⟩

/-- A whole POP that answers changes its ring, as its consumer may, the free-value counter and the results. -/
theorem exec_pop_next {r : RingId} {s t : State} (hg : s.issue.grain = .whole) (h : exec (.pop r) s = .next t) :
    ∃ y n l, t = withRingOp r y n l s ∧ (s.ring r).SameProducer y := by
  rcases exec_next_cases (by simp) h with hm | ⟨l, rfl⟩
  · by_cases he : (s.ring r).wrSeen = (s.ring r).readIndex
    · rw [exec_pop_empty ⟨hm, hg⟩ he] at h
      cases h
      exact ⟨_, _, _, (withRingOp_self r _ s).symm, .refl _⟩
    · by_cases hr : (s.ring r).readIndex < s.cap r
      · have hkept := ringConsumed_sameProducer (s.cap r) s.cfg.syncLag 1 (s.ring r)
        cases hc : s.cell r (s.ring r).readIndex with
        | some b =>
          rw [exec_pop_taken ⟨hm, hg⟩ hr he hc] at h
          cases h
          exact ⟨_, _, _, withRingOp_ret r _ s _ _ _, hkept⟩
        | none =>
          rw [exec_pop_unwritten ⟨hm, hg⟩ hr he hc] at h
          cases h
          exact ⟨_, _, _, rfl, hkept⟩
      · rw [exec_pop_noCell ⟨hm, hg⟩ he (Nat.le_of_not_lt hr)] at h
        cases h
  · exact ⟨_, _, _, (withRingOp_self r l s).symm, .refl _⟩

/-- Both: what one of them leaves of its ring. -/
theorem exec_pushOrPop_next {i : Instr} {r : RingId} {s t : State} (hi : i = .pop r ∨ ∃ b, i = .push r b)
    (hg : s.issue.grain = .whole) (h : exec i s = .next t) :
    ∃ y n l, t = withRingOp r y n l s ∧ (i = .pop r → (s.ring r).SameProducer y) ∧
      ((∃ b, i = .push r b) → (s.ring r).SameConsumer (· = (s.ring r).writeIndex) y ∧ n = s.freeCount) := by
  rcases hi with rfl | ⟨b, rfl⟩
  · obtain ⟨y, n, l, ht, hy⟩ := exec_pop_next hg h
    exact ⟨y, n, l, ht, fun _ => hy, fun ⟨b, hb⟩ => by cases hb⟩
  · obtain ⟨y, l, ht, hy⟩ := exec_push_next hg h
    exact ⟨y, s.freeCount, l, ht, fun hb => (by cases hb), fun _ => ⟨hy, rfl⟩⟩

/-- Settles O57: both change their ring as their side of it may, and PUSH writes at most the cell at `write_index`. -/
theorem pushAndPopFrame : Obligations.PushAndPopFrame := by
  intro i r s t hi hg h
  obtain ⟨y, n, l, rfl, hpop, hpush⟩ := exec_pushOrPop_next hi hg h
  have hcell : ∀ q a, (q = r → y.storage.read a = (s.ring r).storage.read a) →
      (withRingOp r y n l s).cell q a = s.cell q a := fun q a hsame => by
    by_cases hq : q = r
    · subst hq; simpa [State.cell] using hsame rfl
    · simp only [State.cell, withRingOp_ring_other hq]
  have ho := withRingOp_onlyRing r y n l s
  refine ⟨fun q hq => withRingOp_ring_other hq y n l s, ho.armed, ho.armReq, ho.overrun, ho.fgSeq, ho.isrSeq, ho.plat,
    ho.trace, ho.ports, ho.turns, ho.issue, ho.cfg, fun hi => ?_, fun hi => ?_⟩
  · obtain ⟨hwrite, hview, hstorage⟩ := hpop hi
    exact ⟨by simpa using hwrite, by simpa using hview, fun q a => hcell q a fun _ => by rw [hstorage]⟩
  · obtain ⟨⟨hread, hview, hcells⟩, rfl⟩ := hpush hi
    exact ⟨by simpa using hread, by simpa using hview, rfl, fun q a hne => hcell q a fun hq => hcells a fun ha =>
      hne ⟨hq, ha⟩⟩

end Sys2Proof.Machine
end

section
/-! What the foreground operations and the handlers, run as a whole, leave unchanged (60 R245). -/

namespace Sys2Proof.Machine

/-! ## Cells -/

/-- Equal storages have equal cells. -/
theorem cell_congr {s t : State} (hr : t.rx.storage = s.rx.storage) (ht : t.tx.storage = s.tx.storage) (q : RingId)
    (a : Nat) : t.cell q a = s.cell q a := by
  cases q with
  | rx => exact congrArg (Memory.read · a) hr
  | tx => exact congrArg (Memory.read · a) ht

/-! ## The foreground operations -/

theorem armTx_eq (s : State) : ∃ a q tr, armTx s = { s with txArmed := a, txArmReq := q, trace := tr } := by
  unfold armTx
  split
  · exact ⟨_, _, _, rfl⟩
  · exact ⟨_, _, _, rfl⟩

/-- A whole SUBMIT that answers changes the TX ring, as its producer may, in at most the cells that the bytes that fit go
to; the armed flag and its request; the trace and the results. -/
theorem exec_submit_next {bytes : List Byte} {s t : State} (hi : StateInv s) (hg : s.issue.grain = .whole)
    (h : exec (.submit bytes) s = .next t) :
    ∃ y a q tr l, t = { s with tx := y, txArmed := a, txArmReq := q, trace := tr, results := l } ∧
      s.tx.SameConsumer (storedCells s.cfg.txCap s.tx.writeIndex (min bytes.length (roomSeen .tx s))) y := by
  rcases exec_next_cases (by simp) h with hm | ⟨l, rfl⟩
  · rw [exec_submit_whole hi ⟨hm, hg⟩] at h
    cases h
    obtain ⟨-, hw, -, -⟩ := hi.tx.inRange
    have hkept := ringStored_sameConsumer s.cfg.syncLag (bytes.take (roomSeen .tx s)) hw
    rw [List.length_take, Nat.min_comm] at hkept
    split
    · exact ⟨_, _, _, _, _, rfl, hkept⟩
    · obtain ⟨a, q, tr, harm⟩ :=
        armTx_eq (s.setRing .tx (ringStored s.cfg.txCap s.cfg.syncLag (bytes.take (roomSeen .tx s)) s.tx))
      rw [harm]
      exact ⟨_, _, _, _, _, rfl, hkept⟩
  · exact ⟨_, _, _, _, l, rfl, .refl _ _⟩

/-- A whole TRY_RECEIVE or DRAIN_RECEIVED that answers changes the RX ring, as its consumer may, and the results. -/
theorem exec_receive_next {i : Instr} {s t : State} (hi : StateInv s) (hr : i = .tryReceive ∨ i = .drainReceived)
    (hg : s.issue.grain = .whole) (h : exec i s = .next t) :
    ∃ y l, t = { s with rx := y, results := l } ∧ s.rx.SameProducer y := by
  have hkept := fun n => ringConsumed_sameProducer s.cfg.rxCap s.cfg.syncLag n s.rx
  rcases exec_next_cases (by rcases hr with rfl | rfl <;> simp) h with hm | ⟨l, rfl⟩
  · rcases hr with rfl | rfl
    · by_cases he : s.rx.wrSeen = s.rx.readIndex
      · rw [exec_tryReceive_empty ⟨hm, hg⟩ he] at h
        cases h
        exact ⟨s.rx, _, rfl, .refl _⟩
      · obtain ⟨b, hb⟩ := hi.rx.head_written he
        rw [exec_tryReceive_taken ⟨hm, hg⟩ hi.rx.inRange.1 he hb] at h
        cases h
        exact ⟨_, _, rfl, hkept 1⟩
    · obtain ⟨bs, -, hwhole⟩ := exec_drainReceived_whole hi ⟨hm, hg⟩
      rw [hwhole] at h
      cases h
      exact ⟨_, _, rfl, hkept bs.length⟩
  · exact ⟨s.rx, l, rfl, .refl _⟩

/-- Settles O59: SUBMIT changes the TX ring as its producer may, the receiving operations the RX ring as its consumer
may. -/
theorem foregroundFrame : Obligations.ForegroundFrame := by
  intro i s t hi hinv hg h
  rw [← or_assoc] at hi
  rcases hi with hrecv | ⟨bytes, rfl⟩
  · obtain ⟨y, l, rfl, hwrite, hview, hstorage⟩ := exec_receive_next hinv hrecv hg h
    refine ⟨rfl, rfl, hwrite, hview, rfl, rfl, rfl, rfl, rfl, rfl, rfl, rfl, rfl, fun _ => ?_, fun bytes hb => ?_⟩
    · exact ⟨rfl, rfl, rfl, rfl, cell_congr hstorage rfl⟩
    · rcases hrecv with rfl | rfl <;> cases hb
  · obtain ⟨y, a, q, tr, l, rfl, hread, hview, hcells⟩ := exec_submit_next hinv hg h
    refine ⟨hread, hview, rfl, rfl, rfl, rfl, rfl, rfl, rfl, rfl, rfl, rfl, rfl, fun hb => ?_, fun bytes' hb => ?_⟩
    · rcases hb with hb | hb <;> cases hb
    · cases hb
      refine ⟨rfl, fun q a hout => ?_⟩
      cases q with
      | rx => rfl
      | tx => exact hcells a fun ⟨j, hj, ha⟩ => hout j hj ⟨rfl, ha⟩

/-! ## The handlers -/

theorem readBytes_length (n : Nat) (s : State) : (readBytes n s).length = n := by
  simp only [readBytes, List.length_append, List.length_take, List.length_map, List.length_range]
  omega

/-- A whole ON_TX_READY that answers changes the TX ring, as its consumer may; the armed flag; the transmit FIFO, its flag
and the free-slot reports; the trace and the results. -/
theorem exec_onTxReady_next {s t : State} (hi : StateInv s) (hg : s.issue.grain = .whole)
    (h : exec .onTxReady s = .next t) :
    ∃ y a fifo flag reports tr l, t = { s with
        tx := y
        txArmed := a
        plat := { s.plat with txFifo := fifo, txFlag := flag, freeReports := reports }
        trace := tr
        results := l } ∧ s.tx.SameProducer y := by
  rcases exec_next_cases (by simp) h with hm | ⟨l, rfl⟩
  · obtain ⟨bs, -, hwhole⟩ := exec_onTxReady_whole hi ⟨hm, hg⟩
    rw [hwhole] at h
    cases h
    exact ⟨_, _, _, _, _, _, _, rfl, ringConsumed_sameProducer _ _ _ _⟩
  · exact ⟨_, _, _, _, _, _, l, rfl, .refl _⟩

/-- A whole ON_RX_READY that answers changes the RX ring, as its producer may, in at most the cells that the bytes that
fit go to; the counter; the receive FIFO, its flags and the occupancy reports; the trace, the free-value counter and
the results. -/
theorem exec_onRxReady_next {s t : State} (hi : StateInv s) (hg : s.issue.grain = .whole)
    (h : exec .onRxReady s = .next t) :
    ∃ y c fifo flag ovf reports tr l n, t = { s with
        rx := y
        overrun := c
        plat := { s.plat with rxFifo := fifo, rxFlag := flag, rxOvfFlag := ovf, occReports := reports }
        trace := tr
        results := l
        freeCount := n } ∧
      s.rx.SameConsumer (storedCells s.cfg.rxCap s.rx.writeIndex (min (occAnswer s) (roomSeen .rx s))) y := by
  rcases exec_next_cases (by simp) h with hm | ⟨l, rfl⟩
  · rw [exec_onRxReady_whole hi ⟨hm, hg⟩] at h
    cases h
    obtain ⟨-, hw, -, -⟩ := hi.rx.inRange
    have hkept := ringStored_sameConsumer s.cfg.syncLag ((readBytes (occAnswer s) s).take (roomSeen .rx s)) hw
    rw [List.length_take, readBytes_length, Nat.min_comm] at hkept
    exact ⟨_, _, _, _, _, _, _, _, _, rfl, hkept⟩
  · exact ⟨_, _, _, _, _, _, _, l, _, rfl, .refl _ _⟩

/-- Settles O60: ON_TX_READY changes the TX ring as its consumer may, ON_RX_READY the RX ring as its producer may. -/
theorem handlerFrame : Obligations.HandlerFrame := by
  intro i s t hi hinv hg h
  rcases hi with rfl | rfl
  · obtain ⟨y, a, fifo, flag, reports, tr, l, rfl, hwrite, hview, hstorage⟩ := exec_onTxReady_next hinv hg h
    refine ⟨hwrite, hview, rfl, rfl, rfl, rfl, rfl, rfl, rfl, rfl, rfl, rfl, rfl, fun _ => ?_, fun hb => by cases hb⟩
    exact ⟨rfl, rfl, rfl, rfl, rfl, rfl, cell_congr rfl hstorage⟩
  · obtain ⟨y, c, fifo, flag, ovf, reports, tr, l, n, rfl, hread, hview, hcells⟩ := exec_onRxReady_next hinv hg h
    refine ⟨rfl, rfl, hread, hview, rfl, rfl, rfl, rfl, rfl, rfl, rfl, rfl, rfl, fun hb => (by cases hb), fun _ => ?_⟩
    refine ⟨rfl, rfl, rfl, rfl, fun q a hout => ?_⟩
    cases q with
    | rx => exact hcells a fun ⟨j, hj, ha⟩ => hout j hj ⟨rfl, ha⟩
    | tx => rfl

end Sys2Proof.Machine
end

section
/-! The rows of the opcode table: each word selects at most one, and a word is its row's code and the operand bits that
the row's mask leaves (30 R95, R96, R98, R99). -/

namespace Sys2Proof

/-! ## Rows are disjoint -/

/-- Two rows that one word selects agree on the bits that both masks keep. -/
theorem Row.codes_agree {q q' : Row} {w : Word} (h : q.selects w = true) (h' : q'.selects w = true) :
    q.code &&& q'.mask = q'.code &&& q.mask := by
  simp only [Row.selects, beq_iff_eq] at h h'
  rw [← h, ← h', BitVec.and_assoc, BitVec.and_assoc, BitVec.and_comm q.mask]

/-- A word selects at most one row, the payload row included. -/
theorem row_unique {q q' : Row} {w : Word} (hq : q ∈ payloadRow :: operationRows)
    (hq' : q' ∈ payloadRow :: operationRows) (h : q.selects w = true) (h' : q'.selects w = true) : q = q' := by
  have apart : ∀ q ∈ payloadRow :: operationRows, ∀ q' ∈ payloadRow :: operationRows,
      q.code &&& q'.mask = q'.code &&& q.mask → q = q' := by decide
  exact apart q hq q' hq' (Row.codes_agree h h')

/-- Settles O34: rows that agree on the bits both test are the same row. -/
theorem opcodeRowsAreDisjoint : Obligations.OpcodeRowsAreDisjoint := by
  refine ⟨fun w q q' hq hq' h h' => row_unique (.tail _ hq) (.tail _ hq') h h', fun w q hq h => ?_⟩
  rw [Bool.eq_false_iff]
  intro hpay
  rw [row_unique (.tail _ hq) (.head _) h hpay] at hq
  exact absurd hq (by decide)

/-! ## The words without a row -/

/-- The words that R100 lists. -/
abbrev ListedIllegal (w : Word) : Prop :=
  opField w ∈ [0x0#4, 0x6#4, 0x7#4, 0xD#4, 0xF#4] ∨
    (opField w = 0xE#4 ∧ 8 ≤ (fnField w).toNat) ∨
    (opField w = 0x1#4 ∧ fnField w ≠ 0) ∨
    (opField w ∈ [0x2#4, 0x3#4, 0x4#4, 0x5#4] ∧ (fnField w ≠ 0 ∨ imm8 w ≠ 0)) ∨
    (opField w = 0x8#4 ∧ 2 ≤ (fnField w).toNat) ∨
    (opField w ∈ [0x9#4, 0xA#4, 0xB#4, 0xC#4] ∧ (2 ≤ (fnField w).toNat ∨ imm8 w ≠ 0)) ∨
    (opField w = 0xE#4 ∧ fnField w ∈ [0x0#4, 0x2#4, 0x3#4, 0x5#4, 0x6#4, 0x7#4] ∧ imm8 w ≠ 0) ∨
    (opField w = 0xE#4 ∧ fnField w = 0x4#4 ∧ 2 ≤ (imm8 w).toNat)

/-- Bits 15:12 are in the high byte. -/
theorem opField_append_congr (h l l' : Byte) : opField (h ++ l) = opField (h ++ l') := by
  refine BitVec.eq_of_getLsbD_eq fun i _ => ?_
  have hi : ¬ 12 + i < 8 := by omega
  simp only [opField, BitVec.getLsbD_extractLsb', getLsbD_append8, hi, if_false]

/-- Bits 11:8 are in the high byte. -/
theorem fnField_append_congr (h l l' : Byte) : fnField (h ++ l) = fnField (h ++ l') := by
  refine BitVec.eq_of_getLsbD_eq fun i _ => ?_
  have hi : ¬ 8 + i < 8 := by omega
  simp only [fnField, BitVec.getLsbD_extractLsb', getLsbD_append8, hi, if_false]

theorem two_le_lowClass_iff (l : Byte) : 2 ≤ (lowClass l).toNat ↔ 2 ≤ l.toNat := by
  rcases lowClass_cases l with h | h | h
  · rw [lowClass_exact (by rw [h]; decide)]
  · rw [lowClass_exact (by rw [h]; decide)]
  · have hl : l ≠ 0 ∧ l ≠ 1 := by
      constructor <;> rintro rfl <;> exact absurd h (by decide)
    rw [h]
    bv_omega

/-- R100's list tests the high byte, and of the low byte whether it is 0, and whether it is more than 1. -/
theorem listedIllegal_class (w : Word) : ListedIllegal w ↔ ListedIllegal (hi8 w ++ lowClass (imm8 w)) := by
  have hop := opField_append_congr (hi8 w) (lowClass (imm8 w)) (imm8 w)
  have hfn := fnField_append_congr (hi8 w) (lowClass (imm8 w)) (imm8 w)
  rw [hi8_append_imm8] at hop hfn
  simp only [ListedIllegal, hop, hfn, imm8_append, two_le_lowClass_iff, ne_eq, imm8_zero_iff]

/-- Settles O35: both sides see of a word its high byte and whether its low byte is 0, 1 or more. -/
theorem illegalWordsAreThoseListed : Obligations.IllegalWordsAreThoseListed := by
  intro w
  have listed := forall_class (fun h c => (findRow (h ++ c)).isNone == decide (ListedIllegal (h ++ c)))
    (by decide +kernel) w
  rw [← findRow_class, beq_iff_eq, Bool.eq_iff_iff, decide_eq_true_iff, Option.isNone_iff_eq_none] at listed
  exact listed.trans (listedIllegal_class w).symm

/-! ## A word is its masked part and its operands (30 R98, R99) -/

/-- A row of full mask is one word. -/
theorem eq_of_mask_full {w c : Word} (h : w &&& 0xFFFF#16 = c) : c = w := by
  rw [← h, show 0xFFFF#16 = BitVec.allOnes 16 by decide, BitVec.and_allOnes]

theorem headWord_of_mask {w c : Word} (h : w &&& 0xFF00#16 = c) : headWord c (imm8 w) = w := by
  subst h
  refine BitVec.eq_of_getLsbD_eq fun i hi => ?_
  simp only [headWord, imm8]
  interval_cases i <;> simp

/-- Bit 8 joins the code that `0xFE00` leaves of a Format R word. -/
theorem ringCode_of_mask {w c : Word} (h : w &&& 0xFE00#16 = c) :
    w &&& 0xFF00#16 = if w.getLsbD 8 then c ||| 0x0100#16 else c := by
  subst h
  refine BitVec.eq_of_getLsbD_eq fun i hi => ?_
  split <;> interval_cases i <;> simp_all

theorem ringWord_of_mask {w c : Word} (h : w &&& 0xFE00#16 = c) : ringWord c (ringField w) (imm8 w) = w := by
  have hcode := ringCode_of_mask h
  cases h8 : w.getLsbD 8 <;> rw [h8] at hcode <;> rw [ringField, h8] <;> exact headWord_of_mask hcode

/-- A Format R row without a byte operand. -/
theorem ringWord_of_mask_full {w c : Word} (h : w &&& 0xFEFF#16 = c) (hc : c &&& 0xFE00#16 = c) (hl : imm8 c = 0) :
    ringWord c (ringField w) 0 = w := by
  have hcode : w &&& 0xFE00#16 = c := by
    rw [← hc, ← h, BitVec.and_assoc]
    rfl
  have hlow : imm8 w = 0 := by
    obtain ⟨-, hmasked⟩ := (and_eq_iff _ _ _).mp h
    rwa [show imm8 0xFEFF#16 = BitVec.allOnes 8 by decide, BitVec.and_allOnes, hl] at hmasked
  have hw := ringWord_of_mask hcode
  rwa [hlow] at hw

theorem or_enableField (w : Word) : (w &&& 0xFFFE#16) ||| (if enableField w then 1#16 else 0#16) = w := by
  refine BitVec.eq_of_getLsbD_eq fun i hi => ?_
  unfold enableField
  split <;> interval_cases i <;> simp_all

theorem enableWord_of_mask {w : Word} (h : w &&& 0xFFFE#16 = 0xE400#16) :
    (if enableField w then 0xE401#16 else 0xE400#16) = w := by
  have hw := or_enableField w
  rw [h] at hw
  refine Eq.trans ?_ hw
  cases enableField w <;> rfl

end Sys2Proof
end

section
/-! The decoder and the encoder (30 R95 to R109): a list of words decodes exactly if it is a header, its payload bytes
as Format D words, and the words left; and the words of a command are the encoding of what it reads as. -/

namespace Sys2Proof

/-! ## Commands -/

/-- Whatever payload follows, a header of row `m` stands for an operation of row `m`. -/
@[simp] theorem assemble_mnemonic (m : Mnemonic) (w : Word) (bs : List Byte) : (assemble m w bs).mnemonic = m := by
  cases m <;> rfl

/-- The header `w` with the payload bytes `bs` is the command of the operation `i` (30 R96, R97). -/
def Reads (w : Word) (bs : List Byte) (i : Instr) : Prop :=
  ∃ q, findRow w = some q ∧ bs.length = payloadCount q.op w ∧ assemble q.op w bs = i

theorem decodeCommand_noRow {w : Word} (h : findRow w = none) (p : Port) (rest : List Word) :
    decodeCommand p (w :: rest) = .error (illegalReason w) := by
  simp only [decodeCommand, h]

theorem decodeCommand_wrongPort {w : Word} {q : Row} {p : Port} (h : findRow w = some q) (hp : q.op.port ≠ p)
    (rest : List Word) : decodeCommand p (w :: rest) = .error .wrongPort := by
  simp only [decodeCommand, h, if_pos hp]

theorem decodeCommand_short {w : Word} {q : Row} (h : findRow w = some q) {rest : List Word}
    (hn : rest.length < payloadCount q.op w) :
    decodeCommand q.op.port (w :: rest) = .error (.payloadMissing (payloadCount q.op w)) := by
  simp only [decodeCommand, h, ne_eq, not_true_eq_false, if_false, if_pos hn]

theorem decodeCommand_of_payload {w : Word} {q : Row} (h : findRow w = some q) {pay : List Word}
    (hn : pay.length = payloadCount q.op w) {bs : List Byte} (hd : decodePayload pay = some bs) (rest : List Word) :
    decodeCommand q.op.port (w :: (pay ++ rest)) = .ok (assemble q.op w bs, rest) := by
  simp only [decodeCommand, h, ne_eq, not_true_eq_false, if_false, ← hn, List.length_append, Nat.not_lt.mpr
    (Nat.le_add_right _ _), List.take_left, List.drop_left, hd]

theorem decodeCommand_badPayload {w : Word} {q : Row} (h : findRow w = some q) {pay : List Word}
    (hn : pay.length = payloadCount q.op w) (hd : decodePayload pay = none) (rest : List Word) :
    decodeCommand q.op.port (w :: (pay ++ rest)) = .error (.badPayload pay.length) := by
  simp only [decodeCommand, h, ne_eq, not_true_eq_false, if_false, ← hn, List.length_append, Nat.not_lt.mpr
    (Nat.le_add_right _ _), List.take_left, hd]

/-- A list of words decodes exactly if it is a header, its payload bytes as Format D words, and the words left. -/
theorem decodeCommand_eq_ok_iff {p : Port} {ws rest : List Word} {i : Instr} :
    decodeCommand p ws = .ok (i, rest) ↔
      ∃ w bs, ws = w :: (bs.map (headWord 0#16) ++ rest) ∧ Reads w bs i ∧ i.mnemonic.port = p := by
  constructor
  · intro h
    cases ws with
    | nil => cases h
    | cons w ws =>
      cases hq : findRow w with
      | none => rw [decodeCommand_noRow hq] at h; cases h
      | some q =>
        by_cases hp : q.op.port = p
        case neg => rw [decodeCommand_wrongPort hq hp] at h; cases h
        subst hp
        by_cases hn : ws.length < payloadCount q.op w
        case pos => rw [decodeCommand_short hq hn] at h; cases h
        obtain ⟨pay, left, rfl, hlen⟩ : ∃ pay left, ws = pay ++ left ∧ pay.length = payloadCount q.op w :=
          ⟨ws.take (payloadCount q.op w), ws.drop (payloadCount q.op w), (List.take_append_drop _ ws).symm, by
            rw [List.length_take]; omega⟩
        cases hd : decodePayload pay with
        | none => rw [decodeCommand_badPayload hq hlen hd] at h; cases h
        | some bs =>
          rw [decodeCommand_of_payload hq hlen hd] at h
          cases h
          obtain rfl := map_of_decodePayload hd
          rw [List.length_map] at hlen
          exact ⟨w, bs, rfl, ⟨q, hq, hlen, rfl⟩, by rw [assemble_mnemonic]⟩
  · rintro ⟨w, bs, rfl, ⟨q, hq, hn, rfl⟩, rfl⟩
    rw [assemble_mnemonic]
    exact decodeCommand_of_payload hq (by rw [List.length_map, hn]) (decodePayload_map bs) rest

/-- The encoder writes back the word that a row has read, row by row (30 R95). -/
theorem encode_assemble {q : Row} (hq : q ∈ operationRows) {w : Word} (hw : w &&& q.mask = q.code) {bs : List Byte}
    (hn : bs.length = payloadCount q.op w) : encode (assemble q.op w bs) = w :: bs.map (headWord 0#16) := by
  have alone : ∀ c, c = w → q.op ≠ .submit → [c] = w :: bs.map (headWord 0#16) := by
    rintro c rfl hop
    rw [payloadCount, if_neg hop, List.length_eq_zero_iff] at hn
    rw [hn, List.map_nil]
  simp only [operationRows, rowsA, rowsR, rowsH, List.cons_append, List.nil_append, List.mem_cons, List.not_mem_nil,
    or_false] at hq
  rcases hq with rfl | rfl | rfl | rfl | rfl | rfl | rfl | rfl | rfl | rfl | rfl | rfl | rfl | rfl | rfl | rfl |
    rfl | rfl
  · have hlen : BitVec.ofNat 8 bs.length = imm8 w := by simp [hn, payloadCount]
    have hhead : headWord 0x1000#16 (BitVec.ofNat 8 bs.length) = w := hlen ▸ headWord_of_mask hw
    exact congrArg (· :: bs.map (headWord 0#16)) hhead
  · exact alone _ (eq_of_mask_full hw) (by decide)
  · exact alone _ (eq_of_mask_full hw) (by decide)
  · exact alone _ (eq_of_mask_full hw) (by decide)
  · exact alone _ (eq_of_mask_full hw) (by decide)
  · exact alone _ (ringWord_of_mask hw) (by decide)
  · exact alone _ (ringWord_of_mask_full hw rfl rfl) (by decide)
  · exact alone _ (ringWord_of_mask_full hw rfl rfl) (by decide)
  · exact alone _ (ringWord_of_mask_full hw rfl rfl) (by decide)
  · exact alone _ (ringWord_of_mask_full hw rfl rfl) (by decide)
  · exact alone _ (eq_of_mask_full hw) (by decide)
  · exact alone _ (headWord_of_mask hw) (by decide)
  · exact alone _ (eq_of_mask_full hw) (by decide)
  · exact alone _ (eq_of_mask_full hw) (by decide)
  · exact alone _ (enableWord_of_mask hw) (by decide)
  · exact alone _ (eq_of_mask_full hw) (by decide)
  · exact alone _ (eq_of_mask_full hw) (by decide)
  · exact alone _ (eq_of_mask_full hw) (by decide)

/-- The words of a command are the encoding of its operation. -/
theorem Reads.encode_eq {w : Word} {bs : List Byte} {i : Instr} (h : Reads w bs i) :
    encode i = w :: bs.map (headWord 0#16) := by
  obtain ⟨q, hq, hn, rfl⟩ := h
  obtain ⟨hmem, hsel⟩ := findRow_mem hq
  exact encode_assemble hmem (by simpa [Row.selects] using hsel) hn

theorem payloadCount_le (m : Mnemonic) (w : Word) : payloadCount m w ≤ 255 := by
  unfold payloadCount
  split <;> omega

/-- A command of SUBMIT has no more payload than its header's 8 bits count (30 R97). -/
theorem Reads.wellFormed {w : Word} {bs : List Byte} {i : Instr} (h : Reads w bs i) : i.wellFormed = true := by
  obtain ⟨q, -, hn, rfl⟩ := h
  have hle := payloadCount_le q.op w
  generalize q.op = m at *
  cases m with
  | submit => exact decide_eq_true (hn ▸ hle)
  | _ => rfl

theorem Reads.commandLength_eq {w : Word} {bs : List Byte} {i : Instr} (h : Reads w bs i) :
    commandLength w = 1 + bs.length := by
  obtain ⟨q, hq, hn, -⟩ := h
  simp only [commandLength, hn, payloadCount, ← findRow_submit_op hq]
  split <;> rfl

theorem payloadCount_submitHeader {n : Nat} (h : n ≤ 255) :
    payloadCount .submit (headWord 0x1000#16 (BitVec.ofNat 8 n)) = n := by
  have himm : imm8 (headWord 0x1000#16 (BitVec.ofNat 8 n)) = BitVec.ofNat 8 n := imm8_headWord 0x10#8 _
  rw [payloadCount, if_pos rfl, himm, BitVec.toNat_ofNat]
  omega

/-- Every well-formed operation but a payload word has a command. -/
theorem exists_reads {i : Instr} (hw : i.wellFormed = true) (hb : ∀ b, i ≠ .submitPayload b) :
    ∃ w bs, Reads w bs i := by
  cases i with
  | submit bytes =>
    exact ⟨headWord 0x1000#16 (BitVec.ofNat 8 bytes.length), bytes, _, findRow_headWord_submit _,
      (payloadCount_submitHeader (of_decide_eq_true hw)).symm, rfl⟩
  | push r b =>
    obtain ⟨hrow, himm, hring⟩ := findRow_ringWord_push r b
    exact ⟨ringWord 0x8000#16 r b, [], _, hrow, rfl, by simp only [assemble, himm, hring]⟩
  | hwTxFifoWrite b =>
    have himm : imm8 (headWord 0xE100#16 b) = b := imm8_headWord 0xE1#8 b
    exact ⟨headWord 0xE100#16 b, [], _, findRow_headWord_write b, rfl, by simp only [assemble, himm]⟩
  | pop r =>
    exact ⟨ringWord 0x9000#16 r 0, [], ⟨.pop, 0x9000, 0xFEFF⟩, by cases r <;> decide, rfl, by cases r <;> decide⟩
  | len r =>
    exact ⟨ringWord 0xA000#16 r 0, [], ⟨.len, 0xA000, 0xFEFF⟩, by cases r <;> decide, rfl, by cases r <;> decide⟩
  | isEmpty r =>
    exact ⟨ringWord 0xB000#16 r 0, [], ⟨.isEmpty, 0xB000, 0xFEFF⟩, by cases r <;> decide, rfl, by cases r <;> decide⟩
  | isFull r =>
    exact ⟨ringWord 0xC000#16 r 0, [], ⟨.isFull, 0xC000, 0xFEFF⟩, by cases r <;> decide, rfl, by cases r <;> decide⟩
  | hwSetTxInterruptEnabled e =>
    exact ⟨if e then 0xE401#16 else 0xE400#16, [], ⟨.hwSetTxInterruptEnabled, 0xE400, 0xFFFE⟩, by cases e <;> decide,
      rfl, by cases e <;> decide⟩
  | tryReceive => exact ⟨0x2000#16, [], ⟨.tryReceive, 0x2000, 0xFFFF⟩, by decide, rfl, rfl⟩
  | drainReceived => exact ⟨0x3000#16, [], ⟨.drainReceived, 0x3000, 0xFFFF⟩, by decide, rfl, rfl⟩
  | onTxReady => exact ⟨0x4000#16, [], ⟨.onTxReady, 0x4000, 0xFFFF⟩, by decide, rfl, rfl⟩
  | onRxReady => exact ⟨0x5000#16, [], ⟨.onRxReady, 0x5000, 0xFFFF⟩, by decide, rfl, rfl⟩
  | hwTxFifoFreeSlots => exact ⟨0xE000#16, [], ⟨.hwTxFifoFreeSlots, 0xE000, 0xFFFF⟩, by decide, rfl, rfl⟩
  | hwRxFifoOccupancy => exact ⟨0xE200#16, [], ⟨.hwRxFifoOccupancy, 0xE200, 0xFFFF⟩, by decide, rfl, rfl⟩
  | hwRxFifoRead => exact ⟨0xE300#16, [], ⟨.hwRxFifoRead, 0xE300, 0xFFFF⟩, by decide, rfl, rfl⟩
  | hwClearTxInterruptFlag => exact ⟨0xE500#16, [], ⟨.hwClearTxInterruptFlag, 0xE500, 0xFFFF⟩, by decide, rfl, rfl⟩
  | hwClearRxInterruptFlag => exact ⟨0xE600#16, [], ⟨.hwClearRxInterruptFlag, 0xE600, 0xFFFF⟩, by decide, rfl, rfl⟩
  | hwClearRxOverflowFlag => exact ⟨0xE700#16, [], ⟨.hwClearRxOverflowFlag, 0xE700, 0xFFFF⟩, by decide, rfl, rfl⟩
  | submitPayload b => exact absurd rfl (hb b)

/-! ## The statements -/

/-- Settles O32: the command that reads as the operation is its encoding, and a command with its words decodes. -/
theorem decodeOfEncodeIsIdentity : Obligations.DecodeOfEncodeIsIdentity := by
  intro i rest hw
  refine ⟨fun hb => ?_, ?_⟩
  · obtain ⟨w, bs, h⟩ := exists_reads hw hb
    rw [h.encode_eq]
    exact decodeCommand_eq_ok_iff.mpr ⟨w, bs, rfl, h, rfl⟩
  · rintro b rfl
    exact congrArg ([·]) (decodePayloadWord_headWord b)

/-- Settles O33: words that decode are a command and its words, and the encoding of what it reads as. -/
theorem encodeOfDecodeIsIdentity : Obligations.EncodeOfDecodeIsIdentity := by
  intro p ws rest i h
  obtain ⟨w, bs, rfl, hr, hp⟩ := decodeCommand_eq_ok_iff.mp h
  exact ⟨by rw [hr.encode_eq]; rfl, hr.wellFormed, hp⟩

/-- Settles O36: a command takes its header and one word for each payload byte. -/
theorem lengthIsKnownFromFirstWord : Obligations.LengthIsKnownFromFirstWord := by
  intro p w ws rest i h
  obtain ⟨w', bs, hws, hr, -⟩ := decodeCommand_eq_ok_iff.mp h
  obtain ⟨rfl, rfl⟩ := List.cons.inj hws
  refine ⟨?_, rfl⟩
  rw [hr.commandLength_eq, List.length_cons, List.length_append, List.length_map]
  omega

/-- Settles O37: seven closed decodings, each computed. -/
theorem sampleWordsDecode : Obligations.SampleWordsDecode := by
  refine ⟨?_, ?_, ?_, ?_, ?_, ?_, ?_⟩ <;> decide

end Sys2Proof
end

section
/-! What a turn does with the words of a port: the next command runs, is refused, or opens a SUBMIT; a payload word
joins the SUBMIT that is unfinished (30 R90, R96, R97, R100, R102). -/

namespace Sys2Proof.Machine

@[simp] theorem ready_setIssue (a : Agent) (s : State) (x : Issue) : ready a (s.setIssue x) = ready a s := by
  cases a <;> rfl

@[simp] theorem ready_setPorts (a : Agent) (s : State) (p : Ports) : ready a (s.setPorts p) = ready a s := by
  cases a <;> rfl

@[simp] theorem ready_setTurns (a : Agent) (s : State) (ts : List Turn) : ready a (s.setTurns ts) = ready a s := by
  cases a <;> rfl

/-! ## Whose turn it is -/

/-- With no SUBMIT unfinished on the port, an agent that may start may issue its next command. -/
theorem commandEnabled_of_ready {p : Port} {a : Agent} {s : State} (hr : ready a s = true)
    (hn : p = .app → s.ports.assembly = none) : commandEnabled p a s = true := by
  cases p with
  | app => simp only [commandEnabled, hr, hn rfl, Bool.and_self]
  | _ => simp only [commandEnabled, hr, Bool.and_self]

/-- On APP, while a SUBMIT is unfinished, only the agent of its header may issue. -/
theorem commandEnabled_assembly {a : Agent} {m : Assembly} {s : State} (hm : s.ports.assembly = some m) :
    commandEnabled .app a s = (ready a s && a == m.agent) := by
  simp only [commandEnabled, hm]

theorem runCommand_decoded {p : Port} {a : Agent} {g : Grain} {i : Instr} {rest : List Word} {s : State}
    (hr : ready a s = true) (hn : p = .app → s.ports.assembly = none)
    (hd : decodeCommand p (s.ports.queue p) = .ok (i, rest)) :
    runCommand p a g s = exec i ((s.setIssue ⟨p, a, g⟩).setPorts (s.ports.setQueue p rest)) := by
  rw [runCommand, if_pos (commandEnabled_of_ready hr hn)]
  cases p with
  | app => simp only [hn rfl, hd]; rfl
  | _ => simp only [hd]; rfl

theorem runCommand_rejected {p : Port} {a : Agent} {g : Grain} {e : DecodeError} {s : State}
    (hr : ready a s = true) (hn : p = .app → s.ports.assembly = none)
    (hd : decodeCommand p (s.ports.queue p) = .error e) :
    runCommand p a g s = rejectCommand p e (s.setIssue ⟨p, a, g⟩) := by
  rw [runCommand, if_pos (commandEnabled_of_ready hr hn)]
  cases p with
  | app => simp only [hn rfl, hd]
  | _ => simp only [hd]

theorem runCommand_assembly {m : Assembly} {g : Grain} {s : State} (hr : ready m.agent s = true)
    (hm : s.ports.assembly = some m) :
    runCommand .app m.agent g s = payloadCommand m (s.setIssue ⟨.app, m.agent, g⟩) := by
  have hen : commandEnabled .app m.agent s = true := by rw [commandEnabled_assembly hm, hr, beq_self_eq_true]; rfl
  simp only [runCommand, hen, if_true, hm]

theorem runCommand_otherAgent {a : Agent} {m : Assembly} {g : Grain} {s : State} (hm : s.ports.assembly = some m)
    (ha : m.agent ≠ a) : runCommand .app a g s = .next s :=
  runCommand_disabled (by rw [commandEnabled_assembly hm, beq_eq_false_iff_ne.mpr ha.symm, Bool.and_false])

/-! ## Words taken off a port -/

theorem takeWords_of_queue {p : Port} {n : Nat} {ws rest : List Word} {s : State} (h : s.ports.queue p = ws ++ rest)
    (hn : ws.length = n) : takeWords p n s = s.setPorts (s.ports.setQueue p rest) := by
  rw [takeWords, h, List.drop_left' hn]

/-- The next word is taken. -/
theorem takeWords_one {p : Port} {w : Word} {ws : List Word} {s : State} (h : s.ports.queue p = w :: ws) :
    takeWords p 1 s = s.setPorts (s.ports.setQueue p ws) :=
  takeWords_of_queue (ws := [w]) h rfl

/-- Whichever clause of R100 an illegal word falls under, it is taken and refused with ILLEGAL. -/
theorem rejectCommand_illegalReason (p : Port) (w : Word) (s : State) :
    rejectCommand p (illegalReason w) s = answer .illegal .none (takeWords p 1 s) := by
  unfold illegalReason
  split_ifs <;> rfl

/-- Settles O24: the word does not decode, and every clause of R100 is refused alike. -/
theorem illegalWordIsRefused : Obligations.IllegalWordIsRefused := by
  intro p a g w ws s hr hn hq hrow
  have hd : decodeCommand p (s.ports.queue p) = .error (illegalReason w) := by rw [hq, decodeCommand_noRow hrow]
  rw [runCommand_rejected hr hn hd, rejectCommand_illegalReason,
    takeWords_one (s := s.setIssue ⟨p, a, g⟩) hq]
  rfl

/-- Settles O25: the word does not decode on this port. -/
theorem wrongPortIsRefused : Obligations.WrongPortIsRefused := by
  intro p a g w ws q s hr hn hq hrow hp
  have hd : decodeCommand p (s.ports.queue p) = .error .wrongPort := by rw [hq, decodeCommand_wrongPort hrow hp]
  rw [runCommand_rejected hr hn hd, rejectCommand, DecodeError.consumed,
    takeWords_one (s := s.setIssue ⟨p, a, g⟩) hq]
  rfl

/-! ## Payload words -/

theorem finishAssembly_bad {m : Assembly} (h : m.bad = true) (s : State) :
    finishAssembly m s = .next ((s.setPorts { s.ports with assembly := none }).ret s.issue.agent .illegal .none) := by
  simp only [finishAssembly, h, if_true]
  rfl

theorem finishAssembly_good {m : Assembly} (h : m.bad = false) (s : State) :
    finishAssembly m s = exec (.submit m.got) (s.setPorts { s.ports with assembly := none }) := by
  simp only [finishAssembly, h, Bool.false_eq_true, if_false]
  rfl

/-- The unfinished SUBMIT with one more word, good or malformed (30 R97). -/
def Assembly.joined (m : Assembly) : Option Byte → Assembly
  | some b => ⟨m.agent, m.left - 1, m.got ++ [b], m.bad⟩
  | none => ⟨m.agent, m.left - 1, m.got, true⟩

theorem joinAssembly_more {m : Assembly} (h : 2 ≤ m.left) (w : Option Byte) (s : State) :
    joinAssembly m w s = .next (s.setPorts { s.ports with assembly := some (m.joined w) }) := by
  have hleft : m.left - 1 ≠ 0 := by omega
  cases w <;> simp only [joinAssembly, if_neg hleft] <;> rfl

theorem joinAssembly_last {m : Assembly} (h : m.left ≤ 1) (w : Option Byte) (s : State) :
    joinAssembly m w s = finishAssembly (m.joined w) s := by
  have hleft : m.left - 1 = 0 := by omega
  cases w <;> simp only [joinAssembly, if_pos hleft] <;> rfl

theorem exec_submitPayload_illegal {s : State} (h : s.ports.assembly = none ∨ s.issue.port ≠ .app) (b : Byte) :
    exec (.submitPayload b) s = .next (s.ret s.issue.agent .illegal .none) := by
  cases hm : s.ports.assembly with
  | none => simp only [exec, execSubmitPayload, hm]; rfl
  | some m =>
    have hp : s.issue.port ≠ .app := h.resolve_left (by simp [hm])
    simp only [exec, execSubmitPayload, hm, if_pos hp]
    rfl

theorem exec_submitPayload_joins {m : Assembly} {s : State} (hm : s.ports.assembly = some m) (hp : s.issue.port = .app)
    (ha : s.issue.agent = m.agent) (hr : ready m.agent s = true) (b : Byte) :
    exec (.submitPayload b) s = joinAssembly m (some b) s := by
  simp only [exec, execSubmitPayload, hm, hp, ha, hr, ne_eq, not_true_eq_false, if_false, and_self, if_true]

theorem exec_submitPayload_waits {m : Assembly} {s : State} (hm : s.ports.assembly = some m) (hp : s.issue.port = .app)
    (h : s.issue.agent ≠ m.agent ∨ ready m.agent s = false) (b : Byte) : exec (.submitPayload b) s = .next s := by
  have hnot : ¬ (s.issue.agent = m.agent ∧ ready m.agent s = true) := by
    rintro ⟨ha, hr⟩
    exact h.elim (· ha) fun hf => by rw [hr] at hf; cases hf
  simp only [exec, execSubmitPayload, hm, hp, ne_eq, not_true_eq_false, if_false, if_neg hnot]

/-- From a state in order every command answers a next state. -/
theorem exec_answers {s : State} (hi : StateInv s) (i : Instr) : ∃ u, exec i s = .next u := by
  have hl := exec_leads i s
  cases he : exec i s with
  | next u => exact ⟨u, rfl⟩
  | fault e => rw [he] at hl; exact absurd hi hl
  | refused e => rw [he] at hl; exact hl.elim

/-- Settles O20: the word is refused, waits or joins; the last one that joins finishes the command. -/
theorem payloadWordJoinsItsSubmit : Obligations.PayloadWordJoinsItsSubmit := by
  intro b s
  refine ⟨fun h => exec_submitPayload_illegal h b, fun m hm hp => ⟨fun h => exec_submitPayload_waits hm hp h b,
    fun ha hr => ?_⟩⟩
  have hjoin := exec_submitPayload_joins hm hp ha hr b
  refine ⟨fun hl => ?_, fun hl hbad => ?_, fun hl hbad => ?_, fun _ _ _ hi _ => exec_answers hi _⟩
  · rw [hjoin, joinAssembly_more hl]; rfl
  · rw [hjoin, joinAssembly_last hl, finishAssembly_bad (m := m.joined (some b)) hbad]
  · rw [hjoin, joinAssembly_last hl, finishAssembly_good (m := m.joined (some b)) hbad]; rfl

theorem payloadCommand_good {m : Assembly} {w : Word} {ws : List Word} {b : Byte} {s : State}
    (hq : s.ports.app = w :: ws) (hb : decodePayloadWord w = some b) :
    payloadCommand m s = exec (.submitPayload b) (s.setPorts { s.ports with app := ws }) := by
  simp only [payloadCommand, hq, hb]
  rw [takeWords_one (p := .app) hq]
  rfl

theorem payloadCommand_malformed {m : Assembly} {w : Word} {ws : List Word} {s : State}
    (hq : s.ports.app = w :: ws) (hb : decodePayloadWord w = none) :
    payloadCommand m s = joinAssembly m none (s.setPorts { s.ports with app := ws }) := by
  simp only [payloadCommand, hq, hb]
  rw [takeWords_one (p := .app) hq]
  rfl

/-- Settles O26: the payload does not decode, and a malformed word that arrives alone marks the command. -/
theorem malformedSubmitIsRefusedWhole : Obligations.MalformedSubmitIsRefusedWhole := by
  refine ⟨fun h pay rest a g s hr hn hq hh hlen hbad => ?_, fun w ws m g s hr hm hq hw => ?_⟩
  · have hrow := (findRow_submit h).mp hh
    have hqueue : (s.setIssue ⟨.app, a, g⟩).ports.queue .app = (h :: pay) ++ rest := hq
    have hd : decodeCommand .app (s.ports.queue .app) = .error (.badPayload pay.length) :=
      (congrArg _ hq).trans (decodeCommand_badPayload hrow hlen (decodePayload_none hbad) rest)
    rw [runCommand_rejected hr (fun _ => hn) hd, rejectCommand, DecodeError.consumed,
      takeWords_of_queue hqueue (Nat.add_comm _ _)]
    rfl
  · have hb : decodePayloadWord w = none := by rw [decodePayloadWord_eq, if_neg hw]
    intro t
    rw [runCommand_assembly hr hm, payloadCommand_malformed (s := t) hq hb]
    refine ⟨fun hl => ?_, fun hl => ?_⟩
    · rw [joinAssembly_more hl]; rfl
    · rw [joinAssembly_last hl, finishAssembly_bad (m := m.joined none) rfl]; rfl

/-! ## The turn, and the context check -/

theorem step_of_turns {t : Turn} {ts : List Turn} {s : State} (h : s.turns = t :: ts) :
    step s = runTurn t (s.setTurns ts) := by
  simp only [step, nextTurn, h]

/-- Settles O22: the turn is taken off the schedule and runs what the port's words decode to. -/
theorem stepRunsDecodedCommand : Obligations.StepRunsDecodedCommand := by
  refine ⟨fun s p a g ts i rest ht hr hn hd => ?_, fun s a g ts m w ws ht hm hq => ⟨?_, fun ha => ?_⟩⟩
  · rw [step_of_turns ht]
    exact runCommand_decoded (by simpa using hr) hn hd
  · rintro b rfl hr hb
    rw [step_of_turns ht]
    have hrun := runCommand_assembly (s := s.setTurns ts) (g := g) (by simpa using hr) hm
    exact hrun.trans (payloadCommand_good hq hb)
  · rw [step_of_turns ht]
    exact runCommand_otherAgent hm ha

theorem exec_forbidden {i : Instr} {s : State} (hp : permitted i s = false) (hb : ∀ b, i ≠ .submitPayload b) :
    exec i s = .next (s.ret s.issue.agent .context .none) := by
  obtain ⟨run, hrun⟩ := exec_guarded i s hb
  rw [hrun, guarded_context hp]

/-- Settles O27: the check of every operation refuses it, and the last payload word leads to SUBMIT's check. -/
theorem forbiddenIssueIsRefused : Obligations.ForbiddenIssueIsRefused := by
  refine fun i s hp => ⟨exec_forbidden hp, ?_⟩
  rintro b m rfl hm hport ha hr hl hbad
  rw [exec_submitPayload_joins hm hport ha hr, joinAssembly_last hl, finishAssembly_good (m := m.joined (some b)) hbad]
  exact exec_forbidden hp (by simp)

end Sys2Proof.Machine
end

section
/-! A SUBMIT whose words arrive at APP one at a time (30 R97, R107): it collects its payload bytes, and the last of them
runs it. -/

namespace Sys2Proof.Machine

/-- FG's SUBMIT with the bytes `got`, and `n` words still to arrive at APP, where none waits. -/
def collecting (n : Nat) (got : List Byte) (s : State) : State :=
  (s.setIssue ⟨.app, .fg, .whole⟩).setPorts { s.ports with app := [], assembly := some ⟨.fg, n, got, false⟩ }

/-- FG issues on APP, where no word waits and no SUBMIT is unfinished. -/
def collected (s : State) : State :=
  (s.setIssue ⟨.app, .fg, .whole⟩).setPorts { s.ports with app := [], assembly := none }

theorem collected_of_empty {s : State} (hq : s.ports.app = []) (hn : s.ports.assembly = none) :
    collected s = s.setIssue ⟨.app, .fg, .whole⟩ := by
  have hports : { s.ports with app := [], assembly := none } = s.ports := by rw [← hq, ← hn]
  rw [collected, hports]
  rfl

/-- A payload word that arrives joins the SUBMIT. -/
theorem runCommand_arrived {s : State} (hr : ready .fg s = true) (n : Nat) (got : List Byte) (b : Byte) :
    runCommand .app .fg .whole (postWords .app [headWord 0#16 b] (collecting n got s)) =
      joinAssembly ⟨.fg, n, got, false⟩ (some b) (collecting n got s) := by
  have hready : ready .fg (collecting n got s) = true := by simpa [collecting] using hr
  have hrun := runCommand_assembly (m := ⟨.fg, n, got, false⟩) (g := .whole)
    (s := postWords .app [headWord 0#16 b] (collecting n got s)) (by simpa [postWords] using hready) rfl
  have hword := payloadCommand_good (m := ⟨.fg, n, got, false⟩) (ws := [])
    (s := (postWords .app [headWord 0#16 b] (collecting n got s)).setIssue ⟨.app, .fg, .whole⟩) rfl
    (decodePayloadWord_headWord b)
  exact (hrun.trans hword).trans (exec_submitPayload_joins (m := ⟨.fg, n, got, false⟩) rfl rfl rfl hready b)

theorem runCommand_arrived_more {s : State} (hr : ready .fg s = true) (n : Nat) (got : List Byte) (b : Byte) :
    runCommand .app .fg .whole (postWords .app [headWord 0#16 b] (collecting (n + 2) got s)) =
      .next (collecting (n + 1) (got ++ [b]) s) := by
  rw [runCommand_arrived hr, joinAssembly_more (Nat.le_add_left 2 n)]
  rfl

theorem runCommand_arrived_last {s : State} (hr : ready .fg s = true) (got : List Byte) (b : Byte) :
    runCommand .app .fg .whole (postWords .app [headWord 0#16 b] (collecting 1 got s)) =
      exec (.submit (got ++ [b])) (collected s) := by
  rw [runCommand_arrived hr, joinAssembly_last (Nat.le_refl 1), finishAssembly_good rfl]
  rfl

theorem arriveOneByOne_cons {w : Word} {ws : List Word} {s t : State}
    (h : runCommand .app .fg .whole (postWords .app [w] s) = .next t) :
    arriveOneByOne (w :: ws) s = arriveOneByOne ws t := by
  simp only [arriveOneByOne, h]

theorem arriveOneByOne_singleton (w : Word) (s : State) :
    arriveOneByOne [w] s = runCommand .app .fg .whole (postWords .app [w] s) := by
  simp only [arriveOneByOne]
  cases runCommand .app .fg .whole (postWords .app [w] s) <;> rfl

/-- The payload words that are still to arrive run the SUBMIT of all the bytes. -/
theorem arriveOneByOne_payload {s : State} (hr : ready .fg s = true) (bs : List Byte) (b : Byte) (got : List Byte) :
    arriveOneByOne ((b :: bs).map (headWord 0#16)) (collecting (bs.length + 1) got s) =
      exec (.submit (got ++ b :: bs)) (collected s) := by
  induction bs generalizing b got with
  | nil => exact (arriveOneByOne_singleton _ _).trans (runCommand_arrived_last hr got b)
  | cons c cs ih =>
    have hrest := ih c (got ++ [b])
    rw [List.append_assoc, List.singleton_append] at hrest
    exact (arriveOneByOne_cons (runCommand_arrived_more hr cs.length got b)).trans hrest

theorem postWords_app {s : State} (hq : s.ports.app = []) (ws : List Word) :
    postWords .app ws s = s.setPorts { s.ports with app := ws } := by
  simp only [postWords, Ports.setQueue, Ports.queue, hq, List.nil_append]

/-- The header that arrives opens the SUBMIT, if it has a payload. -/
theorem runCommand_arrived_header {n : Nat} {s : State} (hr : ready .fg s = true) (hn : s.ports.assembly = none)
    (hq : s.ports.app = []) (hpos : 0 < n) (hle : n ≤ 255) :
    runCommand .app .fg .whole (postWords .app [headWord 0x1000#16 (BitVec.ofNat 8 n)] s) =
      .next (collecting n [] s) := by
  have hcount := payloadCount_submitHeader hle
  have hshort := decodeCommand_short (findRow_headWord_submit (BitVec.ofNat 8 n)) (rest := []) (by rwa [hcount])
  rw [hcount] at hshort
  rw [postWords_app hq]
  exact runCommand_rejected (p := .app)
    (s := s.setPorts { s.ports with app := [headWord 0x1000#16 (BitVec.ofNat 8 n)] }) (by simpa using hr)
    (fun _ => hn) hshort

/-- Settles O21: the words that wait decode to the SUBMIT, and those that arrive collect its bytes. -/
theorem submitWordsAreDirectInvocation : Obligations.SubmitWordsAreDirectInvocation := by
  intro bytes rest s hl hr hn direct
  have hdecode : ∀ rest, decodeCommand .app (encode (.submit bytes) ++ rest) = .ok (.submit bytes, rest) := fun rest =>
    (decodeOfEncodeIsIdentity (.submit bytes) rest (decide_eq_true hl)).1 (by simp)
  refine ⟨fun hq => ?_, fun hq => ?_⟩
  · exact runCommand_decoded hr (fun _ => hn) ((congrArg _ hq).trans (hdecode rest))
  · rw [show direct = collected s from (collected_of_empty hq hn).symm]
    cases bytes with
    | nil =>
      refine (arriveOneByOne_singleton _ _).trans ?_
      rw [postWords_app hq]
      refine (runCommand_decoded (p := .app) (s := s.setPorts { s.ports with app := encode (.submit []) })
        (by simpa using hr) (fun _ => hn) (hdecode [])).trans ?_
      rw [collected, ← hn]
      rfl
    | cons b bs =>
      exact (arriveOneByOne_cons (runCommand_arrived_header hr hn hq (Nat.succ_pos _) hl)).trans
        (arriveOneByOne_payload hr bs b [])

end Sys2Proof.Machine
end

section
/-! Circular index arithmetic (40 R120, R123), and the three lengths of a ring that it counts (40 R130). -/

namespace Sys2Proof.Machine

/-! ## The operations on indices -/

/-- The difference is the mathematical one, modulo the capacity (40 R120). -/
theorem dist_intCast {cap b : Nat} (a : Nat) (hb : b < cap) :
    ((dist cap a b : Nat) : Int) = ((a : Int) - (b : Int)) % (cap : Int) := by
  have hle : b ≤ a + cap := by omega
  calc ((dist cap a b : Nat) : Int)
      = ((a : Int) + cap - b) % cap := by rw [dist, Int.natCast_mod, Nat.cast_sub hle, Nat.cast_add]
    _ = ((a : Int) - b + cap) % cap := by rw [add_sub_right_comm]
    _ = ((a : Int) - b) % cap := Int.add_emod_right _ _

/-- 40 R123: the roll-back undoes the increment. -/
theorem dec_inc {cap i : Nat} (h : i < cap) : dec cap (inc cap i) = i := by
  have hinc := inc_eq cap i h
  rw [dec_eq cap _ (inc_lt cap i h)]
  split_ifs at hinc ⊢ <;> omega

theorem dec_lt {cap i : Nat} (h : i < cap) : dec cap i < cap := Nat.mod_lt _ (by omega)

theorem inc_dec {cap i : Nat} (h : i < cap) : inc cap (dec cap i) = i := by
  have hdec := dec_eq cap i h
  rw [inc_eq cap _ (dec_lt h)]
  split_ifs at hdec ⊢ <;> omega

/-- Settles O56: each operation has its form without `mod`, and masking with a power of two less one is the remainder. -/
theorem circularIndexArithmetic : Obligations.CircularIndexArithmetic := by
  intro cap i j hi hj
  have hinc := inc_eq cap i hi
  have hdist := dist_eq cap i j hi hj
  refine ⟨rfl, fun h => ?_, fun h => ?_, rfl, fun h => ?_, fun h => ?_, dist_intCast i hj, dec_inc hi, inc_dec hi, ?_⟩
  · rw [hinc, if_neg (by omega)]
  · rw [hinc, if_pos (by omega)]
  · rw [hdist, if_pos h]
  · rw [hdist, if_neg (by omega)]
  · rintro k rfl n
    exact (Nat.and_two_pow_sub_one_eq_mod n k).symm

/-! ## The lengths -/

/-- What is there is what the consumer sees and what is still hidden from it (10 R34). -/
theorem Ring.Ok.dist_eq_seen_add {cap : Nat} {x : Ring} (h : x.Ok cap) :
    dist cap x.writeIndex x.readIndex = dist cap x.wrSeen x.readIndex + dist cap x.writeIndex x.wrSeen := by
  obtain ⟨hread, hwrite, hrd, hwr⟩ := h.inRange
  have ho := h.ordered
  unfold Ring.Ordered Ring.span at ho
  rw [dist_eq _ _ _ hwrite hread, dist_eq _ _ _ hwr hread, dist_eq _ _ _ hwrite hwr] at *
  split_ifs at * <;> omega

/-- The producer's length is the span of its ring. -/
theorem StateInv.producerLen_eq_span {s : State} (h : StateInv s) (r : RingId) :
    producerLen r s = (s.ring r).span (s.cap r) :=
  (Ring.span_eq _ _ (h.ringOk r).inRange (h.ringOk r).ordered).symm

/-- Settles O41: the lengths are sums of the gaps that the view order bounds, and exact views leave no gap. -/
theorem viewsErrOnTheSafeSide : Obligations.ViewsErrOnTheSafeSide := by
  intro s r hi
  have hok := hi.ringOk r
  refine ⟨?_, ?_, ?_, fun hlag => ?_⟩
  · exact (Nat.le_add_right _ _).trans hok.dist_eq_seen_add.ge
  · exact hok.dist_le_span.trans (hi.producerLen_eq_span r).ge
  · exact (hi.producerLen_eq_span r).trans_le hok.ordered
  · obtain ⟨hrd, hwr⟩ := hi.ringExact r hlag
    exact ⟨by rw [consumerLen, hwr, trueLen], by rw [producerLen, hrd, trueLen]⟩

end Sys2Proof.Machine
end

section
/-! The ring operations as they answer (40 R124, R127, R129, R132, R133). -/

namespace Sys2Proof.Machine

/-- Settles O1: the producer sees the ring full, or stores to a cell that exists, or to one that does not. -/
theorem pushStoresOrOverflows : Obligations.PushStoresOrOverflows := by
  intro r b s hm full
  exact ⟨exec_push_full hm, fun hf hw => exec_push_accepted hm hw hf, fun hf hw => exec_push_noCell hm hf hw⟩

/-- Settles O2: the consumer sees the ring empty, or reads a cell with or without a value, or one that does not exist. -/
theorem popTakesOldestOrEmpty : Obligations.PopTakesOldestOrEmpty := by
  intro r s hm empty t
  exact ⟨exec_pop_empty hm,
    fun hne hr => ⟨fun _ hb => exec_pop_taken hm hr hne hb, fun hb => exec_pop_unwritten hm hr hne hb⟩,
    fun hne hr => exec_pop_noCell hm hne hr⟩

/-- A checked answer that may be given is returned to the caller, and nothing else changes. -/
theorem guarded_answer_run {i : Instr} {s : State} (hm : MayRun i s) (st : Status) (v : Value) :
    guarded i s (answer st v) = .next (s.ret s.issue.agent st v) :=
  guarded_run hm _

/-- Settles O3: each query is a checked answer computed from the caller's length. -/
theorem lengthQueriesAnswerCallersView : Obligations.LengthQueriesAnswerCallersView := by
  intro r s n
  have hn : n = callerLen r s.issue.agent s := rfl
  rw [hn]
  exact ⟨fun hm => guarded_answer_run hm .ok (.nat (callerLen r s.issue.agent s)),
    fun hm => guarded_answer_run hm .ok (.bit (callerLen r s.issue.agent s == 0)),
    fun hm => guarded_answer_run hm .ok (.bit (callerLen r s.issue.agent s == s.cap r - 1))⟩

/-! ## The queries and the rejections -/

/-- The result returned last tells what an operation answered. -/
theorem status_eq_of_ret_eq {s t : State} {a b : Agent} {st st' : Status} {v w : Value}
    (h : s.ret a st v = t.ret b st' w) : st = st' := by
  have hlast : (s.ret a st v).results.getLast? = (t.ret b st' w).results.getLast? := by rw [h]
  simp only [State.ret_results, List.getLast?_concat, Option.some.injEq, Returned.mk.injEq] at hlast
  exact hlast.2.1

/-- PUSH answers OVERFLOW exactly if the producer sees the ring full (40 R124). -/
theorem exec_push_overflow_iff {r : RingId} {b : Byte} {s : State} (hm : MayRunWhole (.push r b) s)
    (hw : (s.ring r).writeIndex < s.cap r) :
    exec (.push r b) s = .next (s.ret (producer r) .overflow .none) ↔
      inc (s.cap r) (s.ring r).writeIndex = (s.ring r).rdSeen := by
  refine ⟨fun h => ?_, exec_push_full hm⟩
  by_contra hf
  rw [exec_push_accepted hm hw hf, Host.Outcome.next.injEq] at h
  cases status_eq_of_ret_eq h

/-- POP answers EMPTY exactly if the consumer sees the ring empty (40 R127). -/
theorem exec_pop_empty_iff {r : RingId} {s : State} (hi : StateInv s) (hm : MayRunWhole (.pop r) s) :
    exec (.pop r) s = .next (s.ret (consumer r) .empty .none) ↔ (s.ring r).wrSeen = (s.ring r).readIndex := by
  refine ⟨fun h => ?_, exec_pop_empty hm⟩
  have hok := hi.ringOk r
  by_contra hne
  obtain ⟨b, hb⟩ := hok.head_written hne
  rw [exec_pop_taken hm hok.inRange.1 hne hb, Host.Outcome.next.injEq] at h
  cases status_eq_of_ret_eq h

/-- Settles O4: a full ring is one whose next write would meet the reader, an empty one has equal indices. -/
theorem queriesForetellRejection : Obligations.QueriesForetellRejection := by
  intro r b s hi
  obtain ⟨hread, hwrite, hrd, hwr⟩ := (hi.ringOk r).inRange
  refine ⟨fun hm => ?_, fun hm => ?_⟩
  · exact (inc_eq_iff_full _ _ _ (hi.cap_ge r) hwrite hrd).symm.trans (exec_push_overflow_iff hm hwrite).symm
  · exact (dist_eq_zero _ _ _ hwr hread).trans (exec_pop_empty_iff hi hm).symm

end Sys2Proof.Machine
end

section
/-! What the length queries and the capability operations leave unchanged (40 R129; 43 R190 to R197, R199). -/

namespace Sys2Proof.Machine

/-! ## The capability call of an operation -/

/-- The state after the capability call that an operation of the CAP port is (43 R190 to R197), with the FIFO that it
writes in closed form; for any other operation, the state as it is. -/
def State.afterCall (s : State) : Instr → State
  | .hwTxFifoFreeSlots => callFreeSlots s
  | .hwTxFifoWrite b =>
    (s.setPlat { s.plat with
      txFifo := if s.plat.txFifo.length < s.cfg.fifoTxCap then s.plat.txFifo ++ [b] else s.plat.txFifo }).emit (.write b)
  | .hwRxFifoOccupancy => callOccupancy s
  | .hwRxFifoRead =>
    ((s.setPlat { s.plat with rxFifo := s.plat.rxFifo.tail }).setFreeCount
      (if s.plat.rxFifo = [] then s.freeCount + 1 else s.freeCount)).emit (.read (readAnswer s))
  | .hwSetTxInterruptEnabled e => setTxInterrupt e s
  | .hwClearTxInterruptFlag => callClearTxFlag s
  | .hwClearRxInterruptFlag => callClearRxFlag s
  | .hwClearRxOverflowFlag => callClearRxOvf s
  | _ => s

theorem callTxWrite_eq_afterCall (b : Byte) (s : State) : callTxWrite b s = s.afterCall (.hwTxFifoWrite b) := by
  simp only [callTxWrite, State.afterCall]
  split <;> rfl

theorem callRxRead_eq_afterCall (s : State) : callRxRead s = s.afterCall .hwRxFifoRead := by
  cases hf : s.plat.rxFifo with
  | nil => simp only [callRxRead, State.afterCall, hf, if_true]; rw [List.tail_nil, ← hf]; rfl
  | cons b bs => simp only [callRxRead, State.afterCall, hf, reduceCtorEq, if_false]; rfl

/-- The length queries and the capability operations. -/
def QueryOrCapability (i : Instr) : Prop :=
  (∃ r, i = .len r ∨ i = .isEmpty r ∨ i = .isFull r) ∨ i.mnemonic.port = .cap

/-- Each of them is a checked capability call, with an answer. -/
theorem exec_queryOrCapability {i : Instr} (hi : QueryOrCapability i) (s : State) :
    ∃ v : State → Value, exec i s = guarded i s fun t => answer .ok (v t) (t.afterCall i) := by
  rcases hi with ⟨r, rfl | rfl | rfl⟩ | hcap
  · exact ⟨fun _ => .nat (callerLen r s.issue.agent s), rfl⟩
  · exact ⟨fun _ => .bit (callerLen r s.issue.agent s == 0), rfl⟩
  · exact ⟨fun _ => .bit (callerLen r s.issue.agent s == s.cap r - 1), rfl⟩
  · cases i with
    | hwTxFifoFreeSlots => exact ⟨fun t => .nat (freeAnswer t), rfl⟩
    | hwTxFifoWrite b => simp only [← callTxWrite_eq_afterCall]; exact ⟨fun _ => .none, rfl⟩
    | hwRxFifoOccupancy => exact ⟨fun t => .nat (occAnswer t), rfl⟩
    | hwRxFifoRead => simp only [← callRxRead_eq_afterCall]; exact ⟨fun t => .byte (readAnswer t), rfl⟩
    | hwSetTxInterruptEnabled e => exact ⟨fun _ => .none, rfl⟩
    | hwClearTxInterruptFlag => exact ⟨fun _ => .none, rfl⟩
    | hwClearRxInterruptFlag => exact ⟨fun _ => .none, rfl⟩
    | hwClearRxOverflowFlag => exact ⟨fun _ => .none, rfl⟩
    | _ => cases hcap

/-- The state that it answers: as it was, or after the call, but for the results. -/
theorem exec_queryOrCapability_next {i : Instr} {s t : State} (hi : QueryOrCapability i) (h : exec i s = .next t) :
    ∃ u l, t = u.setResults l ∧ (u = s ∨ u = s.afterCall i) := by
  obtain ⟨v, hv⟩ := exec_queryOrCapability hi s
  rw [hv] at h
  rcases guarded_cases i s fun t => answer .ok (v t) (t.afterCall i) with ⟨-, e⟩ | ⟨-, e⟩ | ⟨-, e⟩ <;>
    (rw [e] at h; cases h)
  · exact ⟨s.afterCall i, _, rfl, .inr rfl⟩
  · exact ⟨s, s.results, rfl, .inl rfl⟩
  · exact ⟨s, _, rfl, .inl rfl⟩

/-! ## What a call leaves unchanged -/

section
variable (s : State) (i : Instr)

/-- A call writes at most the armed flag, the platform, the trace and the free-value counter. -/
theorem afterCall_block : (s.afterCall i).rx = s.rx ∧ (s.afterCall i).tx = s.tx ∧
    (s.afterCall i).txArmReq = s.txArmReq ∧ (s.afterCall i).overrun = s.overrun ∧ (s.afterCall i).fgSeq = s.fgSeq ∧
    (s.afterCall i).isrSeq = s.isrSeq ∧ (s.afterCall i).ports = s.ports ∧ (s.afterCall i).turns = s.turns ∧
    (s.afterCall i).issue = s.issue ∧ (s.afterCall i).cfg = s.cfg := by
  cases i <;> exact ⟨rfl, rfl, rfl, rfl, rfl, rfl, rfl, rfl, rfl, rfl⟩

/-- No call moves a byte on the line. -/
theorem afterCall_line :
    (s.afterCall i).plat.lineOut = s.plat.lineOut ∧ (s.afterCall i).plat.lineIn = s.plat.lineIn := by
  cases i <;> exact ⟨rfl, rfl⟩

variable {i}

theorem afterCall_txArmed (h : ∀ e, i ≠ .hwSetTxInterruptEnabled e) : (s.afterCall i).txArmed = s.txArmed := by
  cases i with
  | hwSetTxInterruptEnabled e => exact absurd rfl (h e)
  | _ => rfl

theorem afterCall_txFlag (h : i ≠ .hwClearTxInterruptFlag) : (s.afterCall i).plat.txFlag = s.plat.txFlag := by
  cases i with
  | hwClearTxInterruptFlag => exact absurd rfl h
  | _ => rfl

theorem afterCall_rxFlag (h : i ≠ .hwClearRxInterruptFlag) : (s.afterCall i).plat.rxFlag = s.plat.rxFlag := by
  cases i with
  | hwClearRxInterruptFlag => exact absurd rfl h
  | _ => rfl

theorem afterCall_rxOvfFlag (h : i ≠ .hwClearRxOverflowFlag) : (s.afterCall i).plat.rxOvfFlag = s.plat.rxOvfFlag := by
  cases i with
  | hwClearRxOverflowFlag => exact absurd rfl h
  | _ => rfl

theorem afterCall_txFifo (h : ∀ b, i ≠ .hwTxFifoWrite b) : (s.afterCall i).plat.txFifo = s.plat.txFifo := by
  cases i with
  | hwTxFifoWrite b => exact absurd rfl (h b)
  | _ => rfl

theorem afterCall_rxFifo (h : i ≠ .hwRxFifoRead) :
    (s.afterCall i).plat.rxFifo = s.plat.rxFifo ∧ (s.afterCall i).freeCount = s.freeCount := by
  cases i with
  | hwRxFifoRead => exact absurd rfl h
  | _ => exact ⟨rfl, rfl⟩

theorem afterCall_of_not_cap (h : i.mnemonic.port ≠ .cap) : s.afterCall i = s := by
  cases i with
  | hwTxFifoFreeSlots | hwTxFifoWrite | hwRxFifoOccupancy | hwRxFifoRead | hwSetTxInterruptEnabled
  | hwClearTxInterruptFlag | hwClearRxInterruptFlag | hwClearRxOverflowFlag => exact absurd rfl h
  | _ => rfl

end

/-- Settles O58: the state is left as it was but for the results, or a capability call has written what is its own. -/
theorem queryAndCapabilityFrame : Obligations.QueryAndCapabilityFrame := by
  intro i s t hi h
  obtain ⟨u, l, rfl, rfl | rfl⟩ := exec_queryOrCapability_next hi h
  · exact ⟨rfl, rfl, fun q a => u.setResults_cell l q a, rfl, rfl, rfl, rfl, rfl, rfl, rfl, rfl, rfl, rfl, fun _ => rfl,
      fun _ => rfl, fun _ => rfl, fun _ => rfl, fun _ => rfl, fun _ => ⟨rfl, rfl⟩, fun _ => ⟨rfl, rfl⟩⟩
  · obtain ⟨hrx, htx, harmReq, hoverrun, hfg, hisr, hports, hturns, hissue, hcfg⟩ := afterCall_block s i
    obtain ⟨hout, hin⟩ := afterCall_line s i
    refine ⟨hrx, htx, cell_congr (congrArg Ring.storage hrx) (congrArg Ring.storage htx), harmReq, hoverrun, hfg, hisr,
      hports, hturns, hissue, hcfg, hout, hin, afterCall_txArmed s, afterCall_txFlag s, afterCall_rxFlag s,
      afterCall_rxOvfFlag s, afterCall_txFifo s, afterCall_rxFifo s, fun hport => ?_⟩
    have hsame : s.afterCall i = s := afterCall_of_not_cap s hport
    exact ⟨congrArg (·.plat) hsame, congrArg (·.trace) hsame⟩

end Sys2Proof.Machine
end

section
/-! The foreground operations as they answer: SUBMIT, TRY_RECEIVE and DRAIN_RECEIVED each as a whole, and a drain as
TRY_RECEIVE repeated until EMPTY (41 R140, R145, R147, R148). -/

namespace Sys2Proof.Machine

/-- Settles O6: the whole run of SUBMIT stores what fits and arms once for it. -/
theorem submitAcceptsFittingPrefixAndArms : Obligations.SubmitAcceptsFittingPrefixAndArms :=
  fun _ _ hi hm => exec_submit_whole hi hm

/-- Settles O7: FG sees the ring empty, or the invariant has a byte in the cell that it reads next. -/
theorem tryReceiveTakesOldestOrEmpty : Obligations.TryReceiveTakesOldestOrEmpty := by
  intro s hi hm
  refine ⟨exec_tryReceive_empty hm, fun hne => ?_⟩
  obtain ⟨b, hb⟩ := hi.rx.head_written hne
  obtain ⟨hr, -, -, -⟩ := hi.rx.inRange
  exact ⟨b, hb, exec_tryReceive_taken hm hr hne hb⟩

/-- Settles O8: the whole run of DRAIN_RECEIVED takes every byte that FG sees. -/
theorem drainReturnsAllSeenBytes : Obligations.DrainReturnsAllSeenBytes :=
  fun _ hi hm => exec_drainReceived_whole hi hm

/-! ## TRY_RECEIVE until EMPTY -/

/-- A call that returns EMPTY is the last. -/
theorem tryUntilEmpty_empty {s t : State} (h : exec .tryReceive s = .next (t.ret .fg .empty .none)) (fuel : Nat) :
    tryUntilEmpty (fuel + 1) s = some ([], t.ret .fg .empty .none) := by
  simp [tryUntilEmpty, h]

/-- A call that returns a byte collects it, and the calls go on. -/
theorem tryUntilEmpty_byte {s t : State} {b : Byte} (h : exec .tryReceive s = .next (t.ret .fg .ok (.byte b)))
    (fuel : Nat) :
    tryUntilEmpty (fuel + 1) s =
      (tryUntilEmpty fuel (t.ret .fg .ok (.byte b))).map fun x => (b :: x.1, x.2) := by
  simp [tryUntilEmpty, h]

/-- The consumer sees no byte exactly if its two indices are equal. -/
theorem consumerLen_eq_zero_iff {s : State} {r : RingId} (h : (s.ring r).InRange (s.cap r)) :
    consumerLen r s = 0 ↔ (s.ring r).wrSeen = (s.ring r).readIndex := by
  obtain ⟨hr, -, -, hw⟩ := h
  exact dist_eq_zero _ _ _ hw hr

/-- As many bytes as there are cells. -/
theorem length_of_cellsFromRead {bs : List Byte} {r : RingId} {n : Nat} {s : State}
    (h : bs.map some = cellsFromRead r n s) : bs.length = n := by
  simpa [cellsFromRead] using congrArg List.length h

/-- TRY_RECEIVE until EMPTY collects the bytes `bs` that FG sees, and releases their cells. -/
theorem tryUntilEmpty_collects {bs : List Byte} {s : State} {fuel : Nat} (hm : MayRunWhole .tryReceive s)
    (hr : s.rx.InRange s.cfg.rxCap) (hbs : bs.map some = cellsFromRead .rx (consumerLen .rx s) s)
    (hf : bs.length < fuel) :
    ∃ l, tryUntilEmpty fuel s =
      some (bs, (s.setRing .rx (ringConsumed s.cfg.rxCap s.cfg.syncLag bs.length s.rx)).setResults l) := by
  have hlen := length_of_cellsFromRead hbs
  induction bs generalizing s fuel with
  | nil =>
    obtain ⟨n, rfl⟩ := Nat.exists_eq_add_of_lt hf
    have he := (consumerLen_eq_zero_iff (r := .rx) hr).mp hlen.symm
    refine ⟨s.results ++ [⟨.fg, .empty, .none⟩], ?_⟩
    rw [tryUntilEmpty_empty (exec_tryReceive_empty hm he), List.length_nil, ringConsumed_zero _ _ _ hr.1]
    rfl
  | cons b bs ih =>
    obtain ⟨n, rfl⟩ := Nat.exists_eq_add_of_lt hf
    rw [List.length_cons] at hlen hf
    have hpos : consumerLen .rx s ≠ 0 := by omega
    have hne := mt (consumerLen_eq_zero_iff (r := .rx) hr).mpr hpos
    rw [← hlen, cellsFromRead_succ .rx bs.length s hr, List.map_cons, List.cons.injEq] at hbs
    obtain ⟨hb, hrest⟩ := hbs
    have hless := consumerLen_consumed (r := .rx) hr hpos
    rw [← hlen, Nat.add_sub_cancel] at hless
    obtain ⟨l, hl⟩ := ih (fuel := bs.length + 1 + n)
      (s := (s.setRing .rx (ringConsumed s.cfg.rxCap s.cfg.syncLag 1 s.rx)).ret .fg .ok (.byte b)) hm
      (ringConsumed_inRange hr) (hrest.trans (congrArg (cellsFromRead .rx · _) hless.symm)) (by omega) hless.symm
    refine ⟨l, ?_⟩
    rw [List.length_cons, tryUntilEmpty_byte (exec_tryReceive_taken hm hr.1 hne hb.symm), hl,
      ringConsumed_succ _ _ bs.length]
    rfl

/-- Settles O9: both collect the bytes that FG sees and release their cells. -/
theorem drainEqualsRepeatedTryReceive : Obligations.DrainEqualsRepeatedTryReceive := by
  intro s hi hp hm
  obtain ⟨bs, hbs, hdrain⟩ := exec_drainReceived_whole hi hm
  have hlen : bs.length < s.cfg.rxCap := length_of_cellsFromRead hbs ▸ hi.consumerLen_lt_cap .rx
  obtain ⟨⟨-, hready⟩, hwhole⟩ := hm
  obtain ⟨l, htry⟩ := tryUntilEmpty_collects ⟨⟨hp, hready⟩, hwhole⟩ hi.rx.inRange hbs hlen
  exact ⟨bs, _, _, hdrain, rfl, htry, rfl⟩

end Sys2Proof.Machine
end

section
/-! Two SUBMITs in a row against the SUBMIT of both byte sequences (41 R143). -/

namespace Sys2Proof.Machine

/-! ## Storing twice -/

/-- Storing `as`, then `bs`. -/
theorem ringStored_append (cap : Nat) (lag : Bool) (as bs : List Byte) {x : Ring} (h : x.writeIndex < cap) :
    ringStored cap lag (as ++ bs) x = ringStored cap lag bs (ringStored cap lag as x) := by
  induction as generalizing x with
  | nil => rw [List.nil_append, ringStored_nil _ _ _ h]
  | cons a as ih =>
    have hnext : (ringStored cap lag [a] x).writeIndex < cap := Nat.mod_lt _ (Nat.zero_lt_of_lt h)
    rw [List.cons_append, ringStored_cons _ _ _ _ _ h, ih hnext, ringStored_cons _ _ _ as _ h]

/-- Moving on by `n` adds `n` to a distance that stays below the capacity. -/
theorem dist_add_left {cap a b n : Nat} (ha : a < cap) (hb : b < cap) (h : dist cap a b + n < cap) :
    dist cap ((a + n) % cap) b = dist cap a b + n := by
  rw [dist_eq cap a b ha hb] at *
  rw [dist_eq _ _ _ (Nat.mod_lt _ (Nat.zero_lt_of_lt ha)) hb, add_mod_eq cap a n ha (by omega)]
  split_ifs at * <;> omega

/-- Bytes stored take as much of the room. -/
theorem roomSeen_storedRun {s t : State} {r : RingId} (h : (s.ring r).InRange (s.cap r)) {bs : List Byte}
    (hcap : t.cap r = s.cap r) (hring : t.ring r = ringStored (s.cap r) s.cfg.syncLag bs (s.ring r))
    (hfit : bs.length ≤ roomSeen r s) : roomSeen r t = roomSeen r s - bs.length := by
  obtain ⟨-, hw, hrd, -⟩ := h
  simp only [roomSeen, producerLen, hcap, hring] at *
  have := dist_lt (s.cap r) (s.ring r).writeIndex (s.ring r).rdSeen (by omega)
  simp only [ringStored]
  rw [dist_add_left hw hrd (by omega)]
  omega

/-! ## SUBMIT field by field -/

/-- The state after a SUBMIT that has accepted `bs` (41 R140, R142; 42 R170). -/
def State.submitted (s : State) (bs : List Byte) : State :=
  { s with
    tx := ringStored s.cfg.txCap s.cfg.syncLag bs s.tx
    txArmed := s.txArmed || (!s.cfg.syncLag && bs != [])
    txArmReq := s.txArmReq || (s.cfg.syncLag && bs != [])
    trace := s.trace ++ if s.cfg.syncLag = false ∧ bs ≠ [] then [.setEnabled true] else []
    results := s.results ++ [⟨.fg, .ok, .nat bs.length⟩] }

/-- A whole SUBMIT leads to the state that has accepted the bytes that fit. -/
theorem exec_submit_submitted {bytes : List Byte} {s : State} (hi : StateInv s) (hm : MayRunWhole (.submit bytes) s) :
    exec (.submit bytes) s = .next (s.submitted (bytes.take (roomSeen .tx s))) := by
  refine (exec_submit_whole hi hm).trans (congrArg _ ?_)
  generalize bytes.take (roomSeen .tx s) = bs
  by_cases hb : bs = []
  · simp [State.submitted, State.setRing, State.ret, hb]
  · cases hl : s.cfg.syncLag <;>
      simp [State.submitted, State.setRing, State.ret, armTx, setTxInterrupt, State.setArmed, State.setArmReq,
        State.emit, hb, hl]

/-- Accepting `as`, then `bs`, is accepting both at once, but for the trace and the results. -/
theorem State.submitted_append {s : State} (h : s.tx.writeIndex < s.cfg.txCap) (as bs : List Byte) :
    { (s.submitted as).submitted bs with
      trace := (s.submitted (as ++ bs)).trace, results := (s.submitted (as ++ bs)).results } =
      s.submitted (as ++ bs) := by
  have hsome : (as ++ bs != []) = (as != [] || bs != []) := by cases as <;> rfl
  simp only [State.submitted, ringStored_append _ _ as bs h, hsome, Bool.or_assoc, ← Bool.and_or_distrib_left]

/-- The calls of two SUBMITs are those of the one, and one more arm call if both armed at once. -/
theorem State.submitted_append_trace (s : State) (as bs : List Byte) :
    ((s.submitted as).submitted bs).trace = (s.submitted (as ++ bs)).trace ++
      if s.cfg.syncLag = false ∧ as ≠ [] ∧ 1 ≤ bs.length then [.setEnabled true] else [] := by
  cases hl : s.cfg.syncLag with
  | true => simp [State.submitted, hl]
  | false =>
    by_cases ha : as = []
    · simp [State.submitted, ha]
    · cases bs <;> simp [State.submitted, hl, ha]

/-! ## The second SUBMIT -/

/-- An operation that answers keeps the invariant. -/
theorem StateInv.of_exec {s t : State} (hi : StateInv s) {i : Instr} (h : exec i s = .next t) : StateInv t := by
  have hl := exec_leads i s
  rw [h] at hl
  exact Acts.inv hi hl

/-- Settles O10: the second SUBMIT finds the room that the first has left, and stores where it has stopped. -/
theorem splitSubmitEqualsLongSubmit : Obligations.SplitSubmitEqualsLongSubmit := by
  intro a b s t u v hi hm ht hall hu hv
  have hit : StateInv t := hi.of_exec ht
  rw [exec_submit_submitted hi hm] at ht
  cases ht
  have hfit : a.length ≤ roomSeen .tx s := by simpa [State.submitted] using hall
  rw [List.take_of_length_le hfit] at hit hu ⊢
  have hroom : roomSeen .tx (s.submitted a) = roomSeen .tx s - a.length :=
    roomSeen_storedRun (r := .tx) hi.tx.inRange rfl rfl hfit
  have hmt : MayRunWhole (.submit b) (s.submitted a) := hm
  have hml : MayRunWhole (.submit (a ++ b)) s := hm
  rw [exec_submit_submitted hit hmt, hroom] at hu
  rw [exec_submit_submitted hi hml, List.take_append, List.take_of_length_le hfit] at hv
  cases hu
  cases hv
  generalize b.take (roomSeen .tx s - a.length) = bs
  obtain ⟨-, hw, -, -⟩ := hi.tx.inRange
  exact ⟨State.submitted_append hw a bs, bs.length, rfl, by simp [State.submitted], s.submitted_append_trace a bs⟩

end Sys2Proof.Machine
end

section
/-! The handlers as they answer: ON_TX_READY with and without a byte to send, and ON_RX_READY (42 R160 to R167, R174 to
R178). -/

namespace Sys2Proof.Machine

/-- Settles O11: the whole run of ON_TX_READY sends what the ring and the budget allow. -/
theorem txHandlerThrottlesAndAcknowledges : Obligations.TxHandlerThrottlesAndAcknowledges :=
  fun _ hi hm => exec_onTxReady_whole hi hm

/-- Settles O13: the whole run of ON_RX_READY reads the reported number of bytes and stores those that fit. -/
theorem rxHandlerStoresFittingDropsNewest : Obligations.RxHandlerStoresFittingDropsNewest :=
  fun _ hi hm => exec_onRxReady_whole hi hm

/-! ## ON_TX_READY with nothing to send -/

theorem taskStep_x0 (free sent : Nat) (s : State) :
    taskStep (.onTxReady free sent .x0) s = .ok (.busy (.onTxReady (freeAnswer s) 0 .x1), callFreeSlots s) := rfl

theorem taskStep_x4 (free sent : Nat) (s : State) :
    taskStep (.onTxReady free sent .x4) s = .ok (.busy (.onTxReady free sent .x5), callClearTxFlag s) := rfl

theorem taskStep_x5 (free sent : Nat) (s : State) :
    taskStep (.onTxReady free sent .x5) s = .ok (.idle, leaveHandler (s.ret .isrTx .ok .none)) := rfl

/-- On a ring that it sees empty ON_TX_READY takes the four micro-steps X0, X1, X4 and X5, from every state: it asks for
the budget, disarms, acknowledges and returns (42 R163). -/
theorem exec_onTxReady_empty {s : State} (hm : MayRunWhole .onTxReady s) (he : s.tx.wrSeen = s.tx.readIndex) :
    exec .onTxReady s = .next
      { s with
        txArmed := false
        plat := { s.plat with freeReports := s.plat.freeReports.tail, txFlag := false }
        trace := s.trace ++ [.freeSlots (freeAnswer s), .setEnabled false, .clearTxFlag]
        results := s.results ++ [⟨.isrTx, .ok, .none⟩] } := by
  refine guarded_launch_ends hm (onTxReady_isr_idle hm.1) ?_
  change runSeq .isr (5 * s.cfg.txCap + 4) (s.setSeq .isr (.busy (.onTxReady 0 0 .x0))) =
    .ok (State.setSeq _ .isr .idle)
  have hseen : (callFreeSlots s).tx.wrSeen = (callFreeSlots s).tx.readIndex := he
  rw [runSeq_step .isr _ (taskStep_x0 0 0 s), runSeq_step .isr _ (taskStep_x1_empty hseen),
    runSeq_step .isr _ (taskStep_x4 _ _ _), runSeq_step .isr _ (taskStep_x5 _ _ _), runSeq_setSeq_idle]
  simp [callClearTxFlag, setTxInterrupt, callFreeSlots, leaveHandler, State.setSeq, State.setArmed, State.setPlat,
    State.emit, State.ret]

/-- Settles O12: the handler's run on such a ring makes the three calls and touches neither the ring nor the FIFO. -/
theorem emptyTxHandlerMakesZeroWrites : Obligations.EmptyTxHandlerMakesZeroWrites :=
  fun _ hm he => ⟨_, exec_onTxReady_empty hm he, rfl, rfl, rfl, rfl, rfl⟩

end Sys2Proof.Machine
end

section
/-! The capability operations in closed form (43 R190 to R198), the dispatch of the two handlers (43 R211, 60 R230) and
the reference platform's steps (43 R206 to R210). -/

namespace Sys2Proof.Machine

/-! ## A capability call that may run -/

/-- An operation of the CAP port that may run makes its call and answers OK to its issuer (43 R200). -/
theorem exec_call {i : Instr} {s u : State} {v : State → Value} {call : State → State} (hm : MayRun i s)
    (he : exec i s = guarded i s fun t => answer .ok (v t) (call t)) (hu : call s = u)
    (hissue : u.issue = s.issue) : exec i s = .next (u.ret s.issue.agent .ok (v s)) := by
  rw [he, guarded_run hm, hu, answer, hissue]

/-! ## The FIFO counts (43 R190, R192, R198) -/

section
variable {s : State}

theorem freeAnswer_truthful (h : s.plat.freeReports = []) :
    freeAnswer s = s.cfg.fifoTxCap - s.plat.txFifo.length := by
  simp only [freeAnswer, h]

theorem freeAnswer_report {n : Nat} {l : List Nat} (h : s.plat.freeReports = n :: l) : freeAnswer s = n := by
  simp only [freeAnswer, h]

theorem occAnswer_truthful (h : s.plat.occReports = []) : occAnswer s = s.plat.rxFifo.length := by
  simp only [occAnswer, h]

theorem occAnswer_report {n : Nat} {l : List Nat} (h : s.plat.occReports = n :: l) : occAnswer s = n := by
  simp only [occAnswer, h]

/-- A truthful count uses up no report. -/
theorem callFreeSlots_truthful (h : s.plat.freeReports = []) :
    callFreeSlots s = s.emit (.freeSlots (s.cfg.fifoTxCap - s.plat.txFifo.length)) := by
  rw [callFreeSlots, freeAnswer_truthful h, h, List.tail_nil, ← h]
  rfl

theorem callFreeSlots_report {n : Nat} {l : List Nat} (h : s.plat.freeReports = n :: l) :
    callFreeSlots s = (s.setPlat { s.plat with freeReports := l }).emit (.freeSlots n) := by
  rw [callFreeSlots, freeAnswer_report h, h, List.tail_cons]

theorem callOccupancy_truthful (h : s.plat.occReports = []) :
    callOccupancy s = s.emit (.occupancy s.plat.rxFifo.length) := by
  rw [callOccupancy, occAnswer_truthful h, h, List.tail_nil, ← h]
  rfl

theorem callOccupancy_report {n : Nat} {l : List Nat} (h : s.plat.occReports = n :: l) :
    callOccupancy s = (s.setPlat { s.plat with occReports := l }).emit (.occupancy n) := by
  rw [callOccupancy, occAnswer_report h, h, List.tail_cons]

end

/-- Settles O14: with no report pending the two queries answer the FIFOs' counts, and the platform stays as it is. -/
theorem fifoCountsAreReported : Obligations.FifoCountsAreReported := by
  refine fun s => ⟨fun hm h => ?_, fun hm h => ?_⟩
  · rw [exec_call (v := fun t => .nat (freeAnswer t)) hm rfl (callFreeSlots_truthful h) rfl, freeAnswer_truthful h]
  · rw [exec_call (v := fun t => .nat (occAnswer t)) hm rfl (callOccupancy_truthful h) rfl, occAnswer_truthful h]

/-- Settles O15: a pending report is the answer, and is used up. -/
theorem untruthfulCountsAreTakenAsTheyAre : Obligations.UntruthfulCountsAreTakenAsTheyAre := by
  refine fun s n l => ⟨fun hm h => ?_, fun hm h => ?_⟩
  · rw [exec_call (v := fun t => .nat (freeAnswer t)) hm rfl (callFreeSlots_report h) rfl, freeAnswer_report h]
  · rw [exec_call (v := fun t => .nat (occAnswer t)) hm rfl (callOccupancy_report h) rfl, occAnswer_report h]

/-! ## The FIFOs' data (43 R191, R193) -/

/-- Settles O16: the call writes the FIFO in its closed form. -/
theorem fifoWriteAppendsOrLoses : Obligations.FifoWriteAppendsOrLoses :=
  fun b s hm => exec_call (v := fun _ => .none) hm rfl (callTxWrite_eq_afterCall b s) rfl

/-- Settles O17: the call takes the head of the FIFO if there is one, else the next free value. -/
theorem fifoReadConsumesOldest : Obligations.FifoReadConsumesOldest := by
  refine fun s hm => ⟨fun b l h => ?_, fun h => ⟨Config.freeByte s.freeCount, rfl, ?_⟩⟩
  · have hread : readAnswer s = b := by simp only [readAnswer, h]
    have hcall : callRxRead s = (s.setPlat { s.plat with rxFifo := l }).emit (.read b) := by
      simp only [callRxRead, h, hread]
    rw [exec_call (v := fun t => .byte (readAnswer t)) hm rfl hcall rfl, hread]
  · have hread : readAnswer s = Config.freeByte s.freeCount := by simp only [readAnswer, h]
    have hcall : callRxRead s = (s.setFreeCount (s.freeCount + 1)).emit (.read (Config.freeByte s.freeCount)) := by
      simp only [callRxRead, h, hread]
    rw [exec_call (v := fun t => .byte (readAnswer t)) hm rfl hcall rfl, hread]

/-! ## The flags (43 R194 to R197) -/

/-- Settles O18: the one call writes the flag, whatever it was. -/
theorem setEnabledWritesArmedFlag : Obligations.SetEnabledWritesArmedFlag :=
  fun e _ hm => exec_call (v := fun _ => .none) (call := setTxInterrupt e) hm rfl rfl rfl

/-- Settles O19: each call writes its flag, whatever it was. -/
theorem clearsClearTheirOwnFlag : Obligations.ClearsClearTheirOwnFlag := fun _ =>
  ⟨fun hm => exec_call (v := fun _ => .none) (call := callClearTxFlag) hm rfl rfl rfl,
    fun hm => exec_call (v := fun _ => .none) (call := callClearRxFlag) hm rfl rfl rfl,
    fun hm => exec_call (v := fun _ => .none) (call := callClearRxOvf) hm rfl rfl rfl⟩

/-! ## Dispatch (43 R211, 60 R230, R238) -/

theorem dispatchEnabled_iff (src : Source) (s : State) :
    dispatchEnabled src s = true ↔ requested src s = true ∧ s.isrSeq = .idle := by
  simp only [dispatchEnabled, Bool.and_eq_true, beq_iff_eq]

/-- Settles O50: a dispatch is enabled exactly under the request and an idle sequencer, and enters the handler. -/
theorem dispatchEntersRequestedHandler : Obligations.DispatchEntersRequestedHandler := by
  refine fun s => ⟨?_, ?_⟩ <;> simp only [runTurn, dispatchEnabled_iff, requested, Bool.and_eq_true, and_assoc] <;> rfl

/-! ## The platform (43 R206 to R210) -/

theorem runTurn_plat {x : PlatStep} {s : State} (h : platEnabled x s = true) :
    runTurn (.plat x) s = .next (platStep x s) := by
  rw [runTurn, if_pos h]

theorem runTurn_plat_disabled {x : PlatStep} {s : State} (h : platEnabled x s = false) :
    runTurn (.plat x) s = .next s := by
  rw [runTurn, if_neg (by simp [h])]

/-- A flag's step raises it at its level, and leaves a raised one (43 R207, R209). -/
theorem runTurn_flag {x : PlatStep} {s : State} {flag level : Bool} {put : Bool → Platform}
    (hen : platEnabled x s = (level && !flag)) (hstep : platStep x s = s.setPlat (put true))
    (hput : put flag = s.plat) : runTurn (.plat x) s = .next (s.setPlat (put (flag || level))) := by
  have hsame : s.setPlat (put flag) = s := by rw [hput]; rfl
  cases flag with
  | true => rw [runTurn_plat_disabled (by simp [hen]), Bool.true_or, hsame]
  | false =>
    cases level with
    | true => rw [runTurn_plat (by simp [hen]), hstep, Bool.false_or]
    | false => rw [runTurn_plat_disabled (by simp [hen]), Bool.false_or, hsame]

/-- Settles O55: a FIFO's step depends on whether it has a byte to move and room for it, a flag's on its level. -/
theorem platformStepsAreAsListed : Obligations.PlatformStepsAreAsListed := by
  refine fun s b l => ⟨fun h => ?_, fun h => runTurn_plat_disabled (by simp [platEnabled, h]),
    runTurn_flag (put := fun v => { s.plat with txFlag := v }) rfl rfl rfl,
    runTurn_flag (put := fun v => { s.plat with rxFlag := v }) rfl rfl rfl, fun h hroom => ?_, fun h hfull => ?_,
    fun h => runTurn_plat_disabled (by simp [platEnabled, h])⟩
  · rw [runTurn_plat (by simp [platEnabled, h])]
    simp only [platStep, h]
  · rw [runTurn_plat (by simp [platEnabled, h])]
    simp only [platStep, h, if_pos hroom]
  · rw [runTurn_plat (by simp [platEnabled, h])]
    simp only [platStep, h, if_neg (Nat.not_lt.mpr hfull)]

end Sys2Proof.Machine
end

section
/-! The transmit side as a machine of its own: how many bytes are where, the armed flag and its request, the TX-ready
flag, and where ON_TX_READY is (42 R160). What it keeps, and what a handler that has begun is bound to do. -/

namespace Sys2Proof.Machine

/-- Where ON_TX_READY is: nowhere, at X0, at X1 with so much of its budget left, at X3, at the write that ends X3, at X4,
at X5 (42 R160). -/
inductive TxPhase where
  | away
  | ask
  | test (left : Nat)
  | take
  | write
  | ack
  | back

/-- The bytes in flight. -/
def TxPhase.held : TxPhase → Nat
  | .write => 1
  | _ => 0

/-- The transmit side: the slots of the hardware FIFO; the bytes on the line, in the FIFO, in the ring as its consumer
sees it, and in the ring; the armed flag, its request, the TX-ready flag; the handler. -/
structure TxView where
  slots : Nat
  line : Nat
  fifo : Nat
  seen : Nat
  live : Nat
  armed : Bool
  armReq : Bool
  flag : Bool
  phase : TxPhase

/-- The bytes that have left the ring. -/
def TxView.sent (v : TxView) : Nat := v.line + v.fifo + v.phase.held

/-- Everything that a move of the driver does to the transmit side. -/
inductive TxStep (v : TxView) : TxView → Prop
  /-- FG, the synchroniser, PL_TX_FLAG and everything on the receive side. -/
  | other {seen live : Nat} {armed armReq flag : Bool} (hseen : v.seen ≤ seen) (hlive : v.live ≤ live)
      (harmed : v.armed = true → armed = true) (hreq : v.armReq = true → armReq = true)
      (hflag : v.flag = true → flag = true) :
      TxStep v { v with seen := seen, live := live, armed := armed, armReq := armReq, flag := flag }
  /-- SY_TXW with an arm request (20 R74). -/
  | deliver (hle : v.seen ≤ v.live) : TxStep v { v with seen := v.live, armed := true, armReq := false }
  /-- PL_TX_SHIFT (43 R206). -/
  | shift {n : Nat} (h : v.fifo = n + 1) : TxStep v { v with line := v.line + 1, fifo := n }
  | enter (h : v.phase = .away) : TxStep v { v with phase := .ask }
  | ask (h : v.phase = .ask) : TxStep v { v with phase := .test (v.slots - v.fifo) }
  | go {n : Nat} (h : v.phase = .test n) : TxStep v { v with phase := .take }
  | disarm {n : Nat} (h : v.phase = .test n) (hempty : v.seen = 0) : TxStep v { v with armed := false, phase := .ack }
  | spent (h : v.phase = .test 0) : TxStep v { v with phase := .ack }
  | taking (h : v.phase = .take) : TxStep v v
  | take {n m : Nat} (h : v.phase = .take) (hseen : v.seen = n + 1) (hlive : v.live = m + 1) :
      TxStep v { v with seen := n, live := m, phase := .write }
  | write {n : Nat} (h : v.phase = .write) : TxStep v { v with fifo := v.fifo + 1, phase := .test n }
  | ack (h : v.phase = .ack) : TxStep v { v with flag := false, phase := .back }
  | back (h : v.phase = .back) : TxStep v { v with phase := .away }

theorem TxStep.refl (v : TxView) : TxStep v v := .other le_rfl le_rfl id id id

/-! ## What a transmission needs -/

/-- Of the first `n` bytes of the stream those that are still in the ring are seen by the interrupt side, and if there
is one it is armed. -/
def TxView.Served (n : Nat) (v : TxView) : Prop := n ≤ v.sent + v.seen ∧ (v.sent < n → v.armed = true)

/-- ... or that is what a waiting arm request will bring. -/
def TxView.Promised (n : Nat) (v : TxView) : Prop := v.Served n ∨ v.armReq = true ∧ n ≤ v.sent + v.live

/-- ON_TX_READY is bound to take a byte from the ring: it sees one, and has or will get a budget for it. -/
def TxView.Bound (v : TxView) : Prop :=
  match v.phase with
  | .ask => v.fifo < v.slots ∧ v.seen ≠ 0
  | .test left => left ≠ 0 ∧ v.seen ≠ 0
  | .take => True
  | _ => False

/-- With more in sight and more room it is bound all the same. -/
theorem TxView.Bound.mono {v w : TxView} (h : v.Bound) (hphase : w.phase = v.phase) (hseen : v.seen ≤ w.seen)
    (hfifo : w.fifo ≤ v.fifo) (hslots : w.slots = v.slots) : w.Bound := by
  unfold TxView.Bound at *
  rw [hphase, hslots]
  cases hp : v.phase with
  | ask => simp only [hp] at h ⊢; omega
  | test left => simp only [hp] at h ⊢; omega
  | _ => simp only [hp] at h ⊢

/-- A byte waits, the hardware FIFO is empty, and ON_TX_READY does not run. -/
def TxView.Waiting (v : TxView) : Prop := v.seen ≠ 0 ∧ v.fifo = 0 ∧ 0 < v.slots ∧ v.phase = .away

/-- What holds of the transmit side some time later. -/
structure TxLater (v w : TxView) : Prop where
  line : v.line ≤ w.line
  out : v.line + v.fifo ≤ w.line + w.fifo
  sent : v.sent ≤ w.sent
  served : ∀ n, v.Served n → w.Served n
  promised : ∀ n, v.Promised n → w.Promised n
  bound : v.Bound → w.Bound ∨ v.sent < w.sent
  waiting : v.Waiting → w.Waiting ∧ (v.flag = true → w.flag = true) ∨ w.Bound ∨ v.sent < w.sent

theorem TxLater.refl (v : TxView) : TxLater v v :=
  ⟨le_rfl, le_rfl, le_rfl, fun _ => id, fun _ => id, .inl, fun h => .inl ⟨h, id⟩⟩

theorem TxLater.trans {u v w : TxView} (h : TxLater u v) (h' : TxLater v w) : TxLater u w where
  line := h.line.trans h'.line
  out := h.out.trans h'.out
  sent := h.sent.trans h'.sent
  served n := h'.served n ∘ h.served n
  promised n := h'.promised n ∘ h.promised n
  bound hu := (h.bound hu).elim (fun hv => (h'.bound hv).imp_right h.sent.trans_lt) fun hv => .inr (hv.trans_le h'.sent)
  waiting hu := by
    rcases h.waiting hu with ⟨hv, hf⟩ | hv | hv
    · rcases h'.waiting hv with ⟨hw, hf'⟩ | hw | hw
      · exact .inl ⟨hw, hf' ∘ hf⟩
      · exact .inr (.inl hw)
      · exact .inr (.inr (h.sent.trans_lt hw))
    · exact .inr ((h'.bound hv).imp_right h.sent.trans_lt)
    · exact .inr (.inr (hv.trans_le h'.sent))

/-! ## A step keeps it -/

section
variable {v w : TxView} (h : TxStep v w)
include h

theorem TxStep.line_le : v.line ≤ w.line := by
  cases h <;> simp

theorem TxStep.out_le : v.line + v.fifo ≤ w.line + w.fifo := by
  cases h with
  | shift hf => simp only [hf]; omega
  | _ => simp

theorem TxStep.sent_le : v.sent ≤ w.sent := by
  cases h with
  | shift hf => simp only [TxView.sent, hf]; omega
  | _ => simp_all [TxView.sent, TxPhase.held]

/-- What is sent or seen stays so: X3 takes only bytes that it sees. -/
theorem TxStep.sent_add_seen_le : v.sent + v.seen ≤ w.sent + w.seen := by
  cases h with
  | shift hf => simp only [TxView.sent, hf]; omega
  | _ => simp_all [TxView.sent, TxPhase.held, Nat.add_assoc]

theorem TxStep.sent_add_live_le : v.sent + v.live ≤ w.sent + w.live := by
  cases h with
  | shift hf => simp only [TxView.sent, hf]; omega
  | _ => simp_all [TxView.sent, TxPhase.held, Nat.add_assoc]

/-- Only DISARM_TX disarms, where nothing is seen (42 R171). -/
theorem TxStep.served {n : Nat} (hv : v.Served n) : w.Served n := by
  obtain ⟨hseen, harmed⟩ := hv
  refine ⟨hseen.trans h.sent_add_seen_le, fun hlt => ?_⟩
  have hv := harmed (h.sent_le.trans_lt hlt)
  cases h with
  | disarm h hempty => simp only [TxView.sent, h, TxPhase.held] at hseen hlt; omega
  | other _ _ ha _ _ => exact ha hv
  | deliver => rfl
  | _ => exact hv

/-- A request waits until SY_TXW delivers it, with the whole ring in view (20 R74). -/
theorem TxStep.promised {n : Nat} (hv : v.Promised n) : w.Promised n := by
  rcases hv with hv | ⟨hreq, hlive⟩
  · exact .inl (h.served hv)
  · have hlive' := hlive.trans h.sent_add_live_le
    cases h with
    | deliver => exact .inl ⟨hlive, fun _ => rfl⟩
    | other _ _ _ hr _ => exact .inr ⟨hr hreq, hlive'⟩
    | _ => exact .inr ⟨hreq, hlive'⟩

/-- A handler that is bound to take a byte stays so until X3 takes it. -/
theorem TxStep.bound (hv : v.Bound) : w.Bound ∨ v.sent < w.sent := by
  cases h with
  | take h => right; simp [TxView.sent, TxPhase.held, h]
  | ask h => left; simp_all only [TxView.Bound]; omega
  | shift h => exact .inl (hv.mono rfl le_rfl (by simp [h]) rfl)
  | deliver hle => exact .inl (hv.mono rfl hle le_rfl rfl)
  | other hseen => exact .inl (hv.mono rfl hseen le_rfl rfl)
  | _ => simp_all [TxView.Bound]

/-- A waiting byte stays, and no flag is cleared, until ON_TX_READY is entered, which then is bound to take it. -/
theorem TxStep.waiting (hv : v.Waiting) :
    w.Waiting ∧ (v.flag = true → w.flag = true) ∨ w.Bound ∨ v.sent < w.sent := by
  obtain ⟨hseen, hfifo, hslots, hphase⟩ := hv
  cases h with
  | enter => right; left; simp [TxView.Bound, hseen, hfifo, hslots]
  | other hle _ _ _ hflag => left; exact ⟨⟨by simp; omega, hfifo, hslots, hphase⟩, hflag⟩
  | deliver hle => left; exact ⟨⟨by simp; omega, hfifo, hslots, hphase⟩, id⟩
  | _ => simp_all

theorem TxStep.later : TxLater v w :=
  ⟨h.line_le, h.out_le, h.sent_le, fun _ => h.served, fun _ => h.promised, h.bound, h.waiting⟩

end

end Sys2Proof.Machine
end

section
/-! The moves of the driver as steps of the transmit side. -/

namespace Sys2Proof.Machine

/-! ## The transmit side of a state -/

/-- Where ON_TX_READY is in the handlers' sequencer. -/
def txPhase : Seq → TxPhase
  | .busy (.onTxReady free sent stage) =>
    match stage with
    | .x0 => .ask
    | .x1 => .test (free - sent)
    | .x3 _ => .take
    | .x3w _ => .write
    | .x4 => .ack
    | .x5 => .back
  | _ => .away

/-- The transmit side of a state. -/
def State.txView (s : State) : TxView where
  slots := s.cfg.fifoTxCap
  line := s.plat.lineOut.length
  fifo := s.plat.txFifo.length
  seen := consumerLen .tx s
  live := trueLen .tx s
  armed := s.txArmed
  armReq := s.txArmReq
  flag := s.plat.txFlag
  phase := txPhase s.isrSeq

theorem txPhase_of_rxSeq {q : Seq} (h : RxSeq q) : txPhase q = .away := by
  unfold txPhase
  split
  case h_1 hs => exact (h _ rfl).elim
  case h_2 => rfl

theorem inFlight_length (s : State) : (inFlight s).length = (txPhase s.isrSeq).held := by
  cases hs : s.isrSeq with
  | idle => simp [inFlight, hs, txPhase, TxPhase.held]
  | busy task =>
    cases task with
    | onTxReady free sent stage => cases stage <;> simp [inFlight, hs, txPhase, TxPhase.held]
    | _ => simp [inFlight, hs, txPhase, TxPhase.held]

theorem liveCells_length (r : RingId) (s : State) : (liveCells r s).length = trueLen r s := by simp [liveCells]

/-- The bytes that the stream holds (10 R43). -/
theorem txStream_length (s : State) : (txStream s).length = s.txView.sent + s.txView.live := by
  simp only [txStream, List.length_append, List.length_map, inFlight_length, liveCells_length, TxView.sent,
    State.txView]

/-- A change that leaves what the transmit side reads leaves it. -/
theorem txView_congr {s t : State} (hc : t.cfg = s.cfg) (ht : t.tx = s.tx) (ha : t.txArmed = s.txArmed)
    (hr : t.txArmReq = s.txArmReq) (hf : t.plat.txFifo = s.plat.txFifo) (hl : t.plat.lineOut = s.plat.lineOut)
    (hg : t.plat.txFlag = s.plat.txFlag) (hp : txPhase t.isrSeq = txPhase s.isrSeq) : t.txView = s.txView := by
  simp only [State.txView, consumerLen, trueLen, State.ring, State.cap, hc, ht, ha, hr, hf, hl, hg, hp]

/-- A change that moves no byte to the FIFO or the line, with ON_TX_READY where it is: the ring and the flags may grow. -/
theorem TxStep.of_grown {s t : State} (hc : t.cfg = s.cfg) (hf : t.plat.txFifo = s.plat.txFifo)
    (hl : t.plat.lineOut = s.plat.lineOut) (hp : txPhase t.isrSeq = txPhase s.isrSeq)
    (hseen : consumerLen .tx s ≤ consumerLen .tx t) (hlive : trueLen .tx s ≤ trueLen .tx t)
    (ha : s.txArmed = true → t.txArmed = true) (hr : s.txArmReq = true → t.txArmReq = true)
    (hg : s.plat.txFlag = true → t.plat.txFlag = true) : TxStep s.txView t.txView := by
  have hview : t.txView = { s.txView with
      seen := consumerLen .tx t, live := trueLen .tx t, armed := t.txArmed, armReq := t.txArmReq,
      flag := t.plat.txFlag } := by
    simp only [State.txView, hc, hf, hl, hp]
  rw [hview]
  exact .other hseen hlive ha hr hg

/-! ## FG -/

/-- Without lag the consumer sees the whole ring (20 R75). -/
theorem StateInv.consumerLen_eq_trueLen {s : State} (hi : StateInv s) (r : RingId) (hl : s.cfg.syncLag = false) :
    consumerLen r s = trueLen r s :=
  ((viewsErrOnTheSafeSide s r hi).2.2.2 hl).1

/-- What a micro-step of FG leaves of the transmit side: the platform as it is, every arm and every byte; under lag what
the interrupt side sees. -/
structure FgStepped (s t : State) : Prop where
  plat : t.plat = s.plat
  armed : s.txArmed = true → t.txArmed = true
  armReq : s.txArmReq = true → t.txArmReq = true
  live : trueLen .tx s ≤ trueLen .tx t
  wrSeen : s.cfg.syncLag = true → t.tx.wrSeen = s.tx.wrSeen

theorem FgStepped.refl (s : State) : FgStepped s s := ⟨rfl, id, id, le_rfl, fun _ => rfl⟩

theorem FgStepped.ret {s t : State} (h : FgStepped s t) (a : Agent) (st : Status) (v : Value) :
    FgStepped s (t.ret a st v) :=
  ⟨h.plat, h.armed, h.armReq, h.live, h.wrSeen⟩

theorem FgStepped.of_onlyRx {s t : State} (h : OnlyRing .rx s t) : FgStepped s t := by
  have htx : t.tx = s.tx := h.other .tx (by simp)
  exact ⟨h.plat, h.armed ▸ id, h.armReq ▸ id, by simp [trueLen, State.cap, State.ring, htx, h.cfg], fun _ => by rw [htx]⟩

/-- A PUSH adds to the ring what it accepts, which the other side sees at once only without lag (40 R125). -/
theorem FgStepped.of_push {s t : State} {b : Byte} {p : PushStage} {o : PushNext} (hr : s.tx.Ok s.cfg.txCap)
    (hp : p.Ok s.cfg.txCap s.tx b) (h : pushStep .tx b p s = .ok (o, t)) : FgStepped s t := by
  have hone := pushStep_onlyRing _ _ _ _ _ _ h
  have hlen : trueLen .tx t = trueLen .tx s + (o.added b).length := by
    simpa only [List.length_append, List.length_map, liveCells_length] using
      congrArg List.length (pushStep_queue (r := .tx) hr hp h)
  refine ⟨hone.plat, hone.armed ▸ id, hone.armReq ▸ id, by omega, fun hl => ?_⟩
  rcases pushStep_cases .tx b p s t o h with ⟨-, -, -, rfl⟩ | ⟨-, -, -, rfl⟩ | ⟨l, -, -, -, rfl⟩ | ⟨l, -, -, rfl⟩
  · rfl
  · rfl
  · rfl
  · simp [setWriteIndex, hl]

/-- ARM_TX arms or requests it (42 R170). -/
theorem FgStepped.of_armTx (s : State) : FgStepped s (armTx s) := by
  unfold armTx
  split
  · exact ⟨rfl, id, fun _ => rfl, le_rfl, fun _ => rfl⟩
  · exact ⟨rfl, fun _ => rfl, id, le_rfl, fun _ => rfl⟩

/-- Everything that FG runs. -/
theorem taskStep_fgStepped {task : Task} {s u : State} {q : Seq} (hi : StateInv s) (hok : task.Ok .fg s)
    (he : taskStep task s = .ok (q, u)) : FgStepped s u := by
  have pop : ∀ {p o t}, popStep .rx p s = .ok (o, t) → FgStepped s t :=
    fun hp => .of_onlyRx (popStep_onlyRing _ _ _ _ _ hp)
  cases task with
  | submit bytes k stage =>
    cases stage with
    | s1 p =>
      obtain ⟨-, -, b, hb, hp⟩ := hok
      obtain ⟨o, hpush, -⟩ := taskStep_submit_s1 hb he
      exact .of_push hi.tx hp hpush
    | s2 =>
      cases he
      split
      · exact (FgStepped.of_armTx s).ret _ _ _
      · exact (FgStepped.refl s).ret _ _ _
  | tryReceive stage =>
    simp only [taskStep, tryReceiveStep] at he
    split at he <;> cases he
    · exact pop (by assumption)
    · exact (pop (by assumption)).ret _ _ _
    · exact (pop (by assumption)).ret _ _ _
  | drainReceived out stage =>
    simp only [taskStep, drainReceivedStep] at he
    split at he <;> cases he
    · exact pop (by assumption)
    · exact (pop (by assumption)).ret _ _ _
    · exact pop (by assumption)
  | push r b stage =>
    obtain ⟨hside, hp⟩ := hok
    cases r with
    | rx => cases hside
    | tx =>
      obtain ⟨o, t, hpush, hu⟩ := taskStep_push he
      have ht := FgStepped.of_push hi.tx hp hpush
      rcases hu with rfl | ⟨st, rfl⟩
      · exact ht
      · exact ht.ret _ _ _
  | pop r stage =>
    cases r with
    | tx => cases hok.1
    | rx =>
      obtain ⟨o, t, hpop, hu⟩ := taskStep_pop he
      rcases hu with rfl | ⟨st, v, rfl⟩
      · exact pop hpop
      · exact (pop hpop).ret _ _ _
  | onTxReady free sent stage => cases hok.1
  | onRxReady n i stage => cases hok.1

theorem txStep_fgMicro {s u : State} {task : Task} {q : Seq} (hi : StateInv s) (hs : s.fgSeq = .busy task)
    (he : taskStep task s = .ok (q, u)) : TxStep s.txView (u.setSeq .fg q).txView := by
  have hinv : StateInv (u.setSeq .fg q) := move_inv (fg := true) hi (.fgMicro rfl hs he)
  obtain ⟨hplat, harmed, hreq, hlive, hwr⟩ := taskStep_fgStepped hi (hi.taskOk (d := .fg) hs) he
  have hown := hi.taskStep_writesOwn (d := .fg) hs he
  obtain ⟨hread, -⟩ := hown.others .isr (by simp)
  have hlive' : trueLen .tx s ≤ trueLen .tx (u.setSeq .fg q) := by simpa [trueLen] using hlive
  refine .of_grown (by simpa using hown.cfg) (by simp [hplat]) (by simp [hplat]) (by simp [hown.isrSeq]) ?_ hlive'
    (by simpa using harmed) (by simpa using hreq) (by simp [hplat])
  cases hl : s.cfg.syncLag with
  | false =>
    rw [hi.consumerLen_eq_trueLen .tx hl, hinv.consumerLen_eq_trueLen .tx (by simpa [hown.cfg] using hl)]
    exact hlive'
  | true => simp [consumerLen, State.ring, State.cap, hwr hl, hread, hown.cfg]

end Sys2Proof.Machine
end

section
/-! The moves of the handlers, the synchroniser and the platform as steps of the transmit side. -/

namespace Sys2Proof.Machine

/-! ## ON_RX_READY -/

/-- Everything a micro-step of ON_RX_READY can do to its label and the platform (42 R174). -/
theorem taskStep_onRxReady_cases {n i : Nat} {stage : RxStage} {s u : State} {q : Seq}
    (h : taskStep (.onRxReady n i stage) s = .ok (q, u)) :
    (stage = .y0 ∧ q = .busy (rxRound (occAnswer s) 0) ∧ u = callOccupancy s) ∨
    (stage = .y2 ∧ q = .busy (.onRxReady n i (.y3 (readAnswer s) .p1)) ∧ u = callRxRead s) ∨
    (∃ b p, stage = .y3 b p ∧ u.plat = s.plat ∧
      ((∃ p', q = .busy (.onRxReady n i (.y3 b p'))) ∨ q = .busy (rxRound n (i + 1)))) ∨
    (stage = .y4 ∧ q = .busy (.onRxReady n i .y5) ∧ u = callClearRxOvf s) ∨
    (stage = .y5 ∧ q = .busy (.onRxReady n i .y6) ∧ u = callClearRxFlag s) ∨
    (stage = .y6 ∧ q = .idle ∧ u = leaveHandler (s.ret .isrRx .ok .none)) := by
  cases stage with
  | y3 b p =>
    have plat : ∀ {o t}, pushStep .rx b p s = .ok (o, t) → t.plat = s.plat :=
      fun hp => (pushStep_onlyRing _ _ _ _ _ _ hp).plat
    refine .inr (.inr (.inl ⟨b, p, rfl, ?_⟩))
    simp only [taskStep, onRxReadyStep] at h
    split at h <;> cases h
    · exact ⟨plat (by assumption), .inl ⟨_, rfl⟩⟩
    · rename_i hp; exact ⟨(plat hp :), .inr rfl⟩
    · exact ⟨plat (by assumption), .inr rfl⟩
  | _ => cases h; simp

/-- A micro-step of the handlers' side on the RX ring leaves the TX-ready flag. -/
theorem taskStep_rxTask_txFlag {task : Task} {s u : State} {q : Seq} (hok : task.Ok .isr s) (hk : RxTask task)
    (he : taskStep task s = .ok (q, u)) : u.plat.txFlag = s.plat.txFlag := by
  cases task with
  | push r b stage =>
    obtain ⟨o, t, hpush, hu⟩ := taskStep_push he
    have hplat := (pushStep_onlyRing _ _ _ _ _ _ hpush).plat
    rcases hu with rfl | ⟨st, rfl⟩ <;> exact congrArg Platform.txFlag hplat
  | onRxReady n i stage =>
    rcases taskStep_onRxReady_cases he with ⟨-, -, rfl⟩ | ⟨-, -, rfl⟩ | ⟨b, p, -, hplat, -⟩ | ⟨-, -, rfl⟩ |
      ⟨-, -, rfl⟩ | ⟨-, -, rfl⟩
    · rfl
    · rw [callRxRead_eq_afterCall]; rfl
    · rw [hplat]
    · rfl
    · rfl
    · rfl
  | pop r stage => cases hk; cases hok.1
  | tryReceive stage => cases hok.1
  | drainReceived out stage => cases hok.1
  | submit bytes k stage => exact hk.elim
  | onTxReady free sent stage => exact hk.elim

/-! ## ON_TX_READY -/

@[simp] theorem txView_setSeq_isr (s : State) (q : Seq) :
    (s.setSeq .isr q).txView = { s.txView with phase := txPhase q } := by
  simp [State.txView, consumerLen, trueLen]

theorem txView_setSeq_same {s u : State} {q : Seq} (hu : u.txView = s.txView) (hq : txPhase q = s.txView.phase) :
    (u.setSeq .isr q).txView = s.txView := by
  rw [txView_setSeq_isr, hu, hq]

/-- C3 of the TX ring takes one byte from what is seen and from what is there (40 R128). -/
theorem txView_release {s : State} (hi : StateInv s) (hne : s.tx.wrSeen ≠ s.tx.readIndex) :
    ∃ n m, s.txView.seen = n + 1 ∧ s.txView.live = m + 1 ∧
      (setReadIndex .tx (inc s.cfg.txCap s.tx.readIndex) s).txView = { s.txView with seen := n, live := m } := by
  obtain ⟨hread, hwrite, -, hview⟩ := hi.tx.inRange
  exact ⟨_, _, dist_inc_right hview hread hne, dist_inc_right hwrite hread (hi.tx.nonempty_of_seen hne), rfl⟩

/-- X3's pop takes a byte that the handler sees, and has it in flight (42 R160). -/
theorem txStep_x3 {s u : State} {free sent : Nat} {p : PopStage} {o : PopNext} (hi : StateInv s)
    (hs : s.isrSeq = .busy (.onTxReady free sent (.x3 p))) (hne : s.tx.wrSeen ≠ s.tx.readIndex) (hp : p.Ok s.tx)
    (h : popStep .tx p s = .ok (o, u)) :
    TxStep s.txView (u.setSeq .isr (.busy (txPopNext free sent o))).txView := by
  have hphase : s.txView.phase = .take := by simp [State.txView, hs, txPhase]
  have taking : ∀ p', u.txView = s.txView →
      TxStep s.txView (u.setSeq .isr (.busy (.onTxReady free sent (.x3 p')))).txView := fun p' hu => by
    have hview : (u.setSeq .isr (.busy (.onTxReady free sent (.x3 p')))).txView = s.txView :=
      txView_setSeq_same hu hphase.symm
    rw [hview]
    exact .taking hphase
  rcases popStep_cases .tx p s u o h with ⟨-, hempty, -, -⟩ | ⟨-, -, rfl, rfl⟩ | ⟨l, b, -, hm, rfl⟩ |
    ⟨l, b, rfl, rfl, rfl⟩
  · exact absurd hempty hne
  · exact taking _ rfl
  · rcases (memRead_ok .tx l.ri b s u hm).2 with ⟨-, rfl⟩ | ⟨-, -, rfl⟩ <;> exact taking _ rfl
  · obtain ⟨hri, -, -⟩ := hp
    obtain ⟨n, m, hseen, hlive, hview⟩ := txView_release hi hne
    rw [txView_setSeq_isr, State.cap_tx, hri, hview]
    exact .take hphase hseen hlive

/-- ON_TX_READY's micro-steps, on a truthful platform. -/
theorem txStep_onTxReady {s u : State} {free sent : Nat} {stage : TxStage} {q : Seq} (hi : StateInv s)
    (hb : TxBudget s) (hs : s.isrSeq = .busy (.onTxReady free sent stage))
    (he : taskStep (.onTxReady free sent stage) s = .ok (q, u)) : TxStep s.txView (u.setSeq .isr q).txView := by
  obtain ⟨-, hstage⟩ := hi.taskOk (d := .isr) hs
  have hphase : s.txView.phase = txPhase (.busy (.onTxReady free sent stage)) := congrArg txPhase hs
  cases stage with
  | x0 =>
    cases he
    rw [txView_setSeq_isr, freeAnswer_truthful hb.1]
    exact .ask hphase
  | x1 =>
    by_cases hempty : s.tx.wrSeen = s.tx.readIndex
    · rw [taskStep_x1_empty hempty] at he
      cases he
      have hseen : s.txView.seen = 0 := by simp [State.txView, consumerLen, hempty, dist_self]
      rw [txView_setSeq_isr]
      exact .disarm hphase hseen
    · simp only [taskStep, onTxReadyStep, mt (txSeenEmpty_iff s).mp hempty, Bool.false_eq_true, if_false] at he
      split at he
      case isTrue hspent =>
        cases he
        rw [txView_setSeq_isr]
        exact .spent (by rw [hphase, hspent]; simp [txPhase])
      case isFalse =>
        cases he
        rw [txView_setSeq_isr]
        exact .go hphase
  | x3 p =>
    obtain ⟨-, hne, hp⟩ := hstage
    obtain ⟨o, hpop, rfl⟩ := taskStep_onTxReady_x3 he
    exact txStep_x3 hi hs hne hp hpop
  | x3w b =>
    cases he
    obtain ⟨-, hslots⟩ := (txBudget_onTxReady hs (by simp)).mp hb
    have hlt : sent < free := hstage
    have hwrite : callTxWrite b s = (s.setPlat { s.plat with txFifo := s.plat.txFifo ++ [b] }).emit (.write b) := by
      rw [callTxWrite, if_pos (by omega)]
    have hview : (callTxWrite b s).txView = { s.txView with fifo := s.txView.fifo + 1 } := by
      rw [hwrite]
      simp [State.txView, consumerLen, trueLen]
    rw [txView_setSeq_isr, hview]
    exact .write hphase
  | x4 => cases he; rw [txView_setSeq_isr]; exact .ack hphase
  | x5 => cases he; rw [txView_setSeq_isr]; exact .back hphase

/-- The micro-steps of the handlers' sequencer: ON_TX_READY's, and those that leave the transmit side alone. -/
theorem txStep_isrMicro {s u : State} {task : Task} {q : Seq} (hi : StateInv s) (hb : TxBudget s)
    (hs : s.isrSeq = .busy task) (he : taskStep task s = .ok (q, u)) : TxStep s.txView (u.setSeq .isr q).txView := by
  have hok : task.Ok .isr s := hi.taskOk (d := .isr) hs
  have rxTask : RxTask task → TxStep s.txView (u.setSeq .isr q).txView := fun hk => by
    obtain ⟨hsame, hq⟩ := taskStep_rxTask hk he
    have hphase : txPhase q = txPhase s.isrSeq := by
      rw [txPhase_of_rxSeq hq, txPhase_of_rxSeq (hs ▸ RxSeq.busy hk)]
    have hview : (u.setSeq .isr q).txView = s.txView :=
      txView_congr (by simpa using (taskStep_writesOwn he).cfg) (by simpa using hsame.tx) (by simpa using hsame.armed)
        (by simpa using hsame.armReq) (by simpa using hsame.txFifo) (by simpa using hsame.lineOut)
        (by simpa using taskStep_rxTask_txFlag hok hk he) hphase
    rw [hview]
    exact .refl _
  cases task with
  | submit bytes k stage => cases hok.1
  | tryReceive stage => cases hok.1
  | drainReceived out stage => cases hok.1
  | push r b stage =>
    cases r with
    | rx => exact rxTask rfl
    | tx => cases hok.1
  | pop r stage =>
    cases r with
    | rx => cases hok.1
    | tx => exact absurd hb.2 (by simp [hs])
  | onRxReady n i stage => exact rxTask trivial
  | onTxReady free sent stage => exact txStep_onTxReady hi hb hs he

/-! ## The synchroniser and the platform -/

theorem txStep_syncStep {s : State} (hi : StateInv s) (x : SyncStep) : TxStep s.txView (syncStep x s).txView := by
  have hle : s.txView.seen ≤ s.txView.live := consumerLen_le_trueLen .tx hi
  cases x with
  | txw =>
    cases hreq : s.txArmReq with
    | true =>
      have hview : (syncStep .txw s).txView = { s.txView with seen := s.txView.live, armed := true, armReq := false } := by
        simp only [syncStep, State.setRing_txArmReq, hreq, if_true]
        rfl
      rw [hview]
      exact .deliver hle
    | false =>
      have hstep : syncStep .txw s = s.setRing .tx { s.tx with wrSeen := s.tx.writeIndex } := by
        simp [syncStep, hreq]
      rw [hstep]
      exact .of_grown rfl rfl rfl rfl hle le_rfl id id id
  | txr => exact .of_grown rfl rfl rfl rfl le_rfl le_rfl id id id
  | rxw => exact .refl _
  | rxr => exact .refl _

theorem txStep_platStep (s : State) (x : PlatStep) : TxStep s.txView (platStep x s).txView := by
  cases x with
  | txShift =>
    cases hf : s.plat.txFifo with
    | nil => simp only [platStep, hf]; exact .refl _
    | cons b l =>
      have hview : (platStep .txShift s).txView =
          { s.txView with line := s.txView.line + 1, fifo := l.length } := by
        simp [platStep, hf, State.txView, consumerLen, trueLen]
      rw [hview]
      exact .shift (by simp [State.txView, hf])
  | txFlag => exact .of_grown rfl rfl rfl rfl le_rfl le_rfl id id fun _ => rfl
  | rxArrive =>
    simp only [platStep]
    split
    case h_1 => exact .refl _
    case h_2 => split <;> exact .refl _
  | rxFlag => exact .refl _

/-- Every move of the driver is a step of the transmit side. -/
theorem Move.txStep {fg : Bool} {s t : State} (hi : StateInv s) (hb : TxBudget s) (m : Move fg s t) :
    TxStep s.txView t.txView := by
  cases m with
  | book b =>
    rw [txView_congr b.cfg b.tx b.armed b.armReq (by rw [b.plat]) (by rw [b.plat]) (by rw [b.plat]) (by rw [b.isrSeq])]
    exact .refl _
  | fgEnter k hf hid hisr hk hok h0 => exact .refl _
  | isrEnter src hid =>
    have hphase : s.txView.phase = .away := by simp [State.txView, hid, txPhase]
    cases src with
    | txReady => rw [txView_setSeq_isr]; exact .enter hphase
    | rxReady =>
      have hview : (s.setSeq .isr (.busy (handlerTask .rxReady))).txView = s.txView :=
        txView_setSeq_same rfl hphase.symm
      rw [hview]
      exact .refl _
  | fgMicro hf hs he => exact txStep_fgMicro hi hs he
  | isrMicro hs he => exact txStep_isrMicro hi hb hs he
  | sync x hx => exact txStep_syncStep hi x
  | plat x hx => exact txStep_platStep s x
  | feed l => exact .refl _

end Sys2Proof.Machine
end

section
/-! The receive side as a machine of its own: how many bytes are still to arrive and in the hardware FIFO, the RX-ready
flag, and where ON_RX_READY is (42 R174). -/

namespace Sys2Proof.Machine

/-- Where ON_RX_READY is: nowhere, at Y0, Y2, Y3, Y4, Y5, Y6 (42 R174); `other` is any other operation in the
handlers' sequencer. -/
inductive RxPhase where
  | away
  | ask
  | read
  | store
  | ack
  | clear
  | back
  | other

/-- The receive side: the bytes still to arrive, those in the hardware FIFO, the untruthful reports to come, the RX-ready
flag, the handler. -/
structure RxView where
  coming : Nat
  fifo : Nat
  reports : List Nat
  flag : Bool
  phase : RxPhase

/-- The bytes that the driver has not read. -/
def RxView.unread (v : RxView) : Nat := v.coming + v.fifo

/-- Everything that a turn does to the receive side while the line is fed no more, occupancy is reported truly and
ON_RX_READY starts by a dispatch. -/
inductive RxStep (v : RxView) : RxView → Prop
  | stay : RxStep v v
  /-- PL_RX_ARRIVE with room, and without (43 R208). -/
  | arrive {n : Nat} (h : v.coming = n + 1) : RxStep v { v with coming := n, fifo := v.fifo + 1 }
  | lose {n : Nat} (h : v.coming = n + 1) : RxStep v { v with coming := n }
  /-- PL_RX_FLAG: the level is at least one byte (43 R209, 00 R9). -/
  | raise (h : v.fifo ≠ 0) : RxStep v { v with flag := true }
  | enter (h : v.phase = .away) (hflag : v.flag = true) : RxStep v { v with phase := .ask }
  | ask (h : v.phase = .ask) (hr : v.reports = []) : RxStep v { v with phase := if v.fifo = 0 then .ack else .read }
  | read (h : v.phase = .read) : RxStep v { v with fifo := v.fifo - 1, phase := .store }
  | store {p : RxPhase} (h : v.phase = .store) (hp : p = .store ∨ p = .read ∨ p = .ack) : RxStep v { v with phase := p }
  | ack (h : v.phase = .ack) : RxStep v { v with phase := .clear }
  | clear (h : v.phase = .clear) : RxStep v { v with flag := false, phase := .back }
  | back (h : v.phase = .back) : RxStep v { v with phase := .away }
  | other {p : RxPhase} (h : v.phase = .other) : RxStep v { v with phase := p }

/-- ON_RX_READY is bound to read a byte: the FIFO holds one, and the handler has not passed it by. -/
def RxView.Bound (v : RxView) : Prop := v.fifo ≠ 0 ∧ (v.phase = .ask ∨ v.phase = .read)

/-- An RX-ready flag that is up has a byte behind it. -/
def RxView.Fresh (v : RxView) : Prop := v.flag = true → v.fifo ≠ 0

/-- ON_RX_READY has its clear of the flag still before it (42 R177). -/
def RxView.Clearing (v : RxView) : Prop :=
  v.phase = .ask ∨ v.phase = .read ∨ v.phase = .store ∨ v.phase = .ack ∨ v.phase = .clear

/-- What holds of the receive side some time later. -/
structure RxLater (v w : RxView) : Prop where
  reports : w.reports = v.reports
  unread : w.unread ≤ v.unread
  bound : v.Bound → w.Bound ∨ w.unread < v.unread
  cleared : v.Clearing ∨ v.Fresh → (w.Clearing ∨ w.Fresh) ∨ w.unread < v.unread
  settled : v.Fresh ∧ v.phase = .away → w.Fresh ∧ w.phase = .away ∨ w.Bound ∨ w.unread < v.unread

theorem RxLater.refl (v : RxView) : RxLater v v := ⟨rfl, le_rfl, .inl, .inl, .inl⟩

theorem RxLater.trans {u v w : RxView} (h : RxLater u v) (h' : RxLater v w) : RxLater u w where
  reports := h'.reports.trans h.reports
  unread := h'.unread.trans h.unread
  bound hu := (h.bound hu).elim (fun hv => (h'.bound hv).imp_right h.unread.trans_lt') fun hv =>
    .inr (h'.unread.trans_lt hv)
  cleared hu := (h.cleared hu).elim (fun hv => (h'.cleared hv).imp_right h.unread.trans_lt') fun hv =>
    .inr (h'.unread.trans_lt hv)
  settled hu := by
    rcases h.settled hu with hv | hv | hv
    · exact (h'.settled hv).imp_right fun hw => hw.imp_right h.unread.trans_lt'
    · exact .inr ((h'.bound hv).imp_right h.unread.trans_lt')
    · exact .inr (.inr (h'.unread.trans_lt hv))

section
variable {v w : RxView} (h : RxStep v w)
include h

theorem RxStep.unread_le : w.unread ≤ v.unread := by
  cases h with
  | arrive hc => simp only [RxView.unread, hc]; omega
  | lose hc => simp only [RxView.unread, hc]; omega
  | read => simp only [RxView.unread]; omega
  | _ => exact le_rfl

theorem RxStep.bound (hv : v.Bound) : w.Bound ∨ w.unread < v.unread := by
  obtain ⟨hfifo, hphase⟩ := hv
  cases h with
  | arrive hc => exact .inl ⟨Nat.succ_ne_zero _, hphase⟩
  | lose hc => right; simp only [RxView.unread, hc]; omega
  | read => right; simp only [RxView.unread]; omega
  | ask hp => left; simp [RxView.Bound, hfifo]
  | stay => exact .inl ⟨hfifo, hphase⟩
  | raise => exact .inl ⟨hfifo, hphase⟩
  | _ => simp_all

theorem RxStep.fresh (hv : v.Fresh) : w.Fresh ∨ w.unread < v.unread := by
  cases h with
  | arrive => exact .inl fun _ => Nat.succ_ne_zero _
  | raise hf => exact .inl fun _ => hf
  | read hp =>
    by_cases hf : v.fifo = 0
    · left; simpa [RxView.Fresh, hf] using hv
    · right; simp only [RxView.unread]; omega
  | clear => left; simp [RxView.Fresh]
  | _ => exact .inl hv

theorem RxStep.clearing (hv : v.Clearing) : w.Clearing ∨ w.Fresh := by
  cases h with
  | ask => left; simp only [RxView.Clearing]; split <;> simp
  | store hp hp' => left; rcases hp' with rfl | rfl | rfl <;> simp [RxView.Clearing]
  | clear => right; simp [RxView.Fresh]
  | _ => simp_all [RxView.Clearing]

theorem RxStep.settled (hv : v.Fresh ∧ v.phase = .away) :
    w.Fresh ∧ w.phase = .away ∨ w.Bound ∨ w.unread < v.unread := by
  obtain ⟨hfresh, hphase⟩ := hv
  rcases h.fresh hfresh with hw | hw
  · cases h with
    | enter _ hflag => exact .inr (.inl ⟨hfresh hflag, .inl rfl⟩)
    | _ => simp_all
  · exact .inr (.inr hw)

theorem RxStep.later : RxLater v w where
  reports := by cases h <;> rfl
  unread := h.unread_le
  bound := h.bound
  cleared hv := hv.elim (fun hc => .inl (h.clearing hc)) fun hf => (h.fresh hf).imp_left .inr
  settled := h.settled

/-- The handler starts at Y0. -/
theorem RxStep.clearing_of_away (hv : v.phase = .away) (hw : w.phase ≠ .away) : w.Clearing := by
  cases h with
  | enter => exact .inl rfl
  | _ => simp_all

end

end Sys2Proof.Machine
end

section
/-! The turns of the driver, while the line is silent, as steps of the receive side. -/

namespace Sys2Proof.Machine

/-! ## FG leaves the platform and the handlers alone -/

/-- The platform and the handlers' sequencer are the same. -/
structure SameOutside (s t : State) : Prop where
  plat : t.plat = s.plat
  isrSeq : t.isrSeq = s.isrSeq

theorem SameOutside.trans {s t u : State} (h : SameOutside s t) (h' : SameOutside t u) : SameOutside s u :=
  ⟨h'.plat.trans h.plat, h'.isrSeq.trans h.isrSeq⟩

theorem exec_foreground_outside {i : Instr} {s t : State} (hi : StateInv s)
    (hfg : (i = .tryReceive ∨ i = .drainReceived) ∨ ∃ bytes, i = .submit bytes) (h : exec i s = .next t) :
    SameOutside s t := by
  cases hg : s.issue.grain with
  | whole =>
    rcases hfg with hrecv | ⟨bytes, rfl⟩
    · obtain ⟨y, l, rfl, -⟩ := exec_receive_next hi hrecv hg h
      exact ⟨rfl, rfl⟩
    · obtain ⟨y, a, q, tr, l, rfl, -⟩ := exec_submit_next hi hg h
      exact ⟨rfl, rfl⟩
  | micro =>
    obtain ⟨hsubmit, htry, hdrain, -⟩ := microGrainOnlyEnters s hg
    have hb : ∀ b, i ≠ .submitPayload b := by rcases hfg with (rfl | rfl) | ⟨bytes, rfl⟩ <;> simp
    rcases exec_next_cases hb h with hm | ⟨l, rfl⟩
    · rcases hfg with (rfl | rfl) | ⟨bytes, rfl⟩
      · rw [htry hm] at h; cases h; exact ⟨rfl, rfl⟩
      · rw [hdrain hm] at h; cases h; exact ⟨rfl, rfl⟩
      · rw [hsubmit bytes hm] at h; cases h; exact ⟨rfl, rfl⟩
    · exact ⟨rfl, rfl⟩

theorem StateInv.setPorts {s : State} (hi : StateInv s) (p : Ports) : StateInv (s.setPorts p) :=
  hi.same rfl rfl rfl rfl rfl rfl rfl hi.txFifo hi.rxFifo

theorem StateInv.setIssue {s : State} (hi : StateInv s) (x : Issue) : StateInv (s.setIssue x) :=
  hi.same rfl rfl rfl rfl rfl rfl rfl hi.txFifo hi.rxFifo

theorem joinAssembly_outside {m : Assembly} {w : Option Byte} {s t : State} (hi : StateInv s)
    (h : joinAssembly m w s = .next t) : SameOutside s t := by
  by_cases hl : 2 ≤ m.left
  · rw [joinAssembly_more hl] at h; cases h; exact ⟨rfl, rfl⟩
  · rw [joinAssembly_last (by omega)] at h
    cases hbad : (m.joined w).bad with
    | true => rw [finishAssembly_bad hbad] at h; cases h; exact ⟨rfl, rfl⟩
    | false =>
      rw [finishAssembly_good hbad] at h
      obtain ⟨hplat, hisr⟩ := exec_foreground_outside (hi.setPorts _) (.inr ⟨_, rfl⟩) h
      exact ⟨hplat, hisr⟩

theorem exec_app_outside {i : Instr} {s t : State} (hi : StateInv s) (hp : s.issue.port = .app)
    (h : exec i s = .next t) : SameOutside s t := by
  by_cases hb : ∃ b, i = .submitPayload b
  · obtain ⟨b, rfl⟩ := hb
    simp only [exec, execSubmitPayload, hp, ne_eq, not_true_eq_false, if_false] at h
    split at h
    · cases h; exact ⟨rfl, rfl⟩
    · split at h
      · exact joinAssembly_outside hi h
      · cases h; exact ⟨rfl, rfl⟩
  · by_cases hfg : (i = .tryReceive ∨ i = .drainReceived) ∨ ∃ bytes, i = .submit bytes
    · exact exec_foreground_outside hi hfg h
    · have hport : i.mnemonic.port ≠ .app := by
        cases i <;> simp_all [Instr.mnemonic, Mnemonic.port]
      have hnot : permitted i s = false := by simp [permitted, hp, hport]
      rw [exec_forbidden hnot fun b hi => hb ⟨b, hi⟩] at h
      cases h
      exact ⟨rfl, rfl⟩

theorem rejectCommand_outside {p : Port} {e : DecodeError} {s t : State} (h : rejectCommand p e s = .next t) :
    SameOutside s t := by
  cases e <;> cases h <;> exact ⟨rfl, rfl⟩

/-- A command of APP, whoever issues it (30 R90). -/
theorem runCommand_app_outside {a : Agent} {g : Grain} {s t : State} (hi : StateInv s)
    (h : runCommand .app a g s = .next t) : SameOutside s t := by
  have enter : SameOutside s (s.setIssue ⟨.app, a, g⟩) := ⟨rfl, rfl⟩
  have hissue := hi.setIssue ⟨.app, a, g⟩
  have ports : ∀ p, SameOutside s ((s.setIssue ⟨.app, a, g⟩).setPorts p) := fun p => ⟨rfl, rfl⟩
  simp only [runCommand] at h
  split at h
  case isFalse => cases h; exact ⟨rfl, rfl⟩
  case isTrue =>
    split at h
    · unfold payloadCommand at h
      split at h
      · cases h; exact enter
      · simp only at h
        split at h
        · exact (ports _).trans (exec_app_outside (hissue.setPorts _) rfl h)
        · exact (ports _).trans (joinAssembly_outside (hissue.setPorts _) h)
    · split at h
      · exact (ports _).trans (exec_app_outside (hissue.setPorts _) rfl h)
      · exact enter.trans (rejectCommand_outside h)

/-! ## The receive side of a state -/

/-- Where ON_RX_READY is in the handlers' sequencer. -/
def rxPhase : Seq → RxPhase
  | .idle => .away
  | .busy (.onRxReady _ _ stage) =>
    match stage with
    | .y0 => .ask
    | .y2 => .read
    | .y3 _ _ => .store
    | .y4 => .ack
    | .y5 => .clear
    | .y6 => .back
  | .busy _ => .other

theorem rxPhase_eq_away_iff (q : Seq) : rxPhase q = .away ↔ q = .idle := by
  cases q with
  | idle => simp [rxPhase]
  | busy task =>
    cases task with
    | onRxReady n i stage => cases stage <;> simp [rxPhase]
    | _ => simp [rxPhase]

theorem rxPhase_rxRound (n i : Nat) : rxPhase (.busy (rxRound n i)) = if i = n then .ack else .read := by
  unfold rxRound
  split <;> simp [rxPhase]

/-- The receive side of a state. -/
def State.rxView (s : State) : RxView where
  coming := s.plat.lineIn.length
  fifo := s.plat.rxFifo.length
  reports := s.plat.occReports
  flag := s.plat.rxFlag
  phase := rxPhase s.isrSeq

theorem SameOutside.rxView {s t : State} (h : SameOutside s t) : t.rxView = s.rxView := by
  simp only [State.rxView, h.plat, h.isrSeq]

@[simp] theorem rxView_setSeq_isr (s : State) (q : Seq) :
    (s.setSeq .isr q).rxView = { s.rxView with phase := rxPhase q } := by
  simp [State.rxView]

/-- ON_RX_READY's micro-steps, where the occupancy is reported truly. -/
theorem rxStep_onRxReady {s u : State} {n i : Nat} {stage : RxStage} {q : Seq} (hr : s.plat.occReports = [])
    (hs : s.isrSeq = .busy (.onRxReady n i stage)) (he : taskStep (.onRxReady n i stage) s = .ok (q, u)) :
    RxStep s.rxView (u.setSeq .isr q).rxView := by
  have hphase : s.rxView.phase = rxPhase (.busy (.onRxReady n i stage)) := congrArg rxPhase hs
  rw [rxView_setSeq_isr]
  rcases taskStep_onRxReady_cases he with ⟨rfl, rfl, rfl⟩ | ⟨rfl, rfl, rfl⟩ | ⟨b, p, rfl, hplat, hq⟩ |
    ⟨rfl, rfl, rfl⟩ | ⟨rfl, rfl, rfl⟩ | ⟨rfl, rfl, rfl⟩
  · have hview : (callOccupancy s).rxView = s.rxView := by rw [callOccupancy_truthful hr]; rfl
    have hnext : rxPhase (.busy (rxRound (occAnswer s) 0)) = if s.rxView.fifo = 0 then .ack else .read := by
      rw [rxPhase_rxRound, occAnswer_truthful hr]
      simp only [State.rxView, eq_comm]
    rw [hview, hnext]
    exact .ask hphase hr
  · have hview : (callRxRead s).rxView = { s.rxView with fifo := s.rxView.fifo - 1 } := by
      rw [callRxRead_eq_afterCall]
      simp [State.afterCall, State.rxView]
    rw [hview]
    exact .read hphase
  · have hview : ({ u.rxView with phase := rxPhase q } : RxView) = { s.rxView with phase := rxPhase q } := by
      simp only [State.rxView, hplat]
    rw [hview]
    refine .store hphase ?_
    rcases hq with ⟨p', rfl⟩ | rfl
    · exact .inl rfl
    · rw [rxPhase_rxRound]
      split <;> simp
  · exact .ack hphase
  · exact .clear hphase
  · exact .back hphase

/-- A micro-step turn of the handlers' sequencer beside no ON_TX_READY. -/
theorem rxStep_isrMicro {s u : State} {task : Task} {q : Seq} (hi : StateInv s) (hr : s.plat.occReports = [])
    (hk : RxTask task) (hs : s.isrSeq = .busy task) (he : taskStep task s = .ok (q, u)) :
    RxStep s.rxView (u.setSeq .isr q).rxView := by
  have hok : task.Ok .isr s := hi.taskOk (d := .isr) hs
  cases task with
  | push r b stage =>
    have hphase : s.rxView.phase = .other := congrArg rxPhase hs
    obtain ⟨o, t, hpush, hu⟩ := taskStep_push he
    have hplat : u.plat = s.plat := by
      have ht := (pushStep_onlyRing _ _ _ _ _ _ hpush).plat
      rcases hu with rfl | ⟨st, rfl⟩ <;> exact ht
    have hview : (u.setSeq .isr q).rxView = { s.rxView with phase := rxPhase q } := by
      simp [State.rxView, hplat]
    rw [hview]
    exact .other hphase
  | onRxReady n i stage => exact rxStep_onRxReady hr hs he
  | pop r stage => cases hk; cases hok.1
  | tryReceive stage => cases hok.1
  | drainReceived out stage => cases hok.1
  | submit bytes k stage => exact hk.elim
  | onTxReady free sent stage => exact hk.elim

theorem syncStep_outside (x : SyncStep) (s : State) : SameOutside s (syncStep x s) := by
  cases x with
  | txw => simp only [syncStep]; split <;> exact ⟨rfl, rfl⟩
  | _ => exact ⟨rfl, rfl⟩

theorem rxStep_platStep {s : State} {x : PlatStep} (hc : s.cfg.Valid) (h : platEnabled x s = true) :
    RxStep s.rxView (platStep x s).rxView := by
  obtain ⟨-, -, -, -, -, -, hlevel, -⟩ := hc
  cases x with
  | txShift =>
    simp only [platStep]
    split <;> exact .stay
  | txFlag => exact .stay
  | rxArrive =>
    cases hl : s.plat.lineIn with
    | nil => simp [platEnabled, hl] at h
    | cons b l =>
      have hcoming : s.rxView.coming = l.length + 1 := by simp [State.rxView, hl]
      simp only [platStep, hl]
      split
      · have hview : (s.setPlat { s.plat with lineIn := l, rxFifo := s.plat.rxFifo ++ [b] }).rxView =
            { s.rxView with coming := l.length, fifo := s.rxView.fifo + 1 } := by simp [State.rxView]
        rw [hview]
        exact .arrive hcoming
      · exact .lose hcoming
  | rxFlag =>
    simp only [platEnabled, rxCondition, Bool.and_eq_true, decide_eq_true_eq] at h
    exact .raise (by simp only [State.rxView]; omega)

/-- Every turn of the driver that does not feed the line, issue on EVT or enter ON_TX_READY is a step of the receive side. -/
theorem runTurn_rxStep {x : Turn} {s t : State} (hi : StateInv s) (hr : s.plat.occReports = []) (hk : RxSeq s.isrSeq)
    (hd : directTurn x = false) (hfeed : ∀ l, x ≠ .feed l) (hevt : ∀ a g, x ≠ .command .evt a g)
    (htx : x = .dispatch .txReady → dispatchEnabled .txReady s = false) (h : runTurn x s = .next t) :
    RxStep s.rxView t.rxView := by
  have outside : SameOutside s t → RxStep s.rxView t.rxView := fun ho => by rw [ho.rxView]; exact .stay
  cases x with
  | command p a g =>
    cases p with
    | app => exact outside (runCommand_app_outside hi h)
    | evt => exact absurd rfl (hevt a g)
    | ring => cases hd
    | cap => cases hd
  | micro d =>
    simp only [runTurn] at h
    split at h
    case isFalse => cases h; exact .stay
    case isTrue =>
      obtain ⟨u, hu, -⟩ := microStep_keeps hi d
      rw [hu] at h
      cases h
      rcases microStep_cases hu with ⟨-, rfl⟩ | ⟨task, q, u, hs, he, rfl⟩
      · exact .stay
      · cases d with
        | fg =>
          have hplat := (taskStep_fgStepped hi (hi.taskOk hs) he).plat
          have hisr := (hi.taskStep_writesOwn hs he).isrSeq
          exact outside ⟨by simpa using hplat, by simpa using hisr⟩
        | isr => exact rxStep_isrMicro hi hr (hk _ hs) hs he
  | dispatch src =>
    cases h
    split
    case isFalse => exact .stay
    case isTrue hen =>
      cases src with
      | txReady => rw [htx rfl] at hen; cases hen
      | rxReady =>
        obtain ⟨hreq, hidle⟩ := (dispatchEnabled_iff .rxReady s).mp hen
        rw [enterHandler, rxView_setSeq_isr]
        exact .enter (congrArg rxPhase hidle) hreq
  | sync x =>
    cases h
    split
    · rw [(syncStep_outside x s).rxView]; exact .stay
    · exact .stay
  | plat x =>
    cases h
    split
    case isTrue hen => exact rxStep_platStep hi.cfg hen
    case isFalse => exact .stay
  | post p ws => cases h; exact .stay
  | feed l => exact absurd rfl (hfeed l)
  | idle => cases h; exact .stay

end Sys2Proof.Machine
end

section
/-! Fair runs of the driver (43 R212, 70 R287): what has left the ring reaches the line, and a byte that stays in it
means that ON_TX_READY waits for ever. -/

namespace Sys2Proof.Machine

/-! ## Numbers and moments -/

/-- A number that never rises stays the same from some moment on. -/
theorem eventually_const {f : Nat → Nat} {k : Nat} (h : ∀ j, k ≤ j → f (j + 1) ≤ f j) :
    ∃ n, k ≤ n ∧ ∀ j, n ≤ j → f j = f n := by
  obtain ⟨n, hn, hmin⟩ := exists_minimalFor_of_wellFoundedLT (fun j => k ≤ j) f ⟨k, le_rfl⟩
  refine ⟨n, hn, fun j hj => ?_⟩
  have hle : f j ≤ f n := Nat.le_induction le_rfl (fun i hi hf => (h i (le_trans hn hi)).trans hf) j hj
  exact hle.antisymm (hmin (le_trans hn hj) hle)

/-- What holds at one moment and not at a later one stops holding in a turn between them. -/
theorem exists_switch {P : Nat → Prop} {a b : Nat} (hab : a ≤ b) (ha : P a) (hb : ¬ P b) :
    ∃ i, a ≤ i ∧ P i ∧ ¬ P (i + 1) := by
  by_contra hno
  refine hb (Nat.le_induction ha (fun i hi hp => ?_) b hab)
  by_contra hp'
  exact hno ⟨i, hi, hp, hp'⟩

/-! ## Fair runs -/

/-- From a state in order a turn of the driver answers, and the next state is in order. -/
theorem runTurn_answers {x : Turn} {s : State} (hi : StateInv s) : ∃ t, runTurn x s = .next t ∧ StateInv t := by
  have hl := runTurn_leads x s
  cases he : runTurn x s with
  | next t => rw [he] at hl; exact ⟨t, rfl, hl.inv hi⟩
  | fault e => rw [he] at hl; exact absurd hi hl
  | refused e => rw [he] at hl; exact hl.elim

/-- A fair run of the driver from a state in order, as the premises of the liveness statement give it. -/
structure FairRun (sch : Nat → Turn) (σ : Nat → State) : Prop where
  inv : ∀ n, StateInv (σ n)
  armKept : ∀ n, ArmKept (σ n)
  budget : ∀ n, TxBudget (σ n)
  next : ∀ n, runTurn (sch n) (σ n) = .next (σ (n + 1))
  driver : ∀ n, directTurn (sch n) = false
  complete : ∀ n, ∃ m, n ≤ m ∧ (σ m).isrSeq = .idle
  fair : ∀ t ∈ fairTurns, ∀ n, (∀ m, n ≤ m → turnEnabled t (σ m) = true) → ∃ m, n ≤ m ∧ sch m = t

theorem trajectory_next {sch : Nat → Turn} {s : State} {n : Nat} (hi : StateInv (trajectory sch s n)) :
    runTurn (sch n) (trajectory sch s n) = .next (trajectory sch s (n + 1)) := by
  obtain ⟨t, ht, -⟩ := runTurn_answers (x := sch n) hi
  simp only [trajectory, ht]

/-- What a turn of the driver keeps of the transmit side. -/
theorem runTurn_transmits {x : Turn} {s t : State} (hi : StateInv s) (ha : ArmKept s) (hb : TxBudget s)
    (hd : directTurn x = false) (h : runTurn x s = .next t) :
    StateInv t ∧ ArmKept t ∧ TxBudget t ∧ TxLater s.txView t.txView ∧ ∃ l, txStream t = txStream s ++ l := by
  have hchain := chain_ind
    (fun s t => ArmKept s → TxBudget s →
      ArmKept t ∧ TxBudget t ∧ TxLater s.txView t.txView ∧ ∃ l, txStream t = txStream s ++ l)
    (fun s ha hb => ⟨ha, hb, .refl _, [], by simp⟩)
    (fun s t u h h' ha hb => by
      obtain ⟨hat, hbt, hlt, l, hl⟩ := h ha hb
      obtain ⟨hau, hbu, hlu, l', hl'⟩ := h' hat hbt
      exact ⟨hau, hbu, hlt.trans hlu, l ++ l', by rw [hl', hl, List.append_assoc]⟩)
    (fun s t hi m ha hb => by
      obtain ⟨hbt, bs, hbs, -⟩ := m.streamKept hi hb
      exact ⟨m.armKept hi ha, hbt, (m.txStep hi hb).later, _, hbs⟩) hi (runTurn_chain hd h)
  exact ⟨hchain.2, hchain.1 ha hb⟩

theorem fairRun_of_premises {sch : Nat → Turn} {s : State} (hi : StateInv s) (ha : ArmKept s) (hb : TxBudget s)
    (hd : DriverRun sch s) (hf : WeaklyFair sch s) : FairRun sch (trajectory sch s) := by
  have order : ∀ n, StateInv (trajectory sch s n) ∧ ArmKept (trajectory sch s n) ∧ TxBudget (trajectory sch s n) := by
    intro n
    induction n with
    | zero => exact ⟨hi, ha, hb⟩
    | succ n ih =>
      obtain ⟨hin, han, hbn⟩ := ih
      obtain ⟨hi', ha', hb', -, -⟩ := runTurn_transmits hin han hbn (hd.driver n) (trajectory_next hin)
      exact ⟨hi', ha', hb'⟩
  exact ⟨fun n => (order n).1, fun n => (order n).2.1, fun n => (order n).2.2, fun n => trajectory_next (order n).1,
    hd.driver, hd.complete, hf⟩

namespace FairRun

variable {sch : Nat → Turn} {σ : Nat → State} (r : FairRun sch σ)
include r

theorem turn_transmits (n : Nat) :
    TxLater (σ n).txView (σ (n + 1)).txView ∧ ∃ l, txStream (σ (n + 1)) = txStream (σ n) ++ l :=
  (runTurn_transmits (r.inv n) (r.armKept n) (r.budget n) (r.driver n) (r.next n)).2.2.2

theorem txLater {m n : Nat} (h : m ≤ n) : TxLater (σ m).txView (σ n).txView :=
  Nat.le_induction (.refl _) (fun i _ hi => hi.trans (r.turn_transmits i).1) n h

theorem stream_grows {m n : Nat} (h : m ≤ n) : ∃ l, txStream (σ n) = txStream (σ m) ++ l := by
  refine Nat.le_induction ⟨[], by simp⟩ (fun i _ hi => ?_) n h
  obtain ⟨l, hl⟩ := hi
  obtain ⟨l', hl'⟩ := (r.turn_transmits i).2
  exact ⟨l ++ l', by rw [hl', hl, List.append_assoc]⟩

/-- A handler that stays bound to take a byte takes it: it completes. -/
theorem sent_grows_of_bound {n : Nat} (h : (σ n).txView.Bound) : ∃ m, n ≤ m ∧ (σ n).txView.sent < (σ m).txView.sent := by
  obtain ⟨m, hm, hidle⟩ := r.complete n
  refine ⟨m, hm, ((r.txLater hm).bound h).resolve_left fun hbound => ?_⟩
  simp [TxView.Bound, State.txView, hidle, txPhase] at hbound

theorem next_eq {n : Nat} {t : State} (h : runTurn (sch n) (σ n) = .next t) : σ (n + 1) = t := by
  rw [r.next n] at h
  exact Host.Outcome.next.inj h

/-- A fair turn that stays enabled is taken, where it is enabled. -/
theorem taken {t : Turn} (ht : t ∈ fairTurns) {n : Nat} (h : ∀ m, n ≤ m → turnEnabled t (σ m) = true) :
    ∃ m, n ≤ m ∧ runTurn t (σ m) = .next (σ (m + 1)) := by
  obtain ⟨m, hm, hsch⟩ := r.fair t ht n h
  exact ⟨m, hm, hsch ▸ r.next m⟩

/-! ## What has left the ring reaches the line -/

/-- While there is a byte in the hardware FIFO one is shifted to the line (43 R206). -/
theorem line_grows {n : Nat} (h : ∀ m, n ≤ m → (σ m).plat.txFifo ≠ []) :
    ∃ m, n ≤ m ∧ (σ m).txView.line < (σ (m + 1)).txView.line := by
  have hen : ∀ m, n ≤ m → platEnabled .txShift (σ m) = true := fun m hm => by simpa [platEnabled] using h m hm
  obtain ⟨m, hm, hturn⟩ := r.taken (t := .plat .txShift) (by simp [fairTurns]) hen
  obtain ⟨b, l, hl⟩ := List.exists_cons_of_ne_nil (h m hm)
  obtain ⟨hshift, -⟩ := platformStepsAreAsListed (σ m) b l
  rw [hshift hl] at hturn
  refine ⟨m, hm, ?_⟩
  rw [← Host.Outcome.next.inj hturn]
  simp [State.txView]

theorem line_reaches {n c : Nat} (h : c ≤ (σ n).txView.sent) : ∃ m, n ≤ m ∧ c ≤ (σ m).txView.line := by
  obtain ⟨a, ha, hidle⟩ := r.complete n
  have hout : c ≤ (σ a).txView.line + (σ a).txView.fifo := by
    have hsent := h.trans (r.txLater ha).sent
    simpa [TxView.sent, State.txView, hidle, txPhase, TxPhase.held] using hsent
  by_contra hno
  have hline : ∀ m, a ≤ m → (σ m).txView.line < c := fun m hm =>
    Nat.lt_of_not_le fun hle => hno ⟨m, ha.trans hm, hle⟩
  have hfifo : ∀ m, a ≤ m → (σ m).plat.txFifo ≠ [] := fun m hm hnil => by
    have hle := hout.trans (r.txLater hm).out
    have hzero : (σ m).txView.fifo = 0 := by simp [State.txView, hnil]
    have hlt := hline m hm
    omega
  obtain ⟨b, hb, hconst⟩ := eventually_const (f := fun j => c - (σ j).txView.line) (k := a)
    fun j _ => Nat.sub_le_sub_left (r.txLater (Nat.le_succ j)).line c
  obtain ⟨m, hm, hlt⟩ := r.line_grows fun m hm => hfifo m (hb.trans hm)
  have h1 := hconst m hm
  have h2 := hconst (m + 1) (by omega)
  have h3 := hline (m + 1) (by omega)
  omega

/-! ## No wakeup is lost -/

/-- A waiting arm request is delivered (20 R74, R76). -/
theorem served_of_promised {n c : Nat} (h : (σ n).txView.Promised c) : ∃ m, n ≤ m ∧ (σ m).txView.Served c := by
  by_contra hno
  have hreq : ∀ m, n ≤ m → (σ m).txArmReq = true := fun m hm =>
    (((r.txLater hm).promised c h).resolve_left fun hs => hno ⟨m, hm, hs⟩).1
  have hlag : ∀ m, n ≤ m → (σ m).cfg.syncLag = true := fun m hm => by
    by_contra hl
    obtain ⟨-, -, -, -, hoff⟩ := (r.inv m).views (by simpa using hl)
    rw [hreq m hm] at hoff
    cases hoff
  obtain ⟨m, hm, hturn⟩ := r.taken (t := .sync .txw) (n := n) (by simp [fairTurns])
    fun m hm => by simp [turnEnabled, syncEnabled, hreq m hm, hlag m hm]
  obtain ⟨-, -, -, -, hdeliver⟩ := (synchroniserCopiesWholeIndex (σ m)).2 (hlag m hm)
  rw [hdeliver (hreq m hm)] at hturn
  have hnext := hreq (m + 1) (by omega)
  rw [← Host.Outcome.next.inj hturn] at hnext
  cases hnext

/-- Outside a SUBMIT's window the arm invariant promises that the whole stream is served (10 R44). -/
theorem promised {n : Nat} (hw : inArmWindow (σ n) = false) :
    (σ n).txView.Promised (txStream (σ n)).length := by
  rw [txStream_length]
  cases hreq : (σ n).txArmReq with
  | true => exact .inr ⟨hreq, le_rfl⟩
  | false =>
    obtain ⟨hseen, harmed⟩ := (r.armKept n).seenAndArmed hw hreq
    have hall : (σ n).txView.seen = (σ n).txView.live := by
      simp [State.txView, consumerLen, trueLen, hseen]
    refine .inl ⟨by rw [hall], fun hlt => harmed fun heq => ?_⟩
    have hzero : (σ n).txView.live = 0 := by simp [State.txView, trueLen, heq, dist_self]
    omega

end FairRun

/-! ## ON_TX_READY that waits for ever -/

/-- From moment `n` on ON_TX_READY is requested, and neither runs nor is dispatched. -/
structure Starved (sch : Nat → Turn) (σ : Nat → State) (n : Nat) : Prop where
  requested : ∀ m, n ≤ m → requested .txReady (σ m) = true
  away : ∀ m, n ≤ m → RxSeq (σ m).isrSeq
  undispatched : ∀ m, n ≤ m → sch m = .dispatch .txReady → dispatchEnabled .txReady (σ m) = false

/-- Where no ON_TX_READY is, nothing runs on the TX ring. -/
theorem rxSeq_of_txPhase_away {s : State} (hi : StateInv s) (hb : TxBudget s) (h : txPhase s.isrSeq = .away) :
    RxSeq s.isrSeq := by
  intro task hs
  have hok : task.Ok .isr s := hi.taskOk (d := .isr) hs
  cases task with
  | push r b stage =>
    cases r with
    | rx => rfl
    | tx => cases hok.1
  | pop r stage =>
    cases r with
    | rx => rfl
    | tx => exact absurd hb.2 (by simp [hs])
  | onRxReady n i stage => trivial
  | onTxReady free sent stage => rw [hs] at h; cases stage <;> cases h
  | tryReceive stage => trivial
  | drainReceived out stage => trivial
  | submit bytes k stage => cases hok.1

namespace FairRun

variable {sch : Nat → Turn} {σ : Nat → State} (r : FairRun sch σ)
include r

/-- If no byte leaves the ring any more although one is served, that byte waits in the end with the FIFO empty: what
has left the ring reaches the line, and a handler that began would take the byte. -/
theorem waiting_of_stuck {n c : Nat} (hs : (σ n).txView.Served c) (hlt : (σ n).txView.sent < c)
    (hconst : ∀ m, n ≤ m → (σ m).txView.sent = (σ n).txView.sent) :
    ∃ b, ∀ m, b ≤ m → ((σ m).txArmed = true ∧ (σ m).txView.Waiting) ∧
      ∀ i, b ≤ i → i ≤ m → (σ i).plat.txFlag = true → (σ m).plat.txFlag = true := by
  obtain ⟨a, ha, hline⟩ := r.line_reaches (le_refl (σ n).txView.sent)
  obtain ⟨b, hb, hidle⟩ := r.complete a
  have hnb : ∀ {m}, b ≤ m → n ≤ m := fun hm => ha.trans (hb.trans hm)
  have served : ∀ m, b ≤ m → (σ m).txView.seen ≠ 0 ∧ (σ m).txArmed = true := fun m hm => by
    obtain ⟨hseen, harmed⟩ := (r.txLater (hnb hm)).served c hs
    have hm' := hconst m (hnb hm)
    exact ⟨by omega, harmed (by omega)⟩
  have stuck : ∀ {i m}, b ≤ i → i ≤ m → ¬ ((σ m).txView.Bound ∨ (σ i).txView.sent < (σ m).txView.sent) := by
    rintro i m hi hm (hbound | hsent)
    · obtain ⟨j, hj, hsent⟩ := r.sent_grows_of_bound hbound
      have h1 := hconst m (hnb (hi.trans hm))
      have h2 := hconst j (hnb (hi.trans (hm.trans hj)))
      omega
    · have h1 := hconst i (hnb hi)
      have h2 := hconst m (hnb (hi.trans hm))
      omega
  have hfifo : (σ b).txView.fifo = 0 := by
    have h1 := hline.trans (r.txLater hb).line
    have h2 := hconst b (hnb le_rfl)
    unfold TxView.sent at h1 h2
    omega
  have hslots : 0 < (σ b).txView.slots := (r.inv b).cfg.2.2.2.1
  have hwaits : (σ b).txView.Waiting :=
    ⟨(served b le_rfl).1, hfifo, hslots, by simp [State.txView, hidle, txPhase]⟩
  have waiting : ∀ m, b ≤ m → (σ m).txView.Waiting := fun m hm =>
    (((r.txLater hm).waiting hwaits).resolve_right (stuck le_rfl hm)).1
  exact ⟨b, fun m hm => ⟨⟨(served m hm).2, waiting m hm⟩, fun i hi him =>
    (((r.txLater him).waiting (waiting i hi)).resolve_right (stuck hi him)).2⟩⟩

/-- Beside an empty FIFO the TX-ready flag is raised (43 R207). -/
theorem flag_of_waiting {b : Nat} (h : ∀ m, b ≤ m → (σ m).txView.Waiting) :
    ∃ m, b ≤ m ∧ (σ m).plat.txFlag = true := by
  by_contra hno
  have hoff : ∀ m, b ≤ m → (σ m).plat.txFlag = false := fun m hm => by
    by_contra hon
    exact hno ⟨m, hm, by simpa using hon⟩
  have hfifo : ∀ m, b ≤ m → (σ m).plat.txFifo = [] := fun m hm => List.length_eq_zero_iff.mp (h m hm).2.1
  obtain ⟨m, hm, hturn⟩ := r.taken (t := .plat .txFlag) (n := b) (by simp [fairTurns])
    fun m hm => by simp [turnEnabled, platEnabled, txCondition, hfifo m hm, hoff m hm]
  obtain ⟨-, -, hraise, -⟩ := platformStepsAreAsListed (σ m) 0 []
  rw [hraise] at hturn
  have hnext := hoff (m + 1) (by omega)
  rw [← Host.Outcome.next.inj hturn] at hnext
  simp [hfifo m hm] at hnext

/-- A turn after which ON_TX_READY does not run has not dispatched it. -/
theorem undispatched_of_waiting {m : Nat} (h : (σ (m + 1)).txView.Waiting) (hsch : sch m = .dispatch .txReady) :
    dispatchEnabled .txReady (σ m) = false := by
  by_contra hen
  have hturn : runTurn (sch m) (σ m) = .next (enterHandler .txReady (σ m)) := by
    rw [hsch, runTurn, if_pos (by simpa using hen)]
  obtain ⟨-, -, -, haway⟩ := h
  rw [r.next_eq hturn] at haway
  cases haway

/-- If no byte leaves the ring any more although one is served, ON_TX_READY starves. -/
theorem starved_of_stuck {n c : Nat} (hs : (σ n).txView.Served c) (hlt : (σ n).txView.sent < c)
    (hconst : ∀ m, n ≤ m → (σ m).txView.sent = (σ n).txView.sent) : ∃ m, Starved sch σ m := by
  obtain ⟨b, hb⟩ := r.waiting_of_stuck hs hlt hconst
  have waiting : ∀ m, b ≤ m → (σ m).txView.Waiting := fun m hm => (hb m hm).1.2
  obtain ⟨d, hd, hflag⟩ := r.flag_of_waiting waiting
  refine ⟨d, fun m hm => ?_, fun m hm => ?_, fun m hm => r.undispatched_of_waiting (waiting (m + 1) (by omega))⟩
  · obtain ⟨⟨harmed, -⟩, hkept⟩ := hb m (hd.trans hm)
    simp [requested, hkept d hd hm hflag, harmed]
  · obtain ⟨-, -, -, haway⟩ := waiting m (hd.trans hm)
    exact rxSeq_of_txPhase_away (r.inv m) (r.budget m) haway

/-- Weak fairness dispatches a request that waits beside an idle sequencer, so that a starving one sees handlers run for
ever (60 R231). -/
theorem busy_of_starved {k : Nat} (h : Starved sch σ k) {n : Nat} (hn : k ≤ n) :
    ∃ m, n ≤ m ∧ (σ m).isrSeq ≠ .idle := by
  by_contra hno
  have hen : ∀ m, n ≤ m → dispatchEnabled .txReady (σ m) = true := fun m hm => by
    refine (dispatchEnabled_iff .txReady (σ m)).mpr ⟨h.requested m (hn.trans hm), ?_⟩
    by_contra hbusy
    exact hno ⟨m, hm, hbusy⟩
  obtain ⟨m, hm, hsch⟩ := r.fair (.dispatch .txReady) (by simp [fairTurns]) n hen
  have hoff := h.undispatched m (hn.trans hm) hsch
  rw [hen m hm] at hoff
  cases hoff

end FairRun

/-- A waiting request is dispatched after the return of such a handler (60 R235, R240). -/
theorem FairRun.not_starved_of_pending {sch : Nat → Turn} {s : State} (r : FairRun sch (trajectory sch s))
    (hp : PendingIsDispatched sch s) {k : Nat} (h : Starved sch (trajectory sch s) k) : False := by
  obtain ⟨a, ha, hbusy⟩ := r.busy_of_starved h le_rfl
  obtain ⟨b, hb, hidle⟩ := r.complete a
  obtain ⟨i, hi, hrun, hret⟩ :=
    exists_switch (P := fun j => (trajectory sch s j).isrSeq ≠ .idle) hb hbusy (not_not.mpr hidle)
  obtain ⟨m, hm, hoff | ⟨hsch, hen⟩⟩ := hp .txReady i hrun (not_not.mp hret)
  · rw [h.requested m (by omega)] at hoff
    cases hoff
  · rw [h.undispatched m (by omega) hsch] at hen
    cases hen

end Sys2Proof.Machine
end

section
/-! Where the line falls silent ON_RX_READY comes to rest (10 R39, 43 R212); the liveness of the transmit side. -/

namespace Sys2Proof.Machine

/-! ## A true occupancy stays true -/

/-- A micro-step of ON_TX_READY leaves the occupancy reports. -/
theorem taskStep_onTxReady_occReports {free sent : Nat} {stage : TxStage} {s u : State} {q : Seq}
    (h : taskStep (.onTxReady free sent stage) s = .ok (q, u)) : u.plat.occReports = s.plat.occReports := by
  cases stage with
  | x1 =>
    simp only [taskStep, onTxReadyStep] at h
    split at h
    case isTrue hempty => cases h; simp [disarmTx, hempty, setTxInterrupt]
    case isFalse => split at h <;> cases h <;> rfl
  | x3 p =>
    obtain ⟨o, hpop, -⟩ := taskStep_onTxReady_x3 h
    rw [(popStep_onlyRing _ _ _ _ _ hpop).plat]
  | x3w b => cases h; rw [callTxWrite_eq_afterCall]; rfl
  | _ => cases h; rfl

/-- A micro-step of the handlers' sequencer uses up a report at most. -/
theorem isrMicro_truthful {s u : State} {task : Task} {q : Seq} (hok : task.Ok .isr s)
    (he : taskStep task s = .ok (q, u)) (h : s.plat.occReports = []) : u.plat.occReports = [] := by
  cases task with
  | push r b stage =>
    obtain ⟨o, t, hpush, hu⟩ := taskStep_push he
    have hplat := (pushStep_onlyRing _ _ _ _ _ _ hpush).plat
    rcases hu with rfl | ⟨st, rfl⟩ <;> exact (congrArg Platform.occReports hplat).trans h
  | pop r stage =>
    obtain ⟨o, t, hpop, hu⟩ := taskStep_pop he
    have hplat := (popStep_onlyRing _ _ _ _ _ hpop).plat
    rcases hu with rfl | ⟨st, v, rfl⟩ <;> exact (congrArg Platform.occReports hplat).trans h
  | onTxReady free sent stage => exact (taskStep_onTxReady_occReports he).trans h
  | onRxReady n i stage =>
    rcases taskStep_onRxReady_cases he with ⟨-, -, rfl⟩ | ⟨-, -, rfl⟩ | ⟨b, p, -, hplat, -⟩ | ⟨-, -, rfl⟩ |
      ⟨-, -, rfl⟩ | ⟨-, -, rfl⟩
    · rw [callOccupancy_truthful h]; exact h
    · rw [callRxRead_eq_afterCall]; exact h
    · rw [hplat]; exact h
    · exact h
    · exact h
    · exact h
  | tryReceive stage => cases hok.1
  | drainReceived out stage => cases hok.1
  | submit bytes k stage => cases hok.1

theorem platStep_occReports (x : PlatStep) (s : State) : (platStep x s).plat.occReports = s.plat.occReports := by
  cases x with
  | txShift => simp only [platStep]; split <;> rfl
  | rxArrive => simp only [platStep]; split <;> [rfl; (split <;> rfl)]
  | _ => rfl

theorem Move.truthful {fg : Bool} {s t : State} (hi : StateInv s) (m : Move fg s t) (h : s.plat.occReports = []) :
    t.plat.occReports = [] := by
  cases m with
  | book b => rw [b.plat]; exact h
  | fgEnter k hf hid hisr hk hok h0 => exact h
  | isrEnter src hid => exact h
  | fgMicro hf hs he => simpa [(taskStep_fgStepped hi (hi.taskOk (d := .fg) hs) he).plat] using h
  | isrMicro hs he => simpa using isrMicro_truthful (hi.taskOk (d := .isr) hs) he h
  | sync x hx => rw [(syncStep_outside x s).plat]; exact h
  | plat x hx => rw [platStep_occReports]; exact h
  | feed l => exact h

/-! ## A silent line -/

namespace FairRun

variable {sch : Nat → Turn} {σ : Nat → State} (r : FairRun sch σ)
include r

theorem truthful {k : Nat} (h : (σ k).plat.occReports = []) {n : Nat} (hn : k ≤ n) : (σ n).plat.occReports = [] := by
  refine Nat.le_induction h (fun i _ hi => ?_) n hn
  exact (chain_ind (fun s t => s.plat.occReports = [] → t.plat.occReports = []) (fun _ => id)
    (fun _ _ _ h h' => h' ∘ h) (fun _ _ hs m => m.truthful hs) (r.inv i) (runTurn_chain (r.driver i) (r.next i))).1 hi

end FairRun

/-- From moment `n` on every turn is a step of the receive side, and none of them reads or loses a byte. -/
structure RxQuiet (σ : Nat → State) (n : Nat) : Prop where
  step : ∀ j, n ≤ j → RxStep (σ j).rxView (σ (j + 1)).rxView
  unread : ∀ j, n ≤ j → (σ j).rxView.unread = (σ n).rxView.unread

theorem RxQuiet.later {σ : Nat → State} {n : Nat} (h : RxQuiet σ n) {i j : Nat} (hi : n ≤ i) (hj : i ≤ j) :
    RxLater (σ i).rxView (σ j).rxView :=
  Nat.le_induction (.refl _) (fun l hl ih => ih.trans (h.step l (hi.trans hl)).later) j hj

theorem RxQuiet.not_unread_lt {σ : Nat → State} {n : Nat} (h : RxQuiet σ n) {i j : Nat} (hi : n ≤ i) (hj : i ≤ j) :
    ¬ (σ j).rxView.unread < (σ i).rxView.unread := by
  rw [h.unread i hi, h.unread j (hi.trans hj)]
  exact lt_irrefl _

theorem rxView_away {s : State} (h : s.isrSeq = .idle) : s.rxView.phase = .away := (rxPhase_eq_away_iff _).mpr h

namespace FairRun

variable {sch : Nat → Turn} {σ : Nat → State} (r : FairRun sch σ)
include r

/-- A handler that was bound to read a byte would read it: it completes. -/
theorem not_bound_of_rxQuiet {n : Nat} (q : RxQuiet σ n) {j : Nat} (hj : n ≤ j) : ¬ (σ j).rxView.Bound := fun hbound => by
  obtain ⟨c, hc, hidle⟩ := r.complete j
  obtain ⟨-, hphase⟩ := ((q.later hj hc).bound hbound).resolve_right (q.not_unread_lt hj hc)
  rw [rxView_away hidle] at hphase
  rcases hphase with hphase | hphase <;> cases hphase

/-- A run of ON_RX_READY clears the RX-ready flag, which then is up again only with a byte behind it. -/
theorem fresh_of_busy {n : Nat} (q : RxQuiet σ n) {a b : Nat} (ha : n ≤ a) (hab : a ≤ b) (hidle : (σ a).isrSeq = .idle)
    (hbusy : (σ b).isrSeq ≠ .idle) : ∃ c, a ≤ c ∧ (σ c).isrSeq = .idle ∧ (σ c).rxView.Fresh := by
  obtain ⟨i, hi, hbefore, hafter⟩ := exists_switch (P := fun j => (σ j).isrSeq = .idle) hab hidle hbusy
  have hclearing : (σ (i + 1)).rxView.Clearing :=
    (q.step i (ha.trans hi)).clearing_of_away (rxView_away hbefore) (mt (rxPhase_eq_away_iff _).mp hafter)
  obtain ⟨c, hc, hdone⟩ := r.complete (i + 1)
  have hni : n ≤ i + 1 := by omega
  refine ⟨c, by omega, hdone, ?_⟩
  refine (((q.later hni hc).cleared (.inl hclearing)).resolve_right (q.not_unread_lt hni hc)).resolve_left fun hnot => ?_
  simp [RxView.Clearing, rxView_away hdone] at hnot

/-- From then on ON_RX_READY does not run: it would be bound to read a byte. -/
theorem idle_of_fresh {n : Nat} (q : RxQuiet σ n) {c d : Nat} (hc : n ≤ c) (hd : c ≤ d) (hidle : (σ c).isrSeq = .idle)
    (hfresh : (σ c).rxView.Fresh) : (σ d).isrSeq = .idle := by
  rcases (q.later hc hd).settled ⟨hfresh, rxView_away hidle⟩ with ⟨-, haway⟩ | hbound | hlt
  · exact (rxPhase_eq_away_iff _).mp haway
  · exact absurd hbound (r.not_bound_of_rxQuiet q (hc.trans hd))
  · exact absurd hlt (q.not_unread_lt hc hd)

/-- Where the line is silent the bytes to read run out. -/
theorem rxQuiet_of_silent {k : Nat} (hocc : (σ k).plat.occReports = [])
    (hquiet : ∀ n, k ≤ n → (∀ l, sch n ≠ .feed l) ∧ ∀ a g, sch n ≠ .command .evt a g) {m : Nat}
    (h : Starved sch σ m) : ∃ n, m ≤ n ∧ RxQuiet σ n := by
  have step : ∀ j, max k m ≤ j → RxStep (σ j).rxView (σ (j + 1)).rxView := fun j hj => by
    obtain ⟨hfeed, hevt⟩ := hquiet j (by omega)
    exact runTurn_rxStep (r.inv j) (r.truthful hocc (by omega)) (h.away j (by omega)) (r.driver j) hfeed hevt
      (h.undispatched j (by omega)) (r.next j)
  obtain ⟨n, hn, hconst⟩ := eventually_const (f := fun j => (σ j).rxView.unread) fun j hj => (step j hj).unread_le
  exact ⟨n, by omega, fun j hj => step j (hn.trans hj), hconst⟩

/-- Where the line is silent ON_RX_READY runs only so often: each run reads a byte, but for one that clears a flag that
is up with no byte behind it. So ON_TX_READY does not starve. -/
theorem not_starved_of_silent {k : Nat} (hocc : (σ k).plat.occReports = [])
    (hquiet : ∀ n, k ≤ n → (∀ l, sch n ≠ .feed l) ∧ ∀ a g, sch n ≠ .command .evt a g) {m : Nat}
    (h : Starved sch σ m) : False := by
  obtain ⟨n, hn, q⟩ := r.rxQuiet_of_silent hocc hquiet h
  obtain ⟨a, ha, hidle⟩ := r.complete n
  obtain ⟨b, hb, hbusy⟩ := r.busy_of_starved h (hn.trans ha)
  obtain ⟨c, hc, hdone, hfresh⟩ := r.fresh_of_busy q ha hb hidle hbusy
  obtain ⟨d, hd, hbusy'⟩ := r.busy_of_starved h (hn.trans (ha.trans hc))
  exact hbusy' (r.idle_of_fresh q (ha.trans hc) hd hdone hfresh)

/-- Where ON_TX_READY never starves, every byte of a promised stream leaves the ring in the end. -/
theorem sent_reaches (hstarve : ∀ k, ¬ Starved sch σ k) {n c : Nat} (hp : (σ n).txView.Promised c) :
    ∃ m, n ≤ m ∧ c ≤ (σ m).txView.sent := by
  by_contra hno
  have hlt : ∀ m, n ≤ m → (σ m).txView.sent < c := fun m hm => Nat.lt_of_not_le fun hle => hno ⟨m, hm, hle⟩
  obtain ⟨a, ha, hserved⟩ := r.served_of_promised hp
  obtain ⟨b, hb, hconst⟩ := eventually_const (f := fun j => c - (σ j).txView.sent) (k := a)
    fun j _ => Nat.sub_le_sub_left (r.txLater (Nat.le_succ j)).sent c
  obtain ⟨k, hk⟩ := r.starved_of_stuck ((r.txLater hb).served c hserved) (hlt b (by omega)) fun m hm => by
    have h1 := hconst m hm
    have h2 := hlt m (by omega)
    have h3 := hlt b (by omega)
    omega
  exact hstarve k hk

end FairRun

/-- Settles O23: in a fair run ON_TX_READY does not starve, so that every byte leaves the ring, and what has left it
reaches the line; the stream only grows, so that the line then begins with it. -/
theorem acceptedBytesAreEventuallySent : Obligations.AcceptedBytesAreEventuallySent := by
  intro sch s hi ha hb hd hf hline n hw
  have r := fairRun_of_premises hi ha hb hd hf
  have hstarve : ∀ k, ¬ Starved sch (trajectory sch s) k := fun k hk => by
    rcases hline with ⟨j, hocc, hquiet⟩ | hpending
    · exact r.not_starved_of_silent hocc hquiet hk
    · exact r.not_starved_of_pending hpending hk
  obtain ⟨a, hna, hsent⟩ := r.sent_reaches hstarve (r.promised hw)
  obtain ⟨m, ham, hlength⟩ := r.line_reaches hsent
  obtain ⟨l, hl⟩ := r.stream_grows (hna.trans ham)
  have hline : (trajectory sch s m).plat.lineOut.map some <+: txStream (trajectory sch s m) := by
    simp [txStream]
  refine ⟨m, hna.trans ham, List.prefix_of_prefix_length_le ⟨l, hl.symm⟩ hline ?_⟩
  simpa [State.txView] using hlength

end Sys2Proof.Machine
end

section
/-! Who may issue what (60 R242), and the last micro-step of a handler (60 R239). -/

namespace Sys2Proof.Machine

/-! ## The rows of the context table -/

/-- A row that compares the caller with one agent lists that agent only. -/
theorem mayIssue_sole {lag : Bool} {a x : Agent} {i : Instr} (h : mayIssue lag a i = (a == x)) :
    mayIssue lag a i = true ↔ a = x := by
  rw [h, beq_iff_eq]

/-- A row that compares the caller with two agents lists both. -/
theorem mayIssue_pair {lag : Bool} {a x y : Agent} {i : Instr} (h : mayIssue lag a i = (a == x || a == y)) :
    mayIssue lag a i = true ↔ a = x ∨ a = y := by
  rw [h, Bool.or_eq_true, beq_iff_eq, beq_iff_eq]

/-- FG may arm in either configuration, SYNC only under lag (43 R194). -/
theorem mayIssue_arm {lag : Bool} {a : Agent} :
    mayIssue lag a (.hwSetTxInterruptEnabled true) = true ↔ a = .fg ∨ (a = .sync ∧ lag = true) := by
  simp [mayIssue]

/-- Settles O28: every row but the arm's lists one agent or two; `Bool.or_comm` where the table of the model names the
dispatcher, or the producer of the RX ring, first. -/
theorem contextTableIsAsListed : Obligations.ContextTableIsAsListed := fun _ _ _ _ =>
  ⟨mayIssue_sole rfl, mayIssue_sole rfl, mayIssue_sole rfl,
    -- the interrupt operations
    mayIssue_pair (Bool.or_comm _ _), mayIssue_pair (Bool.or_comm _ _),
    -- PUSH and POP, of TX and of RX
    mayIssue_sole rfl, mayIssue_sole rfl, mayIssue_sole rfl, mayIssue_sole rfl,
    -- LEN, IS_EMPTY and IS_FULL, each of TX and of RX
    mayIssue_pair rfl, mayIssue_pair (Bool.or_comm _ _), mayIssue_pair rfl, mayIssue_pair (Bool.or_comm _ _),
    mayIssue_pair rfl, mayIssue_pair (Bool.or_comm _ _),
    -- the capability operations
    mayIssue_arm, mayIssue_sole rfl, mayIssue_sole rfl, mayIssue_sole rfl, mayIssue_sole rfl, mayIssue_sole rfl,
    mayIssue_sole rfl, mayIssue_sole rfl, mayIssue_sole rfl⟩

/-! ## The return of a handler -/

theorem taskStep_y6 (n i : Nat) (s : State) :
    taskStep (.onRxReady n i .y6) s = .ok (.idle, leaveHandler (s.ret .isrRx .ok .none)) := rfl

/-- Settles O51: X5 and Y6 return the result and leave the handler, and that is the whole turn. -/
theorem handlerReturnSetsIdle : Obligations.HandlerReturnSetsIdle := fun s =>
  ⟨fun free sent hs => runTurn_micro_isr hs (taskStep_x5 free sent s),
    fun n i hs => runTurn_micro_isr hs (taskStep_y6 n i s)⟩

end Sys2Proof.Machine
end

section
/-! Quiescence: nothing is left to send (70 R285, D26). -/

namespace Sys2Proof.Machine

/-- No arm request waits where SY_TXW is not enabled: under lag a request enables it (20 R74), and without lag there is
none (20 R75). -/
theorem StateInv.txArmReq_eq_false {s : State} (hi : StateInv s) (h : syncEnabled .txw s = false) :
    s.txArmReq = false := by
  cases hlag : s.cfg.syncLag with
  | false =>
    obtain ⟨-, -, -, -, hreq⟩ := hi.views hlag
    exact hreq
  | true =>
    obtain ⟨-, hreq⟩ : s.tx.wrSeen = s.tx.writeIndex ∧ s.txArmReq = false := by simpa [syncEnabled, hlag] using h
    exact hreq

/-- Beside an empty FIFO the TX-ready flag is up unless PL_TX_FLAG is enabled (43 R207). -/
theorem txFlag_of_txFifo_nil {s : State} (hfifo : s.plat.txFifo = []) (h : platEnabled .txFlag s = false) :
    s.plat.txFlag = true := by
  simpa [platEnabled, txCondition, hfifo] using h

/-- An unrequested ON_TX_READY whose flag is up is masked (43 R211). -/
theorem txArmed_eq_false_of_txFlag {s : State} (hflag : s.plat.txFlag = true) (h : requested .txReady s = false) :
    s.txArmed = false := by
  simpa [requested, hflag] using h

/-- With the handlers at rest and the FIFO and the ring empty, the whole stream is on the line. -/
theorem txStream_eq_lineOut {s : State} (hisr : s.isrSeq = .idle) (hfifo : s.plat.txFifo = [])
    (hlen : trueLen .tx s = 0) : txStream s = s.plat.lineOut.map some := by
  have hflight : inFlight s = [] := inFlight_of_rxSeq (hisr ▸ RxSeq.idle)
  have hlive : liveCells .tx s = [] := List.length_eq_zero_iff.mp ((liveCells_length .tx s).trans hlen)
  simp [txStream, hfifo, hflight, hlive]

/-- Settles O46: the flag is up beside the empty FIFO, so that only the mask keeps ON_TX_READY from being requested; data
in the ring would have lifted the mask (O44). -/
theorem quiescentMeansAllSent : Obligations.QuiescentMeansAllSent := by
  rintro s hi ha ⟨hfg, hisr, hsync, hrequest, hfifo, -, htxFlag, -⟩
  have hflag : s.plat.txFlag = true := txFlag_of_txFifo_nil hfifo htxFlag
  have harmed : s.txArmed = false := txArmed_eq_false_of_txFlag hflag (hrequest .txReady)
  have hwindow : inArmWindow s = false := inArmWindow_of_rxSeq (hfg ▸ RxSeq.idle)
  have hlen : trueLen .tx s = 0 := by
    by_contra hne
    have hlive := dataInTxRingIsArmed s hi ha hwindow (hi.txArmReq_eq_false (hsync .txw)) (Nat.pos_of_ne_zero hne)
    exact Bool.false_ne_true (harmed.symm.trans hlive)
  exact ⟨hlen, harmed, hflag, txStream_eq_lineOut hisr hfifo hlen⟩

end Sys2Proof.Machine
end
